-- ==== Sys2Proof/Word.lean ====
section
/-! DEFINITION. The words SYNTH_CORE works on (00_scope.md rule R8): 32-bit words and bytes, bit 0 the least
significant. A binary32 value is held as its 32-bit pattern (rule R9), so it is a `Word` too. -/

namespace Sys2Proof

/-- A 32-bit word: a CSR, a u32, or the bit pattern of a binary32 value (R8, R9). -/
abbrev Word := BitVec 32

/-- One byte of host memory, or the code or auxiliary byte of an error. -/
abbrev Byte := BitVec 8

end Sys2Proof
end

