-- ==== Sys2Proof/Config.lean ====
section
/-! DEFINITION. What an instance of SYNTH_CORE fixes (its parameters, 00_scope.md rules R6, R7), and the free
values: opaque constants with no body, standing for the values the spec leaves open. Nothing in Lean can
evaluate one, so a claim that holds of the model holds whatever they are. -/

namespace Sys2Proof

/-- A run of host memory, `size` bytes from `base`, that the platform admits for writing (20_memory.md R88). -/
structure Region where
  base : Nat
  size : Nat
deriving DecidableEq, Repr

/-- The parameters of an instance. No step writes one (10_state.md R75); they stand in the state only so that
every statement about all states is a statement about all instances (log 1). -/
structure Params where
  /-- `N_VOICES`, the voice-pool capacity (R6). -/
  nVoices : Nat
  /-- `WT_LOG2_LEN`, log2 of the wavetable length (R6). -/
  wtLog2Len : Nat
  /-- `FIFO_DEPTH`, the event FIFO capacity (R6). -/
  fifoDepth : Nat
  /-- `CSR_BASE`, the host address of the CSR window, a multiple of 512 (20_memory.md R81). -/
  csrBase : Word
  /-- `IRQ_ROUTE`, the host interrupt-controller input the `irq` line drives (60_exceptions.md R335); no rule reads it. -/
  irqRoute : Nat
  /-- The host memory the platform admits for 32-bit writes, as maximal runs (20_memory.md R88). -/
  memory : List Region
deriving DecidableEq, Repr

/-- `L`, the wavetable length (R6). -/
def Params.tableLen (p : Params) : Nat := 2 ^ p.wtLog2Len

/-- The legal ranges of R6 and R81; every admitted run lies inside the 2^32 bytes of host memory (R80). -/
def Params.legal (p : Params) : Bool :=
  decide (1 ≤ p.nVoices) && decide (p.nVoices ≤ 65535) && decide (1 ≤ p.wtLog2Len) && decide (p.wtLog2Len ≤ 16)
    && decide (1 ≤ p.fifoDepth) && decide (p.fifoDepth ≤ 65535) && decide (p.csrBase.toNat % 512 = 0)
    && p.memory.all fun r => decide (r.base + r.size ≤ 2 ^ 32)

/-- DESIGN CHOICE (log 1): the instance `State.reset` stands for is the one of 95_test_vectors.md (N_VOICES = 4,
WT_LOG2_LEN = 2, FIFO_DEPTH = 4), on a platform whose window is at 0 and that admits all of host memory. -/
def Params.vectors : Params :=
  { nVoices := 4, wtLog2Len := 2, fifoDepth := 4, csrBase := 0, irqRoute := 0, memory := [⟨0, 2 ^ 32⟩] }

/-- The n-th free word (a draw): a register read while BUSY (48_host_interface.md R297), a never-written table
entry read through `WT_DATA` (R308), the output range read while BUSY (20_memory.md R92), or a byte of host
memory nothing has written (log 3, log 6). -/
opaque Config.freeWord : Nat → Word

/-- The n-th free choice: whether the host's write of a raced output word outlasts the engine's (20_memory.md
R92, log 7). -/
opaque Config.freeBit : Nat → Bool

/-- `wrapL` of a pattern that is not a finite binary32 ≥ 0: no value is stated (00_scope.md R9; log 11). -/
opaque Config.wrapOutside : Word → Word

/-- `CoefFn` of a cutoff and a rate that are not both finite and positive: no value is stated (43_filter.md R180;
log 10). -/
opaque Config.coefOutside : Word → Word → Word

/-- Which of the two neighbours `CoefFn` rounds to where the model's enclosure of the real value does not
decide it (43_filter.md R180; log 10). -/
opaque Config.coefRoundsUp : Word → Word → Bool

end Sys2Proof
end

