-- ==== Sys2Proof/Machine/Float.lean ====
section
/-! DEFINITION. IEEE 754 binary32 (00_scope.md rules R9, R10): roundTiesToEven, subnormals kept, no fusion, the
canonical quiet NaN for every NaN result. A finite value is held exactly as a whole number of units of 2^-149
(the least positive subnormal), so each operation computes exactly and rounds once. -/

namespace Sys2Proof.Machine

/-- The exponent field, bits 30 to 23. -/
def expField (x : Word) : Nat := x.toNat / 2 ^ 23 % 256

/-- The fraction field, bits 22 to 0. -/
def fracField (x : Word) : Nat := x.toNat % 2 ^ 23

/-- The sign bit, bit 31. -/
def signOf (x : Word) : Bool := decide (2 ^ 31 ≤ x.toNat)

def isNaN32 (x : Word) : Bool := decide (expField x = 255) && decide (fracField x ≠ 0)

def isInf32 (x : Word) : Bool := decide (expField x = 255) && decide (fracField x = 0)

def isFinite32 (x : Word) : Bool := decide (expField x ≠ 255)

/-- The magnitude of a finite value, in units of 2^-149. -/
def magOf (x : Word) : Nat :=
  if expField x = 0 then fracField x else (2 ^ 23 + fracField x) * 2 ^ (expField x - 1)

/-- The value of a finite binary32, in units of 2^-149. -/
def valOf (x : Word) : Int := if signOf x then -(magOf x : Int) else (magOf x : Int)

/-- `n / d` rounded to the nearest whole number, ties to even. -/
def roundNearest (n d : Nat) : Nat :=
  if d < 2 * (n % d) ∨ (2 * (n % d) = d ∧ n / d % 2 = 1) then n / d + 1 else n / d

/-- The pattern (bits 30 to 0) of the binary32 nearest to `n / d` units, ties to even; overflow gives the
pattern of infinity. The unit in the last place is `2 ^ e` units. -/
def roundUnits (n d : Nat) : Nat :=
  min ((Nat.log2 (n / d) - 23) * 2 ^ 23 + roundNearest n (d * 2 ^ (Nat.log2 (n / d) - 23))) 0x7F800000

/-- A sign and a 31-bit pattern put together. -/
def pack32 (neg : Bool) (bits : Nat) : Word := BitVec.ofNat 32 (bits + if neg then 2 ^ 31 else 0)

/-- The canonical quiet NaN (R10). -/
def nan32 : Word := 0x7FC00000

def zero32 : Word := 0x00000000
def one32 : Word := 0x3F800000
def negOne32 : Word := 0xBF800000

/-- The sign changed, nothing else. -/
def neg32 (x : Word) : Word := x ^^^ 0x80000000

/-- `add32(a, b)` (R9): an exact zero sum is -0.0 only when both operands are negative. -/
def add32 (a b : Word) : Word :=
  if isNaN32 a || isNaN32 b then nan32
  else if isInf32 a then (if isInf32 b && (signOf a != signOf b) then nan32 else a)
  else if isInf32 b then b
  else if valOf a + valOf b = 0 then pack32 (signOf a && signOf b) 0
  else pack32 (decide (valOf a + valOf b < 0)) (roundUnits (valOf a + valOf b).natAbs 1)

/-- `sub32(a, b)` (R9). -/
def sub32 (a b : Word) : Word := add32 a (neg32 b)

/-- `mul32(a, b)` (R9). -/
def mul32 (a b : Word) : Word :=
  if isNaN32 a || isNaN32 b then nan32
  else if isInf32 a || isInf32 b then
    (if (!isInf32 a && decide (magOf a = 0)) || (!isInf32 b && decide (magOf b = 0)) then nan32
     else pack32 (signOf a != signOf b) 0x7F800000)
  else pack32 (signOf a != signOf b) (roundUnits (magOf a * magOf b) (2 ^ 149))

/-- `div32(a, b)` (R9). -/
def div32 (a b : Word) : Word :=
  if isNaN32 a || isNaN32 b then nan32
  else if isInf32 a then (if isInf32 b then nan32 else pack32 (signOf a != signOf b) 0x7F800000)
  else if isInf32 b then pack32 (signOf a != signOf b) 0
  else if magOf b = 0 then (if magOf a = 0 then nan32 else pack32 (signOf a != signOf b) 0x7F800000)
  else pack32 (signOf a != signOf b) (roundUnits (magOf a * 2 ^ 149) (magOf b))

/-- `u2f(u)` (R9): a u32 converted to binary32. -/
def u2f (u : Word) : Word := pack32 false (roundUnits (u.toNat * 2 ^ 149) 1)

/-- A number whose order is the numeric order of binary32 values other than NaN (-0 and +0 both 0). -/
def orderKey (x : Word) : Int :=
  if signOf x then -((x.toNat % 2 ^ 31 : Nat) : Int) else ((x.toNat % 2 ^ 31 : Nat) : Int)

/-- `a < b`, the IEEE numeric comparison (R9); false if either is a NaN. -/
def lt32 (a b : Word) : Bool := !isNaN32 a && !isNaN32 b && decide (orderKey a < orderKey b)

/-- `a ≤ b`, the IEEE numeric comparison (R9); false if either is a NaN. -/
def le32 (a b : Word) : Bool := !isNaN32 a && !isNaN32 b && decide (orderKey a ≤ orderKey b)

/-- A finite binary32 that is ≥ 0 (so -0.0 too). -/
def isNonneg32 (x : Word) : Bool := isFinite32 x && le32 zero32 x

/-- `wrapL(x)` (R9): `x - L * floor(x / L)`, exact for a finite `x ≥ 0`. -/
def wrapL (len : Nat) (x : Word) : Word :=
  if isNonneg32 x then pack32 false (roundUnits (magOf x % (len * 2 ^ 149)) 1) else Config.wrapOutside x

/-- `floor(x)` of a finite `x ≥ 0`, as a whole number. -/
def floor32 (x : Word) : Nat := magOf x / 2 ^ 149

/-- `frac(x)` (R9): `x - floor(x)`, exact for a finite `x ≥ 0`. -/
def frac32 (x : Word) : Word := pack32 false (roundUnits (magOf x % 2 ^ 149) 1)

/-- 0 ≤ v ≤ 1, not a NaN (the legal velocities R102 and sustain levels R107; -0.0 is one). -/
def isUnit32 (v : Word) : Bool := le32 zero32 v && le32 v one32

end Sys2Proof.Machine
end

