-- ==== Sys2Proof/Syntax.lean ====
section
/-! DEFINITION. The instructions of SYNTH_CORE (00_scope.md R2; spec/opcode_table.json, one constructor a row): the
twelve legal events, the accesses to the CSR window and the two engine steps. Also the three encoded formats
(30_encoding.md R100, R110, R112), the error codes (60_exceptions.md R330) and the turns of the port. -/

namespace Sys2Proof

/-- One instruction of SYNTH_CORE: a row of spec/opcode_table.json with its operands. -/
inductive Instr where
  /-- NOTE_ON (46_event_intake.md R236): note, velocity as binary32, timestamp. -/
  | noteOn (note : BitVec 7) (vel : Word) (ts : BitVec 64)
  /-- NOTE_OFF (R237): note, timestamp. -/
  | noteOff (note : BitVec 7) (ts : BitVec 64)
  /-- CC.ATTACK_SAMPLES (R241): value, timestamp. -/
  | ccAttackSamples (v : Word) (ts : BitVec 64)
  /-- CC.DECAY_SAMPLES (R242): value, timestamp. -/
  | ccDecaySamples (v : Word) (ts : BitVec 64)
  /-- CC.SUSTAIN_LEVEL (R243): value, timestamp. -/
  | ccSustainLevel (v : Word) (ts : BitVec 64)
  /-- CC.RELEASE_SAMPLES (R244): value, timestamp. -/
  | ccReleaseSamples (v : Word) (ts : BitVec 64)
  /-- CC.CUTOFF_HZ (R245): value, timestamp. -/
  | ccCutoffHz (v : Word) (ts : BitVec 64)
  /-- CC.FILTER_ENABLE (R246): value, timestamp. -/
  | ccFilterEnable (v : Word) (ts : BitVec 64)
  /-- CC.HEADROOM (R247): value, timestamp. -/
  | ccHeadroom (v : Word) (ts : BitVec 64)
  /-- CC.SOFTCLIP_ENABLE (R248): value, timestamp. -/
  | ccSoftclipEnable (v : Word) (ts : BitVec 64)
  /-- CC.PHASE_RESET (R249): value, timestamp. -/
  | ccPhaseReset (v : Word) (ts : BitVec 64)
  /-- CC.RETRIG_MODE (R250): value, timestamp. -/
  | ccRetrigMode (v : Word) (ts : BitVec 64)
  /-- A read of ID (offset 0x000). -/
  | rdId
  /-- A write of the read-only ID, refused (48_host_interface.md R292). -/
  | wrId (v : Word)
  /-- A read of VERSION (offset 0x004). -/
  | rdVersion
  /-- A write of the read-only VERSION, refused (48_host_interface.md R292). -/
  | wrVersion (v : Word)
  /-- A read of CONFIG0 (offset 0x008). -/
  | rdConfig0
  /-- A write of the read-only CONFIG0, refused (48_host_interface.md R292). -/
  | wrConfig0 (v : Word)
  /-- A read of CONFIG1 (offset 0x00C). -/
  | rdConfig1
  /-- A write of the read-only CONFIG1, refused (48_host_interface.md R292). -/
  | wrConfig1 (v : Word)
  /-- A read of STATUS (offset 0x014). -/
  | rdStatus
  /-- A write of the read-only STATUS, refused (48_host_interface.md R292). -/
  | wrStatus (v : Word)
  /-- A read of ACTIVE_VOICES (offset 0x018). -/
  | rdActiveVoices
  /-- A write of the read-only ACTIVE_VOICES, refused (48_host_interface.md R292). -/
  | wrActiveVoices (v : Word)
  /-- A read of FIFO_COUNT (offset 0x01C). -/
  | rdFifoCount
  /-- A write of the read-only FIFO_COUNT, refused (48_host_interface.md R292). -/
  | wrFifoCount (v : Word)
  /-- A read of OVF_COUNT (offset 0x020). -/
  | rdOvfCount
  /-- A write of the read-only OVF_COUNT, refused (48_host_interface.md R292). -/
  | wrOvfCount (v : Word)
  /-- A read of PUSH_RESULT (offset 0x024). -/
  | rdPushResult
  /-- A write of the read-only PUSH_RESULT, refused (48_host_interface.md R292). -/
  | wrPushResult (v : Word)
  /-- A read of BAD_EVT_COUNT (offset 0x028). -/
  | rdBadEvtCount
  /-- A write of the read-only BAD_EVT_COUNT, refused (48_host_interface.md R292). -/
  | wrBadEvtCount (v : Word)
  /-- A read of CFG_ERR_COUNT (offset 0x02C). -/
  | rdCfgErrCount
  /-- A write of the read-only CFG_ERR_COUNT, refused (48_host_interface.md R292). -/
  | wrCfgErrCount (v : Word)
  /-- A read of CSR_ERR_COUNT (offset 0x030). -/
  | rdCsrErrCount
  /-- A write of the read-only CSR_ERR_COUNT, refused (48_host_interface.md R292). -/
  | wrCsrErrCount (v : Word)
  /-- A read of LAST_ERR (offset 0x034). -/
  | rdLastErr
  /-- A write of the read-only LAST_ERR, refused (48_host_interface.md R292). -/
  | wrLastErr (v : Word)
  /-- A read of STEAL_COUNT (offset 0x038). -/
  | rdStealCount
  /-- A write of the read-only STEAL_COUNT, refused (48_host_interface.md R292). -/
  | wrStealCount (v : Word)
  /-- A read of BLOCK_COUNT (offset 0x03C). -/
  | rdBlockCount
  /-- A write of the read-only BLOCK_COUNT, refused (48_host_interface.md R292). -/
  | wrBlockCount (v : Word)
  /-- A read of VOICE_STATUS (offset 0x084). -/
  | rdVoiceStatus
  /-- A write of the read-only VOICE_STATUS, refused (48_host_interface.md R292). -/
  | wrVoiceStatus (v : Word)
  /-- A read of VOICE_LEVEL (offset 0x088). -/
  | rdVoiceLevel
  /-- A write of the read-only VOICE_LEVEL, refused (48_host_interface.md R292). -/
  | wrVoiceLevel (v : Word)
  /-- A read of VOICE_PHASE (offset 0x08C). -/
  | rdVoicePhase
  /-- A write of the read-only VOICE_PHASE, refused (48_host_interface.md R292). -/
  | wrVoicePhase (v : Word)
  /-- A read of VOICE_INC (offset 0x090). -/
  | rdVoiceInc
  /-- A write of the read-only VOICE_INC, refused (48_host_interface.md R292). -/
  | wrVoiceInc (v : Word)
  /-- A read of VOICE_Y1 (offset 0x094). -/
  | rdVoiceY1
  /-- A write of the read-only VOICE_Y1, refused (48_host_interface.md R292). -/
  | wrVoiceY1 (v : Word)
  /-- A read of VOICE_VEL (offset 0x098). -/
  | rdVoiceVel
  /-- A write of the read-only VOICE_VEL, refused (48_host_interface.md R292). -/
  | wrVoiceVel (v : Word)
  /-- A read of VOICE_RELCNT (offset 0x09C). -/
  | rdVoiceRelcnt
  /-- A write of the read-only VOICE_RELCNT, refused (48_host_interface.md R292). -/
  | wrVoiceRelcnt (v : Word)
  /-- A read of VOICE_RELDEC (offset 0x0A0). -/
  | rdVoiceReldec
  /-- A write of the read-only VOICE_RELDEC, refused (48_host_interface.md R292). -/
  | wrVoiceReldec (v : Word)
  /-- A read of VOICE_SEQ_LO (offset 0x0A4). -/
  | rdVoiceSeqLo
  /-- A write of the read-only VOICE_SEQ_LO, refused (48_host_interface.md R292). -/
  | wrVoiceSeqLo (v : Word)
  /-- A read of VOICE_SEQ_HI (offset 0x0A8). -/
  | rdVoiceSeqHi
  /-- A write of the read-only VOICE_SEQ_HI, refused (48_host_interface.md R292). -/
  | wrVoiceSeqHi (v : Word)
  /-- A read of TRIG_SEQ_LO (offset 0x0B0). -/
  | rdTrigSeqLo
  /-- A write of the read-only TRIG_SEQ_LO, refused (48_host_interface.md R292). -/
  | wrTrigSeqLo (v : Word)
  /-- A read of TRIG_SEQ_HI (offset 0x0B4). -/
  | rdTrigSeqHi
  /-- A write of the read-only TRIG_SEQ_HI, refused (48_host_interface.md R292). -/
  | wrTrigSeqHi (v : Word)
  /-- A read of PARAM[1] (offset 0x104). -/
  | rdParam1
  /-- A write of the read-only PARAM[1], refused (48_host_interface.md R292). -/
  | wrParam1 (v : Word)
  /-- A read of PARAM[2] (offset 0x108). -/
  | rdParam2
  /-- A write of the read-only PARAM[2], refused (48_host_interface.md R292). -/
  | wrParam2 (v : Word)
  /-- A read of PARAM[3] (offset 0x10C). -/
  | rdParam3
  /-- A write of the read-only PARAM[3], refused (48_host_interface.md R292). -/
  | wrParam3 (v : Word)
  /-- A read of PARAM[4] (offset 0x110). -/
  | rdParam4
  /-- A write of the read-only PARAM[4], refused (48_host_interface.md R292). -/
  | wrParam4 (v : Word)
  /-- A read of PARAM[5] (offset 0x114). -/
  | rdParam5
  /-- A write of the read-only PARAM[5], refused (48_host_interface.md R292). -/
  | wrParam5 (v : Word)
  /-- A read of PARAM[6] (offset 0x118). -/
  | rdParam6
  /-- A write of the read-only PARAM[6], refused (48_host_interface.md R292). -/
  | wrParam6 (v : Word)
  /-- A read of PARAM[7] (offset 0x11C). -/
  | rdParam7
  /-- A write of the read-only PARAM[7], refused (48_host_interface.md R292). -/
  | wrParam7 (v : Word)
  /-- A read of PARAM[8] (offset 0x120). -/
  | rdParam8
  /-- A write of the read-only PARAM[8], refused (48_host_interface.md R292). -/
  | wrParam8 (v : Word)
  /-- A read of PARAM[9] (offset 0x124). -/
  | rdParam9
  /-- A write of the read-only PARAM[9], refused (48_host_interface.md R292). -/
  | wrParam9 (v : Word)
  /-- A read of PARAM[10] (offset 0x128). -/
  | rdParam10
  /-- A write of the read-only PARAM[10], refused (48_host_interface.md R292). -/
  | wrParam10 (v : Word)
  /-- A read of COEF (offset 0x140). -/
  | rdCoef
  /-- A write of the read-only COEF, refused (48_host_interface.md R292). -/
  | wrCoef (v : Word)
  /-- A read of ATTACK_INC (offset 0x144). -/
  | rdAttackInc
  /-- A write of the read-only ATTACK_INC, refused (48_host_interface.md R292). -/
  | wrAttackInc (v : Word)
  /-- A read of DECAY_DEC (offset 0x148). -/
  | rdDecayDec
  /-- A write of the read-only DECAY_DEC, refused (48_host_interface.md R292). -/
  | wrDecayDec (v : Word)
  /-- A read of CTRL (offset 0x010). -/
  | rdCtrl
  /-- A write of CTRL. -/
  | wrCtrl (v : Word)
  /-- A read of EVT_W0 (offset 0x040). -/
  | rdEvtW0
  /-- A write of EVT_W0. -/
  | wrEvtW0 (v : Word)
  /-- A read of EVT_W1 (offset 0x044). -/
  | rdEvtW1
  /-- A write of EVT_W1. -/
  | wrEvtW1 (v : Word)
  /-- A read of EVT_W2 (offset 0x048). -/
  | rdEvtW2
  /-- A write of EVT_W2. -/
  | wrEvtW2 (v : Word)
  /-- A read of EVT_W3 (offset 0x04C). -/
  | rdEvtW3
  /-- A write of EVT_W3. -/
  | wrEvtW3 (v : Word)
  /-- A read of RENDER (offset 0x050). -/
  | rdRender
  /-- A write of RENDER. -/
  | wrRender (v : Word)
  /-- A read of OUT_BASE (offset 0x054). -/
  | rdOutBase
  /-- A write of OUT_BASE. -/
  | wrOutBase (v : Word)
  /-- A read of FRAMES (offset 0x058). -/
  | rdFrames
  /-- A write of FRAMES. -/
  | wrFrames (v : Word)
  /-- A read of CHANNELS (offset 0x05C). -/
  | rdChannels
  /-- A write of CHANNELS. -/
  | wrChannels (v : Word)
  /-- A read of IRQ_STATUS (offset 0x060). -/
  | rdIrqStatus
  /-- A write of IRQ_STATUS. -/
  | wrIrqStatus (v : Word)
  /-- A read of IRQ_ENABLE (offset 0x064). -/
  | rdIrqEnable
  /-- A write of IRQ_ENABLE. -/
  | wrIrqEnable (v : Word)
  /-- A read of CFG_FS (offset 0x070). -/
  | rdCfgFs
  /-- A write of CFG_FS. -/
  | wrCfgFs (v : Word)
  /-- A read of WT_ADDR (offset 0x074). -/
  | rdWtAddr
  /-- A write of WT_ADDR. -/
  | wrWtAddr (v : Word)
  /-- A read of WT_DATA (offset 0x078). -/
  | rdWtData
  /-- A write of WT_DATA. -/
  | wrWtData (v : Word)
  /-- A read of VOICE_SEL (offset 0x080). -/
  | rdVoiceSel
  /-- A write of VOICE_SEL. -/
  | wrVoiceSel (v : Word)
  /-- An access of the reserved offsets 0x068 to 0x06C, the k-th word (48_host_interface.md R293): a write of v if w, else a read. -/
  | rsv068 (w : Bool) (k : BitVec 1) (v : Word)
  /-- An access of the reserved offset 0x07C (48_host_interface.md R293): a write of v if w, else a read. -/
  | rsv07C (w : Bool) (v : Word)
  /-- An access of the reserved offset 0x0AC (48_host_interface.md R293): a write of v if w, else a read. -/
  | rsv0AC (w : Bool) (v : Word)
  /-- An access of the reserved offsets 0x0B8 to 0x0BC, the k-th word (48_host_interface.md R293): a write of v if w, else a read. -/
  | rsv0B8 (w : Bool) (k : BitVec 1) (v : Word)
  /-- An access of the reserved offsets 0x0C0 to 0x0FC, the k-th word (48_host_interface.md R293): a write of v if w, else a read. -/
  | rsv0C0 (w : Bool) (k : BitVec 4) (v : Word)
  /-- An access of the reserved offset 0x100 (48_host_interface.md R293): a write of v if w, else a read. -/
  | rsv100 (w : Bool) (v : Word)
  /-- An access of the reserved offset 0x12C (48_host_interface.md R293): a write of v if w, else a read. -/
  | rsv12C (w : Bool) (v : Word)
  /-- An access of the reserved offsets 0x130 to 0x13C, the k-th word (48_host_interface.md R293): a write of v if w, else a read. -/
  | rsv130 (w : Bool) (k : BitVec 2) (v : Word)
  /-- An access of the reserved offset 0x14C (48_host_interface.md R293): a write of v if w, else a read. -/
  | rsv14C (w : Bool) (v : Word)
  /-- An access of the reserved offsets 0x150 to 0x15C, the k-th word (48_host_interface.md R293): a write of v if w, else a read. -/
  | rsv150 (w : Bool) (k : BitVec 2) (v : Word)
  /-- An access of the reserved offsets 0x160 to 0x17C, the k-th word (48_host_interface.md R293): a write of v if w, else a read. -/
  | rsv160 (w : Bool) (k : BitVec 3) (v : Word)
  /-- An access of the reserved offsets 0x180 to 0x1FC, the k-th word (48_host_interface.md R293): a write of v if w, else a read. -/
  | rsv180 (w : Bool) (k : BitVec 5) (v : Word)
  /-- DRAIN_STEP, the engine's first step of a block (47_render_engine.md R271). -/
  | drainStep
  /-- RENDER_STEP, the engine's second step of a block (R272). -/
  | renderStep
deriving DecidableEq, Repr

/-- An event word `EVT128` as its four 32-bit words, word 0 the least significant (20_memory.md R83). -/
structure EvtWord where
  w0 : Word
  w1 : Word
  w2 : Word
  w3 : Word
deriving DecidableEq, Repr

/-- One host access to the CSR window, `CSRACC` (30_encoding.md R110): direction, byte offset from `CSR_BASE`,
width in bytes, and the data of a write. -/
structure CsrAccess where
  write : Bool
  off : BitVec 9
  width : Nat
  data : Word
deriving DecidableEq, Repr

/-- An instruction as SYNTH_CORE receives it: an event word, a CSR access, or the code in `ENG_STATE` (R113). -/
inductive Packet where
  | event (e : EvtWord)
  | access (a : CsrAccess)
  | engine (code : BitVec 2)
deriving DecidableEq, Repr

/-- The error codes of 60_exceptions.md R330. -/
inductive ErrCode where
  | evtBadKind
  | evtRsvBits
  | evtBadNote
  | evtBadVel
  | ccBadId
  | ccBadValue
  | fsBadValue
  | wtBadValue
  | csrBadAccess
  | csrWriteRo
  | csrReserved
  | csrBusy
  | csrRunning
  | renderBadParams
  | renderNotRunning
deriving DecidableEq, Repr

/-- One turn of the port (60_exceptions.md R341): which agent moves next, and what a host agent does with its
turn. Host memory is reached a 32-bit word at a time, word number `a` at byte address `4 * a` (log 7). -/
inductive Turn where
  /-- A host agent makes a CSR access. -/
  | csr (a : CsrAccess)
  /-- A host agent reads a word of host memory. -/
  | memRead (a : BitVec 30)
  /-- A host agent writes a word of host memory. -/
  | memWrite (a : BitVec 30) (v : Word)
  /-- The engine has the turn. -/
  | engine
deriving DecidableEq, Repr

end Sys2Proof
end

