-- ==== Sys2Proof/Machine/Operands.lean ====
section
/-! DEFINITION. The operand forms (30_encoding.md R102, R107, R108; 48_host_interface.md R306, R309) and the values
precomputed from operands: the note-frequency ROM (41_oscillator.md R143), the phase increment (R142), the filter
coefficient (43_filter.md R180) and the derived registers (10_state.md R27). -/

namespace Sys2Proof.Machine

/-- A legal boolean value word: exactly 0 or 1 (R108). -/
def isBoolWord (v : Word) : Bool := v == 0 || v == 1

/-- A legal cutoff: finite and > 0 (R107, id 0x05). -/
def isCutoff (v : Word) : Bool := isFinite32 v && lt32 zero32 v

/-- A legal headroom divisor: finite and ≥ 1.0 (R107, id 0x07). -/
def isHeadroom (v : Word) : Bool := isFinite32 v && le32 one32 v

/-- A legal sample rate: finite and ≥ 1.0 (48_host_interface.md R306). -/
def isSampleRate (v : Word) : Bool := isFinite32 v && le32 one32 v

/-- A legal wavetable entry: not a NaN, in [-1, 1] (48_host_interface.md R309). -/
def isTableValue (v : Word) : Bool := le32 negOne32 v && le32 v one32

/-- `NOTE_FREQ[0..31]` (41_oscillator.md R143). -/
def noteFreq0 : List Word :=
  [0x4102D013, 0x410A9760, 0x4112D517, 0x411B9041, 0x4124D054, 0x412E9D37, 0x4138FF49, 0x4143FF6A,
   0x414FA700, 0x415C0000, 0x416914F6, 0x4176F110, 0x4182D013, 0x418A9760, 0x4192D517, 0x419B9041,
   0x41A4D054, 0x41AE9D37, 0x41B8FF49, 0x41C3FF6A, 0x41CFA700, 0x41DC0000, 0x41E914F6, 0x41F6F110,
   0x4202D013, 0x420A9760, 0x4212D517, 0x421B9041, 0x4224D054, 0x422E9D37, 0x4238FF49, 0x4243FF6A]

/-- `NOTE_FREQ[32..63]` (41_oscillator.md R143). -/
def noteFreq32 : List Word :=
  [0x424FA700, 0x425C0000, 0x426914F6, 0x4276F110, 0x4282D013, 0x428A9760, 0x4292D517, 0x429B9041,
   0x42A4D054, 0x42AE9D37, 0x42B8FF49, 0x42C3FF6A, 0x42CFA700, 0x42DC0000, 0x42E914F6, 0x42F6F110,
   0x4302D013, 0x430A9760, 0x4312D517, 0x431B9041, 0x4324D054, 0x432E9D37, 0x4338FF49, 0x4343FF6A,
   0x434FA700, 0x435C0000, 0x436914F6, 0x4376F110, 0x4382D013, 0x438A9760, 0x4392D517, 0x439B9041]

/-- `NOTE_FREQ[64..95]` (41_oscillator.md R143). -/
def noteFreq64 : List Word :=
  [0x43A4D054, 0x43AE9D37, 0x43B8FF49, 0x43C3FF6A, 0x43CFA700, 0x43DC0000, 0x43E914F6, 0x43F6F110,
   0x4402D013, 0x440A9760, 0x4412D517, 0x441B9041, 0x4424D054, 0x442E9D37, 0x4438FF49, 0x4443FF6A,
   0x444FA700, 0x445C0000, 0x446914F6, 0x4476F110, 0x4482D013, 0x448A9760, 0x4492D517, 0x449B9041,
   0x44A4D054, 0x44AE9D37, 0x44B8FF49, 0x44C3FF6A, 0x44CFA700, 0x44DC0000, 0x44E914F6, 0x44F6F110]

/-- `NOTE_FREQ[96..127]` (41_oscillator.md R143). -/
def noteFreq96 : List Word :=
  [0x4502D013, 0x450A9760, 0x4512D517, 0x451B9041, 0x4524D054, 0x452E9D37, 0x4538FF49, 0x4543FF6A,
   0x454FA700, 0x455C0000, 0x456914F6, 0x4576F110, 0x4582D013, 0x458A9760, 0x4592D517, 0x459B9041,
   0x45A4D054, 0x45AE9D37, 0x45B8FF49, 0x45C3FF6A, 0x45CFA700, 0x45DC0000, 0x45E914F6, 0x45F6F110,
   0x4602D013, 0x460A9760, 0x4612D517, 0x461B9041, 0x4624D054, 0x462E9D37, 0x4638FF49, 0x4643FF6A]

/-- `NOTE_FREQ`, the note-frequency ROM (R143). -/
def noteFreqRom : List Word := noteFreq0 ++ noteFreq32 ++ noteFreq64 ++ noteFreq96

/-- `NOTE_FREQ[n]` (R143). -/
def noteFreq (n : BitVec 7) : Word := noteFreqRom.getD n.toNat 0

/-- `IncFor(n)` (41_oscillator.md R142): `div32(mul32(u2f(L), NOTE_FREQ[n]), FS)`. -/
def incFor (len : Nat) (fs : Word) (n : BitVec 7) : Word :=
  div32 (mul32 (u2f (BitVec.ofNat 32 len)) (noteFreq n)) fs

/-- The fixed-point scale `CoefFn` is computed at: 640 fraction bits (2^640). -/
def coefScale : Nat :=
  0x10000000000000000000000000000000000000000000000000000000000000000000000000000000000000000000000000000000000000000000000000000000000000000000000000000000000000000

/-- The whole part of pi at that scale. -/
def piScaled : Nat :=
  0x3243f6a8885a308d313198a2e03707344a4093822299f31d0082efa98ec4e6c89452821e638d01377be5466cf34e90c6cc0ac29b7c97c50dd3f84d5b5b54709179216d5d98979fb1bd1310ba698dfb5ac

/-- `t - t*x/k + t*x*x/(k*(k+1)) - ...`, `n` terms, each product and quotient cut to the scale. -/
def altSeries : Nat → Nat → Nat → Nat → Int
  | 0, _, _, _ => 0
  | n + 1, k, x, t => (t : Int) - altSeries n (k + 1) x (t * x / (k * coefScale))

/-- How far the computed `1 - exp(-x)` may be from the real value, at the scale (2^-590 of 1.0): the cut of each
of the 320 terms, carried through the series for `x < 18`, stays far below it. -/
def coefSlack : Nat := 2 ^ 50

/-- `2 * pi * fc / fs` at the scale, for finite fc and fs > 0. -/
def coefArg (fc fs : Word) : Nat := 2 * piScaled * magOf fc / magOf fs

/-- `1 - exp(-x)` at the scale, for `x < 18`. -/
def oneMinusExp (x : Nat) : Nat := (altSeries 320 2 x x).toNat

/-- `CoefFn(fc, fs)` (43_filter.md R180): the binary32 nearest to `1 - exp(-2 * pi * fc / fs)`. From `x = 18` on it is
1.0 (`exp(-18) < 2^-25`). Below, both ends of an enclosure of the real value, neither past 1.0 (the real value is less),
are rounded; where they agree that is the correctly rounded value, and where they do not a free choice takes one of
the two (log 10). -/
def coefFn (fc fs : Word) : Word :=
  if !(isFinite32 fc && isFinite32 fs && lt32 zero32 fc && lt32 zero32 fs) then Config.coefOutside fc fs
  else if 18 * coefScale ≤ coefArg fc fs then one32
  else
    let mid := min (oneMinusExp (coefArg fc fs)) coefScale
    let lo := pack32 false (roundUnits ((mid - coefSlack) * 2 ^ 149) coefScale)
    let hi := pack32 false (roundUnits (min (mid + coefSlack) coefScale * 2 ^ 149) coefScale)
    if lo = hi then lo else if Config.coefRoundsUp fc fs then hi else lo

/-- `ATTACK_INC` as a function of A (10_state.md R27). -/
def attackIncOf (a : Word) : Word := if a = 0 then zero32 else div32 one32 (u2f a)

/-- `DECAY_DEC` as a function of D and S (10_state.md R27). -/
def decayDecOf (d s : Word) : Word := if d = 0 then zero32 else div32 (sub32 one32 s) (u2f d)

/-- A sustain level as it is stored: -0.0 becomes +0.0 (46_event_intake.md R243). -/
def storedSustain (v : Word) : Word := if v = 0x80000000 then zero32 else v

end Sys2Proof.Machine
end

