-- ==== Sys2Proof/WellFormed.lean ====
section
/-! DEFINITION. Which instructions are well formed: those whose operands their encoding admits (30_encoding.md R102,
R110). Every well-formed instruction has an encoding, and decoding it gives the instruction back. -/

namespace Sys2Proof

/-- A note-on's velocity is legal (R102); an access of a reserved offset that reads carries no data (R110). Every
other operand is legal at every value: a control change's value is checked when it is applied (R106). -/
def Instr.wf : Instr → Bool
  | .noteOn _ vel _ => Machine.isUnit32 vel
  | .rsv068 w _ v => w || v == 0
  | .rsv07C w v => w || v == 0
  | .rsv0AC w v => w || v == 0
  | .rsv0B8 w _ v => w || v == 0
  | .rsv0C0 w _ v => w || v == 0
  | .rsv100 w v => w || v == 0
  | .rsv12C w v => w || v == 0
  | .rsv130 w _ v => w || v == 0
  | .rsv14C w v => w || v == 0
  | .rsv150 w _ v => w || v == 0
  | .rsv160 w _ v => w || v == 0
  | .rsv180 w _ v => w || v == 0
  | .noteOff _ _ => true
  | .ccAttackSamples _ _ => true
  | .ccDecaySamples _ _ => true
  | .ccSustainLevel _ _ => true
  | .ccReleaseSamples _ _ => true
  | .ccCutoffHz _ _ => true
  | .ccFilterEnable _ _ => true
  | .ccHeadroom _ _ => true
  | .ccSoftclipEnable _ _ => true
  | .ccPhaseReset _ _ => true
  | .ccRetrigMode _ _ => true
  | .rdId => true
  | .wrId _ => true
  | .rdVersion => true
  | .wrVersion _ => true
  | .rdConfig0 => true
  | .wrConfig0 _ => true
  | .rdConfig1 => true
  | .wrConfig1 _ => true
  | .rdStatus => true
  | .wrStatus _ => true
  | .rdActiveVoices => true
  | .wrActiveVoices _ => true
  | .rdFifoCount => true
  | .wrFifoCount _ => true
  | .rdOvfCount => true
  | .wrOvfCount _ => true
  | .rdPushResult => true
  | .wrPushResult _ => true
  | .rdBadEvtCount => true
  | .wrBadEvtCount _ => true
  | .rdCfgErrCount => true
  | .wrCfgErrCount _ => true
  | .rdCsrErrCount => true
  | .wrCsrErrCount _ => true
  | .rdLastErr => true
  | .wrLastErr _ => true
  | .rdStealCount => true
  | .wrStealCount _ => true
  | .rdBlockCount => true
  | .wrBlockCount _ => true
  | .rdVoiceStatus => true
  | .wrVoiceStatus _ => true
  | .rdVoiceLevel => true
  | .wrVoiceLevel _ => true
  | .rdVoicePhase => true
  | .wrVoicePhase _ => true
  | .rdVoiceInc => true
  | .wrVoiceInc _ => true
  | .rdVoiceY1 => true
  | .wrVoiceY1 _ => true
  | .rdVoiceVel => true
  | .wrVoiceVel _ => true
  | .rdVoiceRelcnt => true
  | .wrVoiceRelcnt _ => true
  | .rdVoiceReldec => true
  | .wrVoiceReldec _ => true
  | .rdVoiceSeqLo => true
  | .wrVoiceSeqLo _ => true
  | .rdVoiceSeqHi => true
  | .wrVoiceSeqHi _ => true
  | .rdTrigSeqLo => true
  | .wrTrigSeqLo _ => true
  | .rdTrigSeqHi => true
  | .wrTrigSeqHi _ => true
  | .rdParam1 => true
  | .wrParam1 _ => true
  | .rdParam2 => true
  | .wrParam2 _ => true
  | .rdParam3 => true
  | .wrParam3 _ => true
  | .rdParam4 => true
  | .wrParam4 _ => true
  | .rdParam5 => true
  | .wrParam5 _ => true
  | .rdParam6 => true
  | .wrParam6 _ => true
  | .rdParam7 => true
  | .wrParam7 _ => true
  | .rdParam8 => true
  | .wrParam8 _ => true
  | .rdParam9 => true
  | .wrParam9 _ => true
  | .rdParam10 => true
  | .wrParam10 _ => true
  | .rdCoef => true
  | .wrCoef _ => true
  | .rdAttackInc => true
  | .wrAttackInc _ => true
  | .rdDecayDec => true
  | .wrDecayDec _ => true
  | .rdCtrl => true
  | .wrCtrl _ => true
  | .rdEvtW0 => true
  | .wrEvtW0 _ => true
  | .rdEvtW1 => true
  | .wrEvtW1 _ => true
  | .rdEvtW2 => true
  | .wrEvtW2 _ => true
  | .rdEvtW3 => true
  | .wrEvtW3 _ => true
  | .rdRender => true
  | .wrRender _ => true
  | .rdOutBase => true
  | .wrOutBase _ => true
  | .rdFrames => true
  | .wrFrames _ => true
  | .rdChannels => true
  | .wrChannels _ => true
  | .rdIrqStatus => true
  | .wrIrqStatus _ => true
  | .rdIrqEnable => true
  | .wrIrqEnable _ => true
  | .rdCfgFs => true
  | .wrCfgFs _ => true
  | .rdWtAddr => true
  | .wrWtAddr _ => true
  | .rdWtData => true
  | .wrWtData _ => true
  | .rdVoiceSel => true
  | .wrVoiceSel _ => true
  | .drainStep => true
  | .renderStep => true

end Sys2Proof
end

