-- ==== Sys2Proof/Decode.lean ====
section
/-! DEFINITION. Decoding and encoding (30_encoding.md). Decoding is total: every event word, every CSR access and
every engine code is an instruction or is rejected by name; what the machine does with a rejected one is in
Machine/Events.lean (R235, R251) and Machine/Fetch.lean (48_host_interface.md R291). The encoder is written from
the same tables. -/

namespace Sys2Proof

/-- Why a packet is no instruction. -/
inductive Reject where
  /-- An event rejected when applied, with its code and auxiliary byte (R106; 46_event_intake.md R251). -/
  | badEvent (code : ErrCode) (aux : Byte)
  /-- A CSR access not four bytes wide or not aligned, with its word index (48_host_interface.md R291). -/
  | badAccess (widx : BitVec 7)
  /-- `ENG_STATE` = IDLE: the engine has no step (R112). -/
  | noStep
  /-- `ENG_STATE` code 3, which is never written (R112). -/
  | badEngState
deriving DecidableEq, Repr

/-- What a packet decodes to. -/
inductive Decoded where
  | instr (i : Instr)
  | reject (r : Reject)
deriving DecidableEq, Repr

/-- What `DecodeEvent` answers (R106). -/
inductive DecodedEvent where
  | noteOn (note : BitVec 7) (vel : Word)
  | noteOff (note : BitVec 7)
  | controlChange (id : Byte) (v : Word)
  | invalid (code : ErrCode) (aux : Byte)
deriving DecidableEq, Repr

/-- `KIND`, W0[31:24] (R100). -/
def evtKind (w0 : Word) : Byte := w0.extractLsb' 24 8

/-- `ARG`, W0[23:16] (R100). -/
def evtArg (w0 : Word) : Byte := w0.extractLsb' 16 8

/-- `RSV0`, W0[15:0] (R100). -/
def evtRsv0 (w0 : Word) : BitVec 16 := w0.extractLsb' 0 16

/-- `DecodeEvent(W0, W1)` (R106), its checks in order. -/
def decodeEvent (w0 w1 : Word) : DecodedEvent :=
  if evtKind w0 ≠ 0x01 ∧ evtKind w0 ≠ 0x02 ∧ evtKind w0 ≠ 0x03 then .invalid .evtBadKind (evtKind w0)
  else if evtRsv0 w0 ≠ 0 ∨ (evtKind w0 = 0x02 ∧ w1 ≠ 0) then .invalid .evtRsvBits (evtKind w0)
  else if evtKind w0 ≠ 0x03 ∧ (evtArg w0).getLsbD 7 = true then .invalid .evtBadNote (evtArg w0)
  else if evtKind w0 = 0x01 then
    (if Machine.isUnit32 w1 then .noteOn ((evtArg w0).extractLsb' 0 7) w1 else .invalid .evtBadVel (evtArg w0))
  else if evtKind w0 = 0x02 then .noteOff ((evtArg w0).extractLsb' 0 7)
  else .controlChange (evtArg w0) w1

/-- The control change of a control id (R107); the reserved ids have none. -/
def ccInstr (id : Byte) (v : Word) (ts : BitVec 64) : Option Instr :=
  if id = 0x01 then some (.ccAttackSamples v ts)
  else if id = 0x02 then some (.ccDecaySamples v ts)
  else if id = 0x03 then some (.ccSustainLevel v ts)
  else if id = 0x04 then some (.ccReleaseSamples v ts)
  else if id = 0x05 then some (.ccCutoffHz v ts)
  else if id = 0x06 then some (.ccFilterEnable v ts)
  else if id = 0x07 then some (.ccHeadroom v ts)
  else if id = 0x08 then some (.ccSoftclipEnable v ts)
  else if id = 0x09 then some (.ccPhaseReset v ts)
  else if id = 0x0A then some (.ccRetrigMode v ts)
  else none

/-- The instruction of a decoded event with timestamp `ts` (R105), or why it has none. -/
def eventInstr (ts : BitVec 64) : DecodedEvent → Decoded
  | .noteOn note vel => .instr (.noteOn note vel ts)
  | .noteOff note => .instr (.noteOff note ts)
  | .controlChange id v =>
    match ccInstr id v ts with
    | some i => .instr i
    | none => .reject (.badEvent .ccBadId id)
  | .invalid code aux => .reject (.badEvent code aux)

/-- The timestamp `{W3, W2}` (R105). -/
def evtTimestamp (e : EvtWord) : BitVec 64 := e.w3 ++ e.w2

/-- Reads of read-only registers by byte offset (10_state.md section 4). -/
def roReads : List (Nat × Instr) :=
  [(0x000, .rdId), (0x004, .rdVersion), (0x008, .rdConfig0),
   (0x00C, .rdConfig1), (0x014, .rdStatus), (0x018, .rdActiveVoices),
   (0x01C, .rdFifoCount), (0x020, .rdOvfCount), (0x024, .rdPushResult),
   (0x028, .rdBadEvtCount), (0x02C, .rdCfgErrCount), (0x030, .rdCsrErrCount),
   (0x034, .rdLastErr), (0x038, .rdStealCount), (0x03C, .rdBlockCount),
   (0x084, .rdVoiceStatus), (0x088, .rdVoiceLevel), (0x08C, .rdVoicePhase),
   (0x090, .rdVoiceInc), (0x094, .rdVoiceY1), (0x098, .rdVoiceVel),
   (0x09C, .rdVoiceRelcnt), (0x0A0, .rdVoiceReldec), (0x0A4, .rdVoiceSeqLo),
   (0x0A8, .rdVoiceSeqHi), (0x0B0, .rdTrigSeqLo), (0x0B4, .rdTrigSeqHi),
   (0x104, .rdParam1), (0x108, .rdParam2), (0x10C, .rdParam3),
   (0x110, .rdParam4), (0x114, .rdParam5), (0x118, .rdParam6),
   (0x11C, .rdParam7), (0x120, .rdParam8), (0x124, .rdParam9),
   (0x128, .rdParam10), (0x140, .rdCoef), (0x144, .rdAttackInc),
   (0x148, .rdDecayDec)]

/-- Reads of writable registers by byte offset. -/
def rwReads : List (Nat × Instr) :=
  [(0x010, .rdCtrl), (0x040, .rdEvtW0), (0x044, .rdEvtW1),
   (0x048, .rdEvtW2), (0x04C, .rdEvtW3), (0x050, .rdRender),
   (0x054, .rdOutBase), (0x058, .rdFrames), (0x05C, .rdChannels),
   (0x060, .rdIrqStatus), (0x064, .rdIrqEnable), (0x070, .rdCfgFs),
   (0x074, .rdWtAddr), (0x078, .rdWtData), (0x080, .rdVoiceSel)]

/-- Writes of read-only registers by byte offset. -/
def roWrites : List (Nat × (Word → Instr)) :=
  [(0x000, .wrId), (0x004, .wrVersion), (0x008, .wrConfig0),
   (0x00C, .wrConfig1), (0x014, .wrStatus), (0x018, .wrActiveVoices),
   (0x01C, .wrFifoCount), (0x020, .wrOvfCount), (0x024, .wrPushResult),
   (0x028, .wrBadEvtCount), (0x02C, .wrCfgErrCount), (0x030, .wrCsrErrCount),
   (0x034, .wrLastErr), (0x038, .wrStealCount), (0x03C, .wrBlockCount),
   (0x084, .wrVoiceStatus), (0x088, .wrVoiceLevel), (0x08C, .wrVoicePhase),
   (0x090, .wrVoiceInc), (0x094, .wrVoiceY1), (0x098, .wrVoiceVel),
   (0x09C, .wrVoiceRelcnt), (0x0A0, .wrVoiceReldec), (0x0A4, .wrVoiceSeqLo),
   (0x0A8, .wrVoiceSeqHi), (0x0B0, .wrTrigSeqLo), (0x0B4, .wrTrigSeqHi),
   (0x104, .wrParam1), (0x108, .wrParam2), (0x10C, .wrParam3),
   (0x110, .wrParam4), (0x114, .wrParam5), (0x118, .wrParam6),
   (0x11C, .wrParam7), (0x120, .wrParam8), (0x124, .wrParam9),
   (0x128, .wrParam10), (0x140, .wrCoef), (0x144, .wrAttackInc),
   (0x148, .wrDecayDec)]

/-- Writes of writable registers by byte offset. -/
def rwWrites : List (Nat × (Word → Instr)) :=
  [(0x010, .wrCtrl), (0x040, .wrEvtW0), (0x044, .wrEvtW1),
   (0x048, .wrEvtW2), (0x04C, .wrEvtW3), (0x050, .wrRender),
   (0x054, .wrOutBase), (0x058, .wrFrames), (0x05C, .wrChannels),
   (0x060, .wrIrqStatus), (0x064, .wrIrqEnable), (0x070, .wrCfgFs),
   (0x074, .wrWtAddr), (0x078, .wrWtData), (0x080, .wrVoiceSel)]

/-- The entry of a table at an offset. -/
def atOffset {α : Type} (off : Nat) : List (Nat × α) → Option α
  | [] => none
  | (o, x) :: rows => if o = off then some x else atOffset off rows

/-- An access of a reserved offset (10_state.md R73), by the ranges of spec/opcode_table.json; every aligned offset
that is in no register table lies in one of them. -/
def reservedInstr (w : Bool) (off : BitVec 9) (v : Word) : Instr :=
  if off.toNat / 8 = 13 then .rsv068 w (off.extractLsb' 2 1) v
  else if off.toNat / 4 = 31 then .rsv07C w v
  else if off.toNat / 4 = 43 then .rsv0AC w v
  else if off.toNat / 8 = 23 then .rsv0B8 w (off.extractLsb' 2 1) v
  else if off.toNat / 64 = 3 then .rsv0C0 w (off.extractLsb' 2 4) v
  else if off.toNat / 4 = 64 then .rsv100 w v
  else if off.toNat / 4 = 75 then .rsv12C w v
  else if off.toNat / 16 = 19 then .rsv130 w (off.extractLsb' 2 2) v
  else if off.toNat / 4 = 83 then .rsv14C w v
  else if off.toNat / 16 = 21 then .rsv150 w (off.extractLsb' 2 2) v
  else if off.toNat / 32 = 11 then .rsv160 w (off.extractLsb' 2 3) v
  else .rsv180 w (off.extractLsb' 2 5) v

/-- A CSR access (R110): refused as `CSR_BAD_ACCESS` unless four bytes wide and aligned (48_host_interface.md R290);
a read's data is not looked at. -/
def decodeAccess (a : CsrAccess) : Decoded :=
  if a.width ≠ 4 ∨ a.off.extractLsb' 0 2 ≠ 0 then .reject (.badAccess (a.off.extractLsb' 2 7))
  else if a.write then
    match atOffset a.off.toNat (rwWrites ++ roWrites) with
    | some f => .instr (f a.data)
    | none => .instr (reservedInstr true a.off a.data)
  else
    match atOffset a.off.toNat (rwReads ++ roReads) with
    | some i => .instr i
    | none => .instr (reservedInstr false a.off 0)

/-- The engine step `ENG_STATE` selects (R112). -/
def decodeEngine (code : BitVec 2) : Decoded :=
  if code = 1 then .instr .drainStep
  else if code = 2 then .instr .renderStep
  else if code = 0 then .reject .noStep
  else .reject .badEngState

/-- The whole decoder. -/
def decode : Packet → Decoded
  | .event e => eventInstr (evtTimestamp e) (decodeEvent e.w0 e.w1)
  | .access a => decodeAccess a
  | .engine code => decodeEngine code

/-- The event word of a kind, an argument byte, a value and a timestamp (R100, R114). -/
def encodeEvent (kind arg : Byte) (v : Word) (ts : BitVec 64) : Packet :=
  .event { w0 := kind ++ arg ++ (0 : BitVec 16), w1 := v, w2 := ts.extractLsb' 0 32, w3 := ts.extractLsb' 32 32 }

/-- An aligned 32-bit read (R110). -/
def encodeRead (off : BitVec 9) : Packet := .access { write := false, off := off, width := 4, data := 0 }

/-- An aligned 32-bit write (R110). -/
def encodeWrite (off : BitVec 9) (v : Word) : Packet := .access { write := true, off := off, width := 4, data := v }

/-- An aligned 32-bit access of a reserved offset. -/
def encodeReserved (w : Bool) (off : BitVec 9) (v : Word) : Packet :=
  .access { write := w, off := off, width := 4, data := v }

/-- The words of an instruction (R100 to R112). -/
def encode : Instr → Packet
  | .noteOn note vel ts => encodeEvent 0x01 ((0 : BitVec 1) ++ note) vel ts
  | .noteOff note ts => encodeEvent 0x02 ((0 : BitVec 1) ++ note) 0 ts
  | .ccAttackSamples v ts => encodeEvent 0x03 0x01 v ts
  | .ccDecaySamples v ts => encodeEvent 0x03 0x02 v ts
  | .ccSustainLevel v ts => encodeEvent 0x03 0x03 v ts
  | .ccReleaseSamples v ts => encodeEvent 0x03 0x04 v ts
  | .ccCutoffHz v ts => encodeEvent 0x03 0x05 v ts
  | .ccFilterEnable v ts => encodeEvent 0x03 0x06 v ts
  | .ccHeadroom v ts => encodeEvent 0x03 0x07 v ts
  | .ccSoftclipEnable v ts => encodeEvent 0x03 0x08 v ts
  | .ccPhaseReset v ts => encodeEvent 0x03 0x09 v ts
  | .ccRetrigMode v ts => encodeEvent 0x03 0x0A v ts
  | .rdId => encodeRead 0x000
  | .wrId v => encodeWrite 0x000 v
  | .rdVersion => encodeRead 0x004
  | .wrVersion v => encodeWrite 0x004 v
  | .rdConfig0 => encodeRead 0x008
  | .wrConfig0 v => encodeWrite 0x008 v
  | .rdConfig1 => encodeRead 0x00C
  | .wrConfig1 v => encodeWrite 0x00C v
  | .rdStatus => encodeRead 0x014
  | .wrStatus v => encodeWrite 0x014 v
  | .rdActiveVoices => encodeRead 0x018
  | .wrActiveVoices v => encodeWrite 0x018 v
  | .rdFifoCount => encodeRead 0x01C
  | .wrFifoCount v => encodeWrite 0x01C v
  | .rdOvfCount => encodeRead 0x020
  | .wrOvfCount v => encodeWrite 0x020 v
  | .rdPushResult => encodeRead 0x024
  | .wrPushResult v => encodeWrite 0x024 v
  | .rdBadEvtCount => encodeRead 0x028
  | .wrBadEvtCount v => encodeWrite 0x028 v
  | .rdCfgErrCount => encodeRead 0x02C
  | .wrCfgErrCount v => encodeWrite 0x02C v
  | .rdCsrErrCount => encodeRead 0x030
  | .wrCsrErrCount v => encodeWrite 0x030 v
  | .rdLastErr => encodeRead 0x034
  | .wrLastErr v => encodeWrite 0x034 v
  | .rdStealCount => encodeRead 0x038
  | .wrStealCount v => encodeWrite 0x038 v
  | .rdBlockCount => encodeRead 0x03C
  | .wrBlockCount v => encodeWrite 0x03C v
  | .rdVoiceStatus => encodeRead 0x084
  | .wrVoiceStatus v => encodeWrite 0x084 v
  | .rdVoiceLevel => encodeRead 0x088
  | .wrVoiceLevel v => encodeWrite 0x088 v
  | .rdVoicePhase => encodeRead 0x08C
  | .wrVoicePhase v => encodeWrite 0x08C v
  | .rdVoiceInc => encodeRead 0x090
  | .wrVoiceInc v => encodeWrite 0x090 v
  | .rdVoiceY1 => encodeRead 0x094
  | .wrVoiceY1 v => encodeWrite 0x094 v
  | .rdVoiceVel => encodeRead 0x098
  | .wrVoiceVel v => encodeWrite 0x098 v
  | .rdVoiceRelcnt => encodeRead 0x09C
  | .wrVoiceRelcnt v => encodeWrite 0x09C v
  | .rdVoiceReldec => encodeRead 0x0A0
  | .wrVoiceReldec v => encodeWrite 0x0A0 v
  | .rdVoiceSeqLo => encodeRead 0x0A4
  | .wrVoiceSeqLo v => encodeWrite 0x0A4 v
  | .rdVoiceSeqHi => encodeRead 0x0A8
  | .wrVoiceSeqHi v => encodeWrite 0x0A8 v
  | .rdTrigSeqLo => encodeRead 0x0B0
  | .wrTrigSeqLo v => encodeWrite 0x0B0 v
  | .rdTrigSeqHi => encodeRead 0x0B4
  | .wrTrigSeqHi v => encodeWrite 0x0B4 v
  | .rdParam1 => encodeRead 0x104
  | .wrParam1 v => encodeWrite 0x104 v
  | .rdParam2 => encodeRead 0x108
  | .wrParam2 v => encodeWrite 0x108 v
  | .rdParam3 => encodeRead 0x10C
  | .wrParam3 v => encodeWrite 0x10C v
  | .rdParam4 => encodeRead 0x110
  | .wrParam4 v => encodeWrite 0x110 v
  | .rdParam5 => encodeRead 0x114
  | .wrParam5 v => encodeWrite 0x114 v
  | .rdParam6 => encodeRead 0x118
  | .wrParam6 v => encodeWrite 0x118 v
  | .rdParam7 => encodeRead 0x11C
  | .wrParam7 v => encodeWrite 0x11C v
  | .rdParam8 => encodeRead 0x120
  | .wrParam8 v => encodeWrite 0x120 v
  | .rdParam9 => encodeRead 0x124
  | .wrParam9 v => encodeWrite 0x124 v
  | .rdParam10 => encodeRead 0x128
  | .wrParam10 v => encodeWrite 0x128 v
  | .rdCoef => encodeRead 0x140
  | .wrCoef v => encodeWrite 0x140 v
  | .rdAttackInc => encodeRead 0x144
  | .wrAttackInc v => encodeWrite 0x144 v
  | .rdDecayDec => encodeRead 0x148
  | .wrDecayDec v => encodeWrite 0x148 v
  | .rdCtrl => encodeRead 0x010
  | .wrCtrl v => encodeWrite 0x010 v
  | .rdEvtW0 => encodeRead 0x040
  | .wrEvtW0 v => encodeWrite 0x040 v
  | .rdEvtW1 => encodeRead 0x044
  | .wrEvtW1 v => encodeWrite 0x044 v
  | .rdEvtW2 => encodeRead 0x048
  | .wrEvtW2 v => encodeWrite 0x048 v
  | .rdEvtW3 => encodeRead 0x04C
  | .wrEvtW3 v => encodeWrite 0x04C v
  | .rdRender => encodeRead 0x050
  | .wrRender v => encodeWrite 0x050 v
  | .rdOutBase => encodeRead 0x054
  | .wrOutBase v => encodeWrite 0x054 v
  | .rdFrames => encodeRead 0x058
  | .wrFrames v => encodeWrite 0x058 v
  | .rdChannels => encodeRead 0x05C
  | .wrChannels v => encodeWrite 0x05C v
  | .rdIrqStatus => encodeRead 0x060
  | .wrIrqStatus v => encodeWrite 0x060 v
  | .rdIrqEnable => encodeRead 0x064
  | .wrIrqEnable v => encodeWrite 0x064 v
  | .rdCfgFs => encodeRead 0x070
  | .wrCfgFs v => encodeWrite 0x070 v
  | .rdWtAddr => encodeRead 0x074
  | .wrWtAddr v => encodeWrite 0x074 v
  | .rdWtData => encodeRead 0x078
  | .wrWtData v => encodeWrite 0x078 v
  | .rdVoiceSel => encodeRead 0x080
  | .wrVoiceSel v => encodeWrite 0x080 v
  | .rsv068 w k v => encodeReserved w ((0xD : BitVec 6) ++ k ++ (0 : BitVec 2)) v
  | .rsv07C w v => encodeReserved w 0x07C v
  | .rsv0AC w v => encodeReserved w 0x0AC v
  | .rsv0B8 w k v => encodeReserved w ((0x17 : BitVec 6) ++ k ++ (0 : BitVec 2)) v
  | .rsv0C0 w k v => encodeReserved w ((0x3 : BitVec 3) ++ k ++ (0 : BitVec 2)) v
  | .rsv100 w v => encodeReserved w 0x100 v
  | .rsv12C w v => encodeReserved w 0x12C v
  | .rsv130 w k v => encodeReserved w ((0x13 : BitVec 5) ++ k ++ (0 : BitVec 2)) v
  | .rsv14C w v => encodeReserved w 0x14C v
  | .rsv150 w k v => encodeReserved w ((0x15 : BitVec 5) ++ k ++ (0 : BitVec 2)) v
  | .rsv160 w k v => encodeReserved w ((0xB : BitVec 4) ++ k ++ (0 : BitVec 2)) v
  | .rsv180 w k v => encodeReserved w ((0x3 : BitVec 2) ++ k ++ (0 : BitVec 2)) v
  | .drainStep => .engine 1
  | .renderStep => .engine 2

/-- The packet of an instruction whose bits are `w`, numbered as spec/opcode_table.json numbers them (log 18). A row of
at most eight bits is an engine code. A 32-bit row whose bits 30 to 9 are 0 is a CSRACC descriptor (R110), and the
32 bits above it are the data word. Any other is an event word. -/
def packetOfTable (nbits w : Nat) : Packet :=
  if nbits ≤ 8 then .engine (BitVec.ofNat 2 w)
  else if w / 2 ^ 9 % 2 ^ 22 = 0 then
    .access { write := decide (w / 2 ^ 31 % 2 = 1), off := BitVec.ofNat 9 w, width := 4, data := BitVec.ofNat 32 (w / 2 ^ 32) }
  else
    .event { w0 := BitVec.ofNat 32 w, w1 := BitVec.ofNat 32 (w / 2 ^ 32), w2 := BitVec.ofNat 32 (w / 2 ^ 64),
             w3 := BitVec.ofNat 32 (w / 2 ^ 96) }

/-- The instruction the decoder reads from bits numbered as spec/opcode_table.json numbers them. -/
def decodeTableWord (nbits w : Nat) : Option Instr :=
  match decode (packetOfTable nbits w) with
  | .instr i => some i
  | .reject _ => none

end Sys2Proof
end

