-- ==== Sys2Proof/Machine/State.lean ====
section
/-! DEFINITION. The state of SYNTH_CORE as plain data (10_state.md rules R20 to R39), the host memory it writes
(20_memory.md R80, R84), the reasons a step can stop, and the state after power-on reset (70_reset_and_hazards.md
R360). The fields of the model's own are `port`, `rdata`, `draws` and `raced`. -/

namespace Sys2Proof.Machine

/-- The envelope stage (10_state.md R21), `V[i].STAGE`; codes 5 to 7 are never written and have no name (log 12). -/
inductive Stage where
  | idle
  | attack
  | decay
  | sustain
  | release
deriving DecidableEq, Repr

/-- The position of the block sequencer, `ENG_STATE` (10_state.md R32); code 3 is never written (30_encoding.md R112). -/
inductive EngState where
  | idle
  | drain
  | render
deriving DecidableEq, Repr

/-- One entry `V[i]` of the voice register file (10_state.md R20). -/
structure Voice where
  active : Bool
  note : BitVec 7
  vel : Word
  phase : Word
  inc : Word
  stage : Stage
  level : Word
  relCnt : Word
  relDec : Word
  y1 : Word
  seq : BitVec 64
deriving DecidableEq, Repr

/-- A voice after reset (R360). -/
def Voice.reset : Voice :=
  { active := false, note := 0, vel := zero32, phase := zero32, inc := zero32, stage := .idle, level := zero32,
    relCnt := 0, relDec := zero32, y1 := zero32, seq := 0 }

/-- The global parameter registers `P` (10_state.md R26) and the registers derived from them (R27). -/
structure ParamRegs where
  attackSamples : Word
  decaySamples : Word
  sustainLevel : Word
  releaseSamples : Word
  cutoffHz : Word
  filterEnable : Bool
  headroom : Word
  softclipEnable : Bool
  phaseReset : Bool
  retrigMode : Bool
  attackInc : Word
  decayDec : Word
  coef : Word
deriving DecidableEq, Repr

/-- The parameter and derived registers after reset (R26, R27, R360); `HEADROOM` is `u2f(N_VOICES)`. -/
def ParamRegs.reset (nVoices : Nat) : ParamRegs :=
  { attackSamples := 0, decaySamples := 0, sustainLevel := one32, releaseSamples := 0, cutoffHz := 0x447A0000,
    filterEnable := false, headroom := u2f (BitVec.ofNat 32 nVoices), softclipEnable := false, phaseReset := false,
    retrigMode := false, attackInc := zero32, decayDec := zero32, coef := 0x3DFB471D }

/-- One wavetable entry `WT[k]` with its written flag `WTW[k]` (10_state.md R34). -/
structure WtEntry where
  value : Word
  written : Bool
deriving DecidableEq, Repr

/-- An entry after power-on: not written. DESIGN CHOICE: its value, which nothing can observe, is 0 (log 4). -/
def WtEntry.reset : WtEntry := { value := zero32, written := false }

/-- Host memory: the bytes something has written, by rising address. -/
abbrev Memory := List Host.Cell

/-- The state of the machine. -/
structure State where
  /-- The instance's parameters; nothing writes them (10_state.md R75, log 1). -/
  par : Params
  /-- The voice register file `V` (R20). -/
  voices : List Voice
  /-- `P` and the derived registers (R26, R27). -/
  p : ParamRegs
  /-- `FS`, the sample rate as binary32 (R31). -/
  fs : Word
  /-- `TRIG_SEQ` (R30). -/
  trigSeq : BitVec 64
  /-- `RUN` (R32). -/
  run : Bool
  /-- `ENG_STATE` (R32). -/
  engState : EngState
  /-- `BLK_BASE`, `BLK_FRAMES`, `BLK_CHANNELS`, the operands of the outstanding render command (R32). -/
  blkBase : Word
  blkFrames : Word
  blkChannels : Word
  /-- The event FIFO, oldest first (R33). -/
  fifo : List EvtWord
  /-- The wavetable (R34). -/
  wt : List WtEntry
  /-- `WT_ADDR` (R65). -/
  wtAddr : BitVec 16
  /-- `EVT_W1`, `EVT_W2`, `EVT_W3`, the event staging registers (R35). -/
  evtW1 : Word
  evtW2 : Word
  evtW3 : Word
  /-- `OUT_BASE`, `FRAMES`, `CHANNELS`, the render command registers (R36). -/
  outBase : Word
  frames : Word
  channels : Word
  /-- The counters (R37). -/
  ovfCount : Word
  badEvtCount : Word
  cfgErrCount : Word
  csrErrCount : Word
  stealCount : Word
  blockCount : Word
  /-- `ACTIVE_SNAP` (R37). -/
  activeSnap : BitVec 16
  /-- `LAST_ERR`: AUX in bits 15 to 8, CODE in bits 7 to 0 (R38). -/
  lastErr : BitVec 16
  /-- `PUSH_RESULT` (R38). -/
  pushResult : Bool
  /-- `IRQ_PEND` and `IRQ_EN`: bit 0 DONE, 1 OVF, 2 CFG_ERR, 3 BAD_EVT, 4 CSR_ERR (R39). -/
  irqPend : BitVec 5
  irqEn : BitVec 5
  /-- `VOICE_SEL` (R67). -/
  voiceSel : BitVec 16
  /-- Host memory (20_memory.md R80, R84). -/
  mem : Memory
  /-- The model's own: the turns still to come, the next one first (log 2). -/
  port : List Turn
  /-- The model's own: what the most recent host read returned (log 5). -/
  rdata : Word
  /-- The model's own: how many free values have been taken (log 3). -/
  draws : Nat
  /-- The model's own: the words of the current output range, by byte address, that the host has written while
  BUSY (log 7). -/
  raced : List Nat
deriving DecidableEq, Repr

/-- Why the machine stops. -/
inductive Fault where
  /-- `UNINIT_TABLE_READ`: raised by `RenderStep` when the interpolator reads a wavetable entry that was never
  written (10_state.md R34, 40_wavetable.md R130). Safe: the spec names this fault. -/
  | uninitTableRead
  /-- Raised by an engine step that `ENG_STATE` does not enable (47_render_engine.md R270). The engine never takes
  one; safe: no run meets it, and a direct call of the meaning stops. -/
  | stepNotEnabled
  /-- Raised when `ENG_STATE` decodes to no step and not to IDLE (30_encoding.md R112): code 3, which the state
  cannot hold. Safe: unreachable. -/
  | badEngState
  /-- Raised by a host access to a word of host memory the platform does not admit, outside the output range of a
  block in flight (20_memory.md R88, R92). Safe: the spec leaves that access to the platform, and the model stops. -/
  | hostMemoryAbsent
deriving DecidableEq, Repr

/-- Why the model gives an instruction no meaning. -/
inductive Refusal where
  /-- Raised by an arm of `exec` whose instruction has no meaning yet. Safe: the model stops. No arm of this
  model raises it. -/
  | notModelled (mnemonic : String)
deriving DecidableEq, Repr

/-- The state of an instance right after power-on reset (R360). -/
def State.resetOf (par : Params) : State :=
  { par := par
    voices := List.replicate par.nVoices Voice.reset
    p := ParamRegs.reset par.nVoices
    fs := 0x473B8000
    trigSeq := 0
    run := false
    engState := .idle
    blkBase := 0
    blkFrames := 0
    blkChannels := 1
    fifo := []
    wt := List.replicate par.tableLen WtEntry.reset
    wtAddr := 0
    evtW1 := 0
    evtW2 := 0
    evtW3 := 0
    outBase := 0
    frames := 0
    channels := 1
    ovfCount := 0
    badEvtCount := 0
    cfgErrCount := 0
    csrErrCount := 0
    stealCount := 0
    blockCount := 0
    activeSnap := 0
    lastErr := 0
    pushResult := true
    irqPend := 0
    irqEn := 0
    voiceSel := 0
    mem := []
    port := []
    rdata := 0
    draws := 0
    raced := [] }

/-- The state right after power-on reset of the instance the model is tested with (log 1). -/
def State.reset : State := State.resetOf Params.vectors

end Sys2Proof.Machine
end

