-- ==== Sys2Proof/Machine/Flags.lean ====
section
/-! DEFINITION. The status flags (10_state.md R74) and the registers composed of them: BUSY, the FIFO flags, the
interrupt line (60_exceptions.md R335), STATUS (R45) and the fields of the other composed registers. -/

namespace Sys2Proof.Machine

/-- The 2-bit code of `ENG_STATE` (30_encoding.md R112). -/
def engCode : EngState → BitVec 2
  | .idle => 0
  | .drain => 1
  | .render => 2

/-- The 3-bit code of `STAGE` (10_state.md R21). -/
def stageCode : Stage → BitVec 3
  | .idle => 0
  | .attack => 1
  | .decay => 2
  | .sustain => 3
  | .release => 4

/-- `BUSY`: a render command is outstanding (10_state.md R32). -/
def busy (s : State) : Bool := decide (s.engState ≠ .idle)

/-- `FIFO_EMPTY` (R45). -/
def fifoEmpty (s : State) : Bool := decide (s.fifo.length = 0)

/-- `FIFO_FULL` (R45). -/
def fifoFull (s : State) : Bool := decide (s.fifo.length = s.par.fifoDepth)

/-- The level of the `irq` line (60_exceptions.md R335): some pending bit is enabled. -/
def irqLine (s : State) : Bool := decide (s.irqPend &&& s.irqEn ≠ 0)

/-- A flag as bit 0 of a word. -/
def flagWord (b : Bool) : Word := if b then 1 else 0

/-- `STATUS` (R45): RUN, BUSY, FIFO_EMPTY, FIFO_FULL, IRQ in bits 0 to 4. -/
def statusWord (s : State) : Word :=
  flagWord s.run ||| flagWord (busy s) <<< 1 ||| flagWord (fifoEmpty s) <<< 2 ||| flagWord (fifoFull s) <<< 3
    ||| flagWord (irqLine s) <<< 4

/-- `CONFIG0` (R42): `N_VOICES` in bits 15 to 0, `WT_LOG2_LEN` in bits 20 to 16. -/
def config0Word (s : State) : Word :=
  (0 : BitVec 11) ++ BitVec.ofNat 5 s.par.wtLog2Len ++ BitVec.ofNat 16 s.par.nVoices

/-- `CONFIG1` (R43): `FIFO_DEPTH` in bits 15 to 0. -/
def config1Word (s : State) : Word := (BitVec.ofNat 16 s.par.fifoDepth).setWidth 32

/-- `VOICE_STATUS` of a voice (R68): ACTIVE bit 0, STAGE bits 3 to 1, NOTE bits 14 to 8. -/
def voiceStatusWord (v : Voice) : Word :=
  (0 : BitVec 17) ++ v.note ++ (0 : BitVec 4) ++ stageCode v.stage ++ BitVec.ofBool v.active

/-- The interrupt bits (10_state.md R62). -/
def irqDone : BitVec 5 := 0x01
def irqOvf : BitVec 5 := 0x02
def irqCfgErr : BitVec 5 := 0x04
def irqBadEvt : BitVec 5 := 0x08
def irqCsrErr : BitVec 5 := 0x10

/-- The number of voices with `ACTIVE` = 1. -/
def activeCount (vs : List Voice) : Nat := vs.countP (·.active)

end Sys2Proof.Machine
end

