-- ==== Sys2Proof/Machine/Ops.lean ====
section
/-! DEFINITION. The named operations every meaning is written with: recording an error (60_exceptions.md R331, what
SYNTH_CORE has in place of taking an exception) and acknowledging it (R336), refused accesses (48_host_interface.md
R290), reads and free values (R297), the guards (R294, R296), the push (46_event_intake.md R230), host memory
(20_memory.md R84, R88, R92) and the soft reset (70_reset_and_hazards.md R361). -/

namespace Sys2Proof.Machine

/-! ### Errors -/

/-- The category of an error code, which selects its counter and its interrupt bit (60_exceptions.md R330). -/
inductive ErrCategory where
  | badEvt
  | cfgErr
  | csrErr
deriving DecidableEq, Repr

/-- The number of an error code, `LAST_ERR.CODE` after the error (R330). -/
def errNumber : ErrCode → Byte
  | .evtBadKind => 0x01
  | .evtRsvBits => 0x02
  | .evtBadNote => 0x03
  | .evtBadVel => 0x04
  | .ccBadId => 0x10
  | .ccBadValue => 0x11
  | .fsBadValue => 0x12
  | .wtBadValue => 0x13
  | .csrBadAccess => 0x20
  | .csrWriteRo => 0x21
  | .csrReserved => 0x22
  | .csrBusy => 0x23
  | .csrRunning => 0x24
  | .renderBadParams => 0x25
  | .renderNotRunning => 0x26

/-- The category of an error code (R330). -/
def errCategory : ErrCode → ErrCategory
  | .evtBadKind => .badEvt
  | .evtRsvBits => .badEvt
  | .evtBadNote => .badEvt
  | .evtBadVel => .badEvt
  | .ccBadId => .cfgErr
  | .ccBadValue => .cfgErr
  | .fsBadValue => .cfgErr
  | .wtBadValue => .cfgErr
  | .csrBadAccess => .csrErr
  | .csrWriteRo => .csrErr
  | .csrReserved => .csrErr
  | .csrBusy => .csrErr
  | .csrRunning => .csrErr
  | .renderBadParams => .csrErr
  | .renderNotRunning => .csrErr

/-- `raise Error(code, aux)` (60_exceptions.md R331): `LAST_ERR`, the category's counter and its interrupt bit. It
transfers no control and changes neither `RUN` nor `ENG_STATE` (R332). -/
def raiseError (code : ErrCode) (aux : Byte) (s : State) : State :=
  match errCategory code with
  | .badEvt =>
    { s with lastErr := aux ++ errNumber code, badEvtCount := s.badEvtCount + 1, irqPend := s.irqPend ||| irqBadEvt }
  | .cfgErr =>
    { s with lastErr := aux ++ errNumber code, cfgErrCount := s.cfgErrCount + 1, irqPend := s.irqPend ||| irqCfgErr }
  | .csrErr =>
    { s with lastErr := aux ++ errNumber code, csrErrCount := s.csrErrCount + 1, irqPend := s.irqPend ||| irqCsrErr }

/-- Acknowledging pending interrupts, the counterpart of `raiseError` (60_exceptions.md R336; 48_host_interface.md
R302): a 1 bit of the mask clears its pending bit. -/
def ackIrq (mask : BitVec 5) (s : State) : State := { s with irqPend := s.irqPend &&& ~~~mask }

/-! ### Reads, refusals and guards -/

/-- A host read returns `v`. -/
def returnWord (v : Word) (s : State) : State := { s with rdata := v }

/-- A host read returns an unspecified value: the next free word (log 3). -/
def returnFree (s : State) : State := { s with rdata := Config.freeWord s.draws, draws := s.draws + 1 }

/-- A read of a register the engine's steps may change: unspecified while BUSY (48_host_interface.md R297). -/
def returnUnlessBusy (v : Word) (s : State) : State := if busy s then returnFree s else returnWord v s

/-- A refused read returns 0 and records the error (48_host_interface.md R290). -/
def refuseRead (code : ErrCode) (widx : Byte) (s : State) : State := raiseError code widx (returnWord 0 s)

/-- A refused write changes nothing and records the error (48_host_interface.md R290). -/
def refuseWrite (code : ErrCode) (widx : Byte) (s : State) : State := raiseError code widx s

/-- A refused access, a write if `w`, else a read. -/
def refuseAccess (w : Bool) (code : ErrCode) (widx : Byte) (s : State) : State :=
  if w then refuseWrite code widx s else refuseRead code widx s

/-- A write of a `BUSY_GUARDED` register: refused while BUSY (48_host_interface.md R294). -/
def unlessBusy (widx : Byte) (f : State → State) (s : State) : State :=
  if busy s then refuseWrite .csrBusy widx s else f s

/-- A write of a `STOPPED_ONLY` register: refused while BUSY, then while running (48_host_interface.md R290, R296). -/
def whenStopped (widx : Byte) (f : State → State) (s : State) : State :=
  if busy s then refuseWrite .csrBusy widx s
  else if s.run then refuseWrite .csrRunning widx s
  else f s

/-! ### The event FIFO -/

/-- `Push(E)` (46_event_intake.md R230, R231): a full FIFO drops its oldest event. -/
def pushEvent (e : EvtWord) (s : State) : State :=
  if fifoFull s then
    { s with fifo := s.fifo.tail ++ [e], ovfCount := s.ovfCount + 1, pushResult := false,
             irqPend := s.irqPend ||| irqOvf }
  else { s with fifo := s.fifo ++ [e], pushResult := true }

/-! ### Host memory -/

/-- The canonical form of host memory: addresses strictly rising. An address not listed holds no value: nothing
has written it (log 6). -/
abbrev Memory.wf (m : Memory) : Prop := (m.map (·.1)).Pairwise (· < ·)

/-- The byte at an address, if something has written it. -/
def readByte (a : Nat) : Memory → Option Byte
  | [] => none
  | (k, b) :: m => if k = a then some b else readByte a m

/-- One byte written. -/
def writeByte (a : Nat) (b : Byte) : Memory → Memory
  | [] => [(a, b)]
  | (k, c) :: m =>
    if a < k then (a, b) :: (k, c) :: m
    else if a = k then (a, b) :: m
    else (k, c) :: writeByte a b m

/-- `MemWrite(a, 4, v)`, little-endian (20_memory.md R84). -/
def writeWord (a : Nat) (v : Word) (m : Memory) : Memory :=
  writeByte (a + 3) (v.extractLsb' 24 8)
    (writeByte (a + 2) (v.extractLsb' 16 8)
      (writeByte (a + 1) (v.extractLsb' 8 8) (writeByte a (v.extractLsb' 0 8) m)))

/-- The little-endian word at an address, if something has written each of its bytes. -/
def readWord (a : Nat) (m : Memory) : Option Word :=
  match readByte (a + 3) m, readByte (a + 2) m, readByte (a + 1) m, readByte a m with
  | some b3, some b2, some b1, some b0 => some (b3 ++ b2 ++ b1 ++ b0)
  | _, _, _, _ => none

/-- The platform admits the byte range `[lo, hi)` (20_memory.md R88): it is empty, or inside one admitted run. -/
def admits (regions : List Region) (lo hi : Nat) : Bool :=
  decide (hi ≤ lo) || regions.any fun r => decide (r.base ≤ lo) && decide (hi ≤ r.base + r.size)

/-- The end of the current block's output range, `B + 4*F*C`, exact (20_memory.md R88). -/
def outputEnd (s : State) : Nat := s.blkBase.toNat + 4 * s.blkFrames.toNat * s.blkChannels.toNat

/-- The address of sample (f, c), `B + 4*(f*C + c)`, exact (20_memory.md R84). -/
def sampleAddr (s : State) (f c : Nat) : Nat := s.blkBase.toNat + 4 * (f * s.blkChannels.toNat + c)

/-- The word at `a` meets the output range of a block in flight (20_memory.md R92). -/
def inFlight (s : State) (a : Nat) : Bool :=
  busy s && decide (s.blkBase.toNat < a + 4) && decide (a < outputEnd s)

/-- The engine writes one output word (47_render_engine.md R276). Where the host has written the word while BUSY, a
free choice says whose value it ends with (20_memory.md R92, log 7). -/
def writeSample (a : Nat) (v : Word) (s : State) : State :=
  if a ∈ s.raced then
    (if Config.freeBit s.draws then { s with draws := s.draws + 1 }
     else { s with draws := s.draws + 1, mem := writeWord a v s.mem })
  else { s with mem := writeWord a v s.mem }

/-- A host reads word `w` of host memory: unspecified in the output range while BUSY, whatever the platform admits
(20_memory.md R92), and where nothing has written all of it (log 6). Elsewhere a word the platform does not admit is a
fault (log 8). -/
def hostRead (w : BitVec 30) (s : State) : Except Fault State :=
  if inFlight s (4 * w.toNat) then .ok (returnFree s)
  else if !admits s.par.memory (4 * w.toNat) (4 * w.toNat + 4) then .error .hostMemoryAbsent
  else
    match readWord (4 * w.toNat) s.mem with
    | some v => .ok (returnWord v s)
    | none => .ok (returnFree s)

/-- A host writes word `w` of host memory; in the output range while BUSY the write races the engine's, whatever the
platform admits (R92). Elsewhere a word the platform does not admit is a fault (log 8). -/
def hostWrite (w : BitVec 30) (v : Word) (s : State) : Except Fault State :=
  if inFlight s (4 * w.toNat) then
    .ok { s with mem := writeWord (4 * w.toNat) v s.mem, raced := (4 * w.toNat) :: s.raced }
  else if !admits s.par.memory (4 * w.toNat) (4 * w.toNat + 4) then .error .hostMemoryAbsent
  else .ok { s with mem := writeWord (4 * w.toNat) v s.mem }

/-! ### The CSR window in the host's address map -/

/-- The host address of CSR offset `off` (20_memory.md R81). -/
def csrHostAddr (par : Params) (off : BitVec 9) : Nat := par.csrBase.toNat + off.toNat

/-- A host bus access to address `addr` as a CSR access, if the address is in the window (20_memory.md R81). -/
def csrOfBus (par : Params) (write : Bool) (addr : Nat) (width : Nat) (data : Word) : Option CsrAccess :=
  if par.csrBase.toNat ≤ addr ∧ addr < par.csrBase.toNat + 512 then
    some { write := write, off := BitVec.ofNat 9 (addr - par.csrBase.toNat), width := width, data := data }
  else none

/-- Byte lane k of a register on a byte-addressed bus: bits 8k+7 to 8k (20_memory.md R82). -/
def byteLane (v : Word) (k : Fin 4) : Byte := v.extractLsb' (8 * k.val) 8

/-! ### Soft reset -/

/-- `SoftReset()` (70_reset_and_hazards.md R361): power-on values everywhere but in the table. What lies outside
SYNTH_CORE (host memory, the turns to come, what the host last read) is untouched (log 24). -/
def softReset (s : State) : State :=
  { State.resetOf s.par with
    wt := s.wt, mem := s.mem, port := s.port, rdata := s.rdata, draws := s.draws, raced := s.raced }

end Sys2Proof.Machine
end

