-- ==== Sys2Proof/Machine/Voice.lean ====
section
/-! DEFINITION. The datapath of one voice: the wavetable interpolator (40_wavetable.md), the phase accumulator
(41_oscillator.md), the envelope generator (42_envelope.md), the filter (43_filter.md) and their composition
(44_voice.md). None has an encoding; the engine's steps invoke them. -/

namespace Sys2Proof.Machine

/-! ### Wavetable and oscillator -/

/-- `WT[k]`, if `WTW[k]` = 1 (40_wavetable.md R130). -/
def tableAt (wt : List WtEntry) (k : Nat) : Option Word :=
  match wt[k]? with
  | some e => if e.written then some e.value else none
  | none => none

/-- `WtSample(p)` (R130): linear interpolation at the phase, wrapping at the table's end; an entry that was never
written is the fault `UNINIT_TABLE_READ`. The three operations of R130's pseudocode, each rounded once, can pass the
bound R132 derives from them. DESIGN CHOICE: the model follows R130 (log 26). -/
def wtSample (len : Nat) (wt : List WtEntry) (phase : Word) : Except Fault Word :=
  let q := wrapL len phase
  let k0 := floor32 q % len
  match tableAt wt k0, tableAt wt ((k0 + 1) % len) with
  | some t0, some t1 => .ok (add32 t0 (mul32 (frac32 q) (sub32 t1 t0)))
  | _, _ => .error .uninitTableRead

/-- The phase after one tick, `wrapL(add32(PHASE, INC))` (41_oscillator.md R141). -/
def nextPhase (len : Nat) (v : Voice) : Word := wrapL len (add32 v.phase v.inc)

/-- `OscTick(i)` (R141): the sample at the old phase, then the phase advances. -/
def oscTick (len : Nat) (wt : List WtEntry) (v : Voice) : Except Fault (Word × Voice) :=
  match wtSample len wt v.phase with
  | .ok o => .ok (o, { v with phase := nextPhase len v })
  | .error f => .error f

/-! ### Envelope -/

/-- `IdleTick(i)` (42_envelope.md R161). -/
def idleTick (v : Voice) : Voice := { v with level := zero32 }

/-- `AttackTick(i)` (R162). -/
def attackTick (p : ParamRegs) (v : Voice) : Voice :=
  if p.attackSamples = 0 then { v with level := one32, stage := .decay }
  else if le32 one32 (add32 v.level p.attackInc) then { v with level := one32, stage := .decay }
  else { v with level := add32 v.level p.attackInc }

/-- `DecayTick(i)` (R163). -/
def decayTick (p : ParamRegs) (v : Voice) : Voice :=
  if p.decaySamples = 0 then { v with level := p.sustainLevel, stage := .sustain }
  else if le32 (sub32 v.level p.decayDec) p.sustainLevel then { v with level := p.sustainLevel, stage := .sustain }
  else { v with level := sub32 v.level p.decayDec }

/-- `SustainTick(i)` (R164). -/
def sustainTick (p : ParamRegs) (v : Voice) : Voice := { v with level := p.sustainLevel }

/-- `ReleaseTick(i)` (R165): ends on the tick that exhausts the counter or brings the level to zero. -/
def releaseTick (v : Voice) : Voice :=
  if v.relCnt ≤ 1 ∨ le32 (sub32 v.level v.relDec) zero32 = true then
    { v with level := zero32, stage := .idle, relCnt := 0 }
  else { v with level := sub32 v.level v.relDec, relCnt := v.relCnt - 1 }

/-- `EnvTick(i)` (R160): exactly one stage rule; the level returned is `LEVEL` after the update. -/
def envTick (p : ParamRegs) (v : Voice) : Voice :=
  match v.stage with
  | .idle => idleTick v
  | .attack => attackTick p v
  | .decay => decayTick p v
  | .sustain => sustainTick p v
  | .release => releaseTick v

/-- `Release(i)` (R166), with R the parameter `RELEASE_SAMPLES`: no effect in Idle or Release. -/
def releaseVoice (r : Word) (v : Voice) : Voice :=
  match v.stage with
  | .idle => v
  | .release => v
  | .attack => { v with stage := .release, relCnt := r, relDec := if r = 0 then zero32 else div32 v.level (u2f r) }
  | .decay => { v with stage := .release, relCnt := r, relDec := if r = 0 then zero32 else div32 v.level (u2f r) }
  | .sustain => { v with stage := .release, relCnt := r, relDec := if r = 0 then zero32 else div32 v.level (u2f r) }

/-- `Trigger(i)` (R167): into Attack from the current level. -/
def triggerVoice (v : Voice) : Voice := { v with stage := .attack, relCnt := 0, relDec := zero32 }

/-! ### Filter -/

/-- The low-pass step (43_filter.md R181): `add32(Y1, mul32(COEF, sub32(x, Y1)))`. Its result can lie one rounding outside
the interval from `Y1` to x, where R185 puts it (log 27). With `COEF = +0.0` it is +0.0 for a `Y1` of -0.0 and an x not
negative in sign, where R181's corner case keeps `Y1` for ever (log 29). DESIGN CHOICE: the model follows R181's pseudocode. -/
def lowPass (coef y1 x : Word) : Word := add32 y1 (mul32 coef (sub32 x y1))

/-- `FiltStep(i, x)` (R181): with the filter disabled the history tracks the input. -/
def filtStep (p : ParamRegs) (x : Word) (v : Voice) : Word × Voice :=
  if p.filterEnable then (lowPass p.coef v.y1 x, { v with y1 := lowPass p.coef v.y1 x })
  else (x, { v with y1 := x })

/-! ### Voice -/

/-- `VoiceSample(i)` (44_voice.md R190): envelope, oscillator, the two products left to right, filter. For `VEL = -0.0`
the products of R190 give a zero of the sign opposite to the table value's, where R190's corner case says the table
value's. DESIGN CHOICE: the model follows the products (log 28). What a voice adds in the block in which its
release ends is what R190 and R181 give, where R280 calls that block silent. DESIGN CHOICE (log 31). -/
def voiceSample (len : Nat) (wt : List WtEntry) (p : ParamRegs) (v : Voice) : Except Fault (Word × Voice) :=
  match oscTick len wt (envTick p v) with
  | .ok (o, v') => .ok (filtStep p (mul32 (mul32 v'.level v'.vel) o) v')
  | .error f => .error f

/-- `IsFinished(i)` (44_voice.md R191). -/
def isFinished (v : Voice) : Bool := v.active && decide (v.stage = .idle)

end Sys2Proof.Machine
end

