-- ==== Sys2Proof/Machine/VoiceManager.lean ====
section
/-! DEFINITION. The fixed voice pool (45_voice_manager.md): assignment, selection, stealing, note-off, reclaim. Its
operations are invoked only from `DrainStep`. -/

namespace Sys2Proof.Machine

/-- One voice of the file changed. -/
def modifyVoice (i : Nat) (f : Voice → Voice) (s : State) : State := { s with voices := s.voices.modify i f }

/-- `VoicesFor(n)`: the indices of the active voices of note n (10_state.md R23, 45_voice_manager.md R211). -/
def voicesFor (n : BitVec 7) (vs : List Voice) : List Nat :=
  (List.range vs.length).filter fun i => vs[i]?.any fun v => v.active && v.note == n

/-- The voice of an assignment (R201), with seq the new trigger stamp. -/
def assignVoice (len : Nat) (fs : Word) (p : ParamRegs) (n : BitVec 7) (vel : Word) (seq : BitVec 64) (v : Voice) :
    Voice :=
  triggerVoice
    { v with active := true, note := n, vel := vel, inc := incFor len fs n,
             phase := if p.phaseReset then zero32 else v.phase, seq := seq }

/-- `Assign(i, n, vel, seq)` (R201). -/
def assign (i : Nat) (n : BitVec 7) (vel : Word) (seq : BitVec 64) (s : State) : State :=
  modifyVoice i (assignVoice s.par.tableLen s.fs s.p n vel seq) s

/-- `RetrigSelect(n)` (R202): the lowest active voice of note n. -/
def retrigSelect (n : BitVec 7) (vs : List Voice) : Option Nat := vs.findIdx? fun v => v.active && v.note == n

/-- The voice `FreeSelect()` returns (R203): the lowest free one. -/
def freeIndex (vs : List Voice) : Option Nat := vs.findIdx? fun v => !v.active

/-- The least of the candidate voices, the lowest index among equals; `i` is the index of the list's first voice. -/
def pickLeast (less : Voice → Voice → Bool) (cand : Voice → Bool) :
    List Voice → Nat → Option (Nat × Voice) → Option (Nat × Voice)
  | [], _, best => best
  | v :: vs, i, best =>
    pickLeast less cand vs (i + 1)
      (if cand v && (match best with | none => true | some b => less v b.2) then some (i, v) else best)

/-- A releasing or finished voice (R204); every voice is active when this is asked. -/
def isReleasing (v : Voice) : Bool := decide (v.stage = .release) || decide (v.stage = .idle)

/-- The steal victim (R204): the releasing voice of least level, else the oldest-triggered voice. -/
def stealVictim (vs : List Voice) : Nat :=
  match pickLeast (fun a b => lt32 a.level b.level) isReleasing vs 0 none with
  | some b => b.1
  | none =>
    match pickLeast (fun a b => decide (a.seq < b.seq)) (fun _ => true) vs 0 none with
    | some b => b.1
    | none => 0

/-- `Steal()` (R205) of victim i, before the reassignment. -/
def steal (i : Nat) (s : State) : State :=
  { modifyVoice i (releaseVoice s.p.releaseSamples) s with stealCount := s.stealCount + 1 }

/-- The choice of `VmNoteOn` (R200): retrigger if the policy says so, else a free voice with its history cleared,
else a steal. Answers the voice's index and the state after the choice. -/
def chooseVoice (n : BitVec 7) (s : State) : Nat × State :=
  match (if s.p.retrigMode then retrigSelect n s.voices else none) with
  | some i => (i, s)
  | none =>
    match freeIndex s.voices with
    | some i => (i, modifyVoice i (fun v => { v with y1 := zero32 }) s)
    | none => (stealVictim s.voices, steal (stealVictim s.voices) s)

/-- `VmNoteOn(n, vel)` (R200). -/
def vmNoteOn (n : BitVec 7) (vel : Word) (s : State) : State :=
  let s1 := { s with trigSeq := s.trigSeq + 1 }
  let c := chooseVoice n s1
  assign c.1 n vel s1.trigSeq c.2

/-- `VmNoteOff(n)` (R207): every sounding voice of the note enters Release. -/
def vmNoteOff (n : BitVec 7) (s : State) : State :=
  { s with voices := s.voices.map fun v => if v.active && v.note == n then releaseVoice s.p.releaseSamples v else v }

/-- A finished voice marked free (R208). -/
def reclaimVoice (v : Voice) : Voice := if isFinished v then { v with active := false } else v

/-- `Reclaim()` (R208). -/
def reclaim (s : State) : State := { s with voices := s.voices.map reclaimVoice }

end Sys2Proof.Machine
end

