-- ==== Sys2Proof/Machine/CsrRead.lean ====
section
/-! DEFINITION. The meanings of the 55 CSR reads (48_host_interface.md R297; 10_state.md R40 to R72). A read leaves
every register as it is (20_memory.md R87) and returns its word in `rdata`. While BUSY the registers the engine's
steps may change return a free value (R297). -/

namespace Sys2Proof.Machine

/-- The low and the high half of a u64 register. -/
def loWord (x : BitVec 64) : Word := x.extractLsb' 0 32
def hiWord (x : BitVec 64) : Word := x.extractLsb' 32 32

/-- `FIFO_COUNT` (10_state.md R47). -/
def fifoCountWord (s : State) : Word := (BitVec.ofNat 16 s.fifo.length).setWidth 32

/-- What the debug window shows of the selected voice (10_state.md R67 to R69): 0 while the selection is past the
last voice. -/
def voiceWindow (f : Voice → Word) (s : State) : Word :=
  if s.voiceSel.toNat < s.par.nVoices then
    match s.voices[s.voiceSel.toNat]? with
    | some v => f v
    | none => 0
  else 0

/-- `RD WT_DATA` (48_host_interface.md R308): a free value if the entry was never written. -/
def readTable (s : State) : State :=
  match tableAt s.wt s.wtAddr.toNat with
  | some v => returnWord v s
  | none => returnFree s

/-- RD ID (R40). -/
def execRdId (s : State) : Host.Outcome State Fault Refusal :=
  .next (returnWord 0x5253594E s)

/-- RD VERSION (R41). -/
def execRdVersion (s : State) : Host.Outcome State Fault Refusal :=
  .next (returnWord 0x00010000 s)

/-- RD CONFIG0 (R42). -/
def execRdConfig0 (s : State) : Host.Outcome State Fault Refusal :=
  .next (returnWord (config0Word s) s)

/-- RD CONFIG1 (R43). -/
def execRdConfig1 (s : State) : Host.Outcome State Fault Refusal :=
  .next (returnWord (config1Word s) s)

/-- RD STATUS (R45). -/
def execRdStatus (s : State) : Host.Outcome State Fault Refusal :=
  .next (returnWord (statusWord s) s)

/-- RD ACTIVE_VOICES (R46). -/
def execRdActiveVoices (s : State) : Host.Outcome State Fault Refusal :=
  .next (returnWord (s.activeSnap.setWidth 32) s)

/-- RD FIFO_COUNT (R47). -/
def execRdFifoCount (s : State) : Host.Outcome State Fault Refusal :=
  .next (returnWord (fifoCountWord s) s)

/-- RD OVF_COUNT (R48). -/
def execRdOvfCount (s : State) : Host.Outcome State Fault Refusal :=
  .next (returnWord s.ovfCount s)

/-- RD PUSH_RESULT (R49). -/
def execRdPushResult (s : State) : Host.Outcome State Fault Refusal :=
  .next (returnWord (flagWord s.pushResult) s)

/-- RD BAD_EVT_COUNT (R50). -/
def execRdBadEvtCount (s : State) : Host.Outcome State Fault Refusal :=
  .next (returnUnlessBusy s.badEvtCount s)

/-- RD CFG_ERR_COUNT (R51). -/
def execRdCfgErrCount (s : State) : Host.Outcome State Fault Refusal :=
  .next (returnUnlessBusy s.cfgErrCount s)

/-- RD CSR_ERR_COUNT (R52). -/
def execRdCsrErrCount (s : State) : Host.Outcome State Fault Refusal :=
  .next (returnWord s.csrErrCount s)

/-- RD LAST_ERR (R53). -/
def execRdLastErr (s : State) : Host.Outcome State Fault Refusal :=
  .next (returnUnlessBusy (s.lastErr.setWidth 32) s)

/-- RD STEAL_COUNT (R54). -/
def execRdStealCount (s : State) : Host.Outcome State Fault Refusal :=
  .next (returnUnlessBusy s.stealCount s)

/-- RD BLOCK_COUNT (R55). -/
def execRdBlockCount (s : State) : Host.Outcome State Fault Refusal :=
  .next (returnWord s.blockCount s)

/-- RD VOICE_STATUS (R68). -/
def execRdVoiceStatus (s : State) : Host.Outcome State Fault Refusal :=
  .next (returnUnlessBusy (voiceWindow voiceStatusWord s) s)

/-- RD VOICE_LEVEL (R69). -/
def execRdVoiceLevel (s : State) : Host.Outcome State Fault Refusal :=
  .next (returnUnlessBusy (voiceWindow (fun v => v.level) s) s)

/-- RD VOICE_PHASE (R69). -/
def execRdVoicePhase (s : State) : Host.Outcome State Fault Refusal :=
  .next (returnUnlessBusy (voiceWindow (fun v => v.phase) s) s)

/-- RD VOICE_INC (R69). -/
def execRdVoiceInc (s : State) : Host.Outcome State Fault Refusal :=
  .next (returnUnlessBusy (voiceWindow (fun v => v.inc) s) s)

/-- RD VOICE_Y1 (R69). -/
def execRdVoiceY1 (s : State) : Host.Outcome State Fault Refusal :=
  .next (returnUnlessBusy (voiceWindow (fun v => v.y1) s) s)

/-- RD VOICE_VEL (R69). -/
def execRdVoiceVel (s : State) : Host.Outcome State Fault Refusal :=
  .next (returnUnlessBusy (voiceWindow (fun v => v.vel) s) s)

/-- RD VOICE_RELCNT (R69). -/
def execRdVoiceRelcnt (s : State) : Host.Outcome State Fault Refusal :=
  .next (returnUnlessBusy (voiceWindow (fun v => v.relCnt) s) s)

/-- RD VOICE_RELDEC (R69). -/
def execRdVoiceReldec (s : State) : Host.Outcome State Fault Refusal :=
  .next (returnUnlessBusy (voiceWindow (fun v => v.relDec) s) s)

/-- RD VOICE_SEQ_LO (R69). -/
def execRdVoiceSeqLo (s : State) : Host.Outcome State Fault Refusal :=
  .next (returnUnlessBusy (voiceWindow (fun v => loWord v.seq) s) s)

/-- RD VOICE_SEQ_HI (R69). -/
def execRdVoiceSeqHi (s : State) : Host.Outcome State Fault Refusal :=
  .next (returnUnlessBusy (voiceWindow (fun v => hiWord v.seq) s) s)

/-- RD TRIG_SEQ_LO (R70). -/
def execRdTrigSeqLo (s : State) : Host.Outcome State Fault Refusal :=
  .next (returnUnlessBusy (loWord s.trigSeq) s)

/-- RD TRIG_SEQ_HI (R70). -/
def execRdTrigSeqHi (s : State) : Host.Outcome State Fault Refusal :=
  .next (returnUnlessBusy (hiWord s.trigSeq) s)

/-- RD PARAM[1] (R71). -/
def execRdParam1 (s : State) : Host.Outcome State Fault Refusal :=
  .next (returnUnlessBusy s.p.attackSamples s)

/-- RD PARAM[2] (R71). -/
def execRdParam2 (s : State) : Host.Outcome State Fault Refusal :=
  .next (returnUnlessBusy s.p.decaySamples s)

/-- RD PARAM[3] (R71). -/
def execRdParam3 (s : State) : Host.Outcome State Fault Refusal :=
  .next (returnUnlessBusy s.p.sustainLevel s)

/-- RD PARAM[4] (R71). -/
def execRdParam4 (s : State) : Host.Outcome State Fault Refusal :=
  .next (returnUnlessBusy s.p.releaseSamples s)

/-- RD PARAM[5] (R71). -/
def execRdParam5 (s : State) : Host.Outcome State Fault Refusal :=
  .next (returnUnlessBusy s.p.cutoffHz s)

/-- RD PARAM[6] (R71). -/
def execRdParam6 (s : State) : Host.Outcome State Fault Refusal :=
  .next (returnUnlessBusy (flagWord s.p.filterEnable) s)

/-- RD PARAM[7] (R71). -/
def execRdParam7 (s : State) : Host.Outcome State Fault Refusal :=
  .next (returnUnlessBusy s.p.headroom s)

/-- RD PARAM[8] (R71). -/
def execRdParam8 (s : State) : Host.Outcome State Fault Refusal :=
  .next (returnUnlessBusy (flagWord s.p.softclipEnable) s)

/-- RD PARAM[9] (R71). -/
def execRdParam9 (s : State) : Host.Outcome State Fault Refusal :=
  .next (returnUnlessBusy (flagWord s.p.phaseReset) s)

/-- RD PARAM[10] (R71). -/
def execRdParam10 (s : State) : Host.Outcome State Fault Refusal :=
  .next (returnUnlessBusy (flagWord s.p.retrigMode) s)

/-- RD COEF (R72). -/
def execRdCoef (s : State) : Host.Outcome State Fault Refusal :=
  .next (returnUnlessBusy s.p.coef s)

/-- RD ATTACK_INC (R72). -/
def execRdAttackInc (s : State) : Host.Outcome State Fault Refusal :=
  .next (returnUnlessBusy s.p.attackInc s)

/-- RD DECAY_DEC (R72). -/
def execRdDecayDec (s : State) : Host.Outcome State Fault Refusal :=
  .next (returnUnlessBusy s.p.decayDec s)

/-- RD CTRL (R44). -/
def execRdCtrl (s : State) : Host.Outcome State Fault Refusal :=
  .next (returnWord (flagWord s.run) s)

/-- RD EVT_W0 (R56). -/
def execRdEvtW0 (s : State) : Host.Outcome State Fault Refusal :=
  .next (returnWord 0 s)

/-- RD EVT_W1 (R57). -/
def execRdEvtW1 (s : State) : Host.Outcome State Fault Refusal :=
  .next (returnWord s.evtW1 s)

/-- RD EVT_W2 (R57). -/
def execRdEvtW2 (s : State) : Host.Outcome State Fault Refusal :=
  .next (returnWord s.evtW2 s)

/-- RD EVT_W3 (R57). -/
def execRdEvtW3 (s : State) : Host.Outcome State Fault Refusal :=
  .next (returnWord s.evtW3 s)

/-- RD RENDER (R58). -/
def execRdRender (s : State) : Host.Outcome State Fault Refusal :=
  .next (returnWord 0 s)

/-- RD OUT_BASE (R59). -/
def execRdOutBase (s : State) : Host.Outcome State Fault Refusal :=
  .next (returnWord s.outBase s)

/-- RD FRAMES (R60). -/
def execRdFrames (s : State) : Host.Outcome State Fault Refusal :=
  .next (returnWord s.frames s)

/-- RD CHANNELS (R61). -/
def execRdChannels (s : State) : Host.Outcome State Fault Refusal :=
  .next (returnWord s.channels s)

/-- RD IRQ_STATUS (R62). -/
def execRdIrqStatus (s : State) : Host.Outcome State Fault Refusal :=
  .next (returnWord (s.irqPend.setWidth 32) s)

/-- RD IRQ_ENABLE (R63). -/
def execRdIrqEnable (s : State) : Host.Outcome State Fault Refusal :=
  .next (returnWord (s.irqEn.setWidth 32) s)

/-- RD CFG_FS (R64). -/
def execRdCfgFs (s : State) : Host.Outcome State Fault Refusal :=
  .next (returnWord s.fs s)

/-- RD WT_ADDR (R65). -/
def execRdWtAddr (s : State) : Host.Outcome State Fault Refusal :=
  .next (returnWord (s.wtAddr.setWidth 32) s)

/-- RD WT_DATA (R66, R308). -/
def execRdWtData (s : State) : Host.Outcome State Fault Refusal :=
  .next (readTable s)

/-- RD VOICE_SEL (R67). -/
def execRdVoiceSel (s : State) : Host.Outcome State Fault Refusal :=
  .next (returnWord (s.voiceSel.setWidth 32) s)

end Sys2Proof.Machine
end

