-- ==== Sys2Proof/Machine/CsrRefused.lean ====
section
/-! DEFINITION. The meanings of the accesses SYNTH_CORE refuses by their offset: writes of the 40 read-only registers
(48_host_interface.md R292) and accesses of the reserved offsets (R293). The error they record is their effect; the
auxiliary byte is the word index. -/

namespace Sys2Proof.Machine

/-- A refused write of a read-only register (R292). -/
def writeReadOnly (widx : Byte) (s : State) : Host.Outcome State Fault Refusal :=
  .next (refuseWrite .csrWriteRo widx s)

/-- A refused access of a reserved offset (R293). -/
def accessReserved (w : Bool) (widx : Byte) (s : State) : Host.Outcome State Fault Refusal :=
  .next (refuseAccess w .csrReserved widx s)

/-- WR ID, refused `CSR_WRITE_RO`. -/
def execWrId (_v : Word) (s : State) : Host.Outcome State Fault Refusal := writeReadOnly 0x00 s

/-- WR VERSION, refused `CSR_WRITE_RO`. -/
def execWrVersion (_v : Word) (s : State) : Host.Outcome State Fault Refusal := writeReadOnly 0x01 s

/-- WR CONFIG0, refused `CSR_WRITE_RO`. -/
def execWrConfig0 (_v : Word) (s : State) : Host.Outcome State Fault Refusal := writeReadOnly 0x02 s

/-- WR CONFIG1, refused `CSR_WRITE_RO`. -/
def execWrConfig1 (_v : Word) (s : State) : Host.Outcome State Fault Refusal := writeReadOnly 0x03 s

/-- WR STATUS, refused `CSR_WRITE_RO`. -/
def execWrStatus (_v : Word) (s : State) : Host.Outcome State Fault Refusal := writeReadOnly 0x05 s

/-- WR ACTIVE_VOICES, refused `CSR_WRITE_RO`. -/
def execWrActiveVoices (_v : Word) (s : State) : Host.Outcome State Fault Refusal := writeReadOnly 0x06 s

/-- WR FIFO_COUNT, refused `CSR_WRITE_RO`. -/
def execWrFifoCount (_v : Word) (s : State) : Host.Outcome State Fault Refusal := writeReadOnly 0x07 s

/-- WR OVF_COUNT, refused `CSR_WRITE_RO`. -/
def execWrOvfCount (_v : Word) (s : State) : Host.Outcome State Fault Refusal := writeReadOnly 0x08 s

/-- WR PUSH_RESULT, refused `CSR_WRITE_RO`. -/
def execWrPushResult (_v : Word) (s : State) : Host.Outcome State Fault Refusal := writeReadOnly 0x09 s

/-- WR BAD_EVT_COUNT, refused `CSR_WRITE_RO`. -/
def execWrBadEvtCount (_v : Word) (s : State) : Host.Outcome State Fault Refusal := writeReadOnly 0x0A s

/-- WR CFG_ERR_COUNT, refused `CSR_WRITE_RO`. -/
def execWrCfgErrCount (_v : Word) (s : State) : Host.Outcome State Fault Refusal := writeReadOnly 0x0B s

/-- WR CSR_ERR_COUNT, refused `CSR_WRITE_RO`. -/
def execWrCsrErrCount (_v : Word) (s : State) : Host.Outcome State Fault Refusal := writeReadOnly 0x0C s

/-- WR LAST_ERR, refused `CSR_WRITE_RO`. -/
def execWrLastErr (_v : Word) (s : State) : Host.Outcome State Fault Refusal := writeReadOnly 0x0D s

/-- WR STEAL_COUNT, refused `CSR_WRITE_RO`. -/
def execWrStealCount (_v : Word) (s : State) : Host.Outcome State Fault Refusal := writeReadOnly 0x0E s

/-- WR BLOCK_COUNT, refused `CSR_WRITE_RO`. -/
def execWrBlockCount (_v : Word) (s : State) : Host.Outcome State Fault Refusal := writeReadOnly 0x0F s

/-- WR VOICE_STATUS, refused `CSR_WRITE_RO`. -/
def execWrVoiceStatus (_v : Word) (s : State) : Host.Outcome State Fault Refusal := writeReadOnly 0x21 s

/-- WR VOICE_LEVEL, refused `CSR_WRITE_RO`. -/
def execWrVoiceLevel (_v : Word) (s : State) : Host.Outcome State Fault Refusal := writeReadOnly 0x22 s

/-- WR VOICE_PHASE, refused `CSR_WRITE_RO`. -/
def execWrVoicePhase (_v : Word) (s : State) : Host.Outcome State Fault Refusal := writeReadOnly 0x23 s

/-- WR VOICE_INC, refused `CSR_WRITE_RO`. -/
def execWrVoiceInc (_v : Word) (s : State) : Host.Outcome State Fault Refusal := writeReadOnly 0x24 s

/-- WR VOICE_Y1, refused `CSR_WRITE_RO`. -/
def execWrVoiceY1 (_v : Word) (s : State) : Host.Outcome State Fault Refusal := writeReadOnly 0x25 s

/-- WR VOICE_VEL, refused `CSR_WRITE_RO`. -/
def execWrVoiceVel (_v : Word) (s : State) : Host.Outcome State Fault Refusal := writeReadOnly 0x26 s

/-- WR VOICE_RELCNT, refused `CSR_WRITE_RO`. -/
def execWrVoiceRelcnt (_v : Word) (s : State) : Host.Outcome State Fault Refusal := writeReadOnly 0x27 s

/-- WR VOICE_RELDEC, refused `CSR_WRITE_RO`. -/
def execWrVoiceReldec (_v : Word) (s : State) : Host.Outcome State Fault Refusal := writeReadOnly 0x28 s

/-- WR VOICE_SEQ_LO, refused `CSR_WRITE_RO`. -/
def execWrVoiceSeqLo (_v : Word) (s : State) : Host.Outcome State Fault Refusal := writeReadOnly 0x29 s

/-- WR VOICE_SEQ_HI, refused `CSR_WRITE_RO`. -/
def execWrVoiceSeqHi (_v : Word) (s : State) : Host.Outcome State Fault Refusal := writeReadOnly 0x2A s

/-- WR TRIG_SEQ_LO, refused `CSR_WRITE_RO`. -/
def execWrTrigSeqLo (_v : Word) (s : State) : Host.Outcome State Fault Refusal := writeReadOnly 0x2C s

/-- WR TRIG_SEQ_HI, refused `CSR_WRITE_RO`. -/
def execWrTrigSeqHi (_v : Word) (s : State) : Host.Outcome State Fault Refusal := writeReadOnly 0x2D s

/-- WR PARAM[1], refused `CSR_WRITE_RO`. -/
def execWrParam1 (_v : Word) (s : State) : Host.Outcome State Fault Refusal := writeReadOnly 0x41 s

/-- WR PARAM[2], refused `CSR_WRITE_RO`. -/
def execWrParam2 (_v : Word) (s : State) : Host.Outcome State Fault Refusal := writeReadOnly 0x42 s

/-- WR PARAM[3], refused `CSR_WRITE_RO`. -/
def execWrParam3 (_v : Word) (s : State) : Host.Outcome State Fault Refusal := writeReadOnly 0x43 s

/-- WR PARAM[4], refused `CSR_WRITE_RO`. -/
def execWrParam4 (_v : Word) (s : State) : Host.Outcome State Fault Refusal := writeReadOnly 0x44 s

/-- WR PARAM[5], refused `CSR_WRITE_RO`. -/
def execWrParam5 (_v : Word) (s : State) : Host.Outcome State Fault Refusal := writeReadOnly 0x45 s

/-- WR PARAM[6], refused `CSR_WRITE_RO`. -/
def execWrParam6 (_v : Word) (s : State) : Host.Outcome State Fault Refusal := writeReadOnly 0x46 s

/-- WR PARAM[7], refused `CSR_WRITE_RO`. -/
def execWrParam7 (_v : Word) (s : State) : Host.Outcome State Fault Refusal := writeReadOnly 0x47 s

/-- WR PARAM[8], refused `CSR_WRITE_RO`. -/
def execWrParam8 (_v : Word) (s : State) : Host.Outcome State Fault Refusal := writeReadOnly 0x48 s

/-- WR PARAM[9], refused `CSR_WRITE_RO`. -/
def execWrParam9 (_v : Word) (s : State) : Host.Outcome State Fault Refusal := writeReadOnly 0x49 s

/-- WR PARAM[10], refused `CSR_WRITE_RO`. -/
def execWrParam10 (_v : Word) (s : State) : Host.Outcome State Fault Refusal := writeReadOnly 0x4A s

/-- WR COEF, refused `CSR_WRITE_RO`. -/
def execWrCoef (_v : Word) (s : State) : Host.Outcome State Fault Refusal := writeReadOnly 0x50 s

/-- WR ATTACK_INC, refused `CSR_WRITE_RO`. -/
def execWrAttackInc (_v : Word) (s : State) : Host.Outcome State Fault Refusal := writeReadOnly 0x51 s

/-- WR DECAY_DEC, refused `CSR_WRITE_RO`. -/
def execWrDecayDec (_v : Word) (s : State) : Host.Outcome State Fault Refusal := writeReadOnly 0x52 s

/-- RD or WR of the k-th reserved word from 0x068, refused `CSR_RESERVED`. -/
def execRsv068 (w : Bool) (k : BitVec 1) (_v : Word) (s : State) : Host.Outcome State Fault Refusal :=
  accessReserved w (0x1A + k.setWidth 8) s

/-- RD or WR of the reserved 0x07C, refused `CSR_RESERVED`. -/
def execRsv07C (w : Bool) (_v : Word) (s : State) : Host.Outcome State Fault Refusal := accessReserved w 0x1F s

/-- RD or WR of the reserved 0x0AC, refused `CSR_RESERVED`. -/
def execRsv0AC (w : Bool) (_v : Word) (s : State) : Host.Outcome State Fault Refusal := accessReserved w 0x2B s

/-- RD or WR of the k-th reserved word from 0x0B8, refused `CSR_RESERVED`. -/
def execRsv0B8 (w : Bool) (k : BitVec 1) (_v : Word) (s : State) : Host.Outcome State Fault Refusal :=
  accessReserved w (0x2E + k.setWidth 8) s

/-- RD or WR of the k-th reserved word from 0x0C0, refused `CSR_RESERVED`. -/
def execRsv0C0 (w : Bool) (k : BitVec 4) (_v : Word) (s : State) : Host.Outcome State Fault Refusal :=
  accessReserved w (0x30 + k.setWidth 8) s

/-- RD or WR of the reserved 0x100, refused `CSR_RESERVED`. -/
def execRsv100 (w : Bool) (_v : Word) (s : State) : Host.Outcome State Fault Refusal := accessReserved w 0x40 s

/-- RD or WR of the reserved 0x12C, refused `CSR_RESERVED`. -/
def execRsv12C (w : Bool) (_v : Word) (s : State) : Host.Outcome State Fault Refusal := accessReserved w 0x4B s

/-- RD or WR of the k-th reserved word from 0x130, refused `CSR_RESERVED`. -/
def execRsv130 (w : Bool) (k : BitVec 2) (_v : Word) (s : State) : Host.Outcome State Fault Refusal :=
  accessReserved w (0x4C + k.setWidth 8) s

/-- RD or WR of the reserved 0x14C, refused `CSR_RESERVED`. -/
def execRsv14C (w : Bool) (_v : Word) (s : State) : Host.Outcome State Fault Refusal := accessReserved w 0x53 s

/-- RD or WR of the k-th reserved word from 0x150, refused `CSR_RESERVED`. -/
def execRsv150 (w : Bool) (k : BitVec 2) (_v : Word) (s : State) : Host.Outcome State Fault Refusal :=
  accessReserved w (0x54 + k.setWidth 8) s

/-- RD or WR of the k-th reserved word from 0x160, refused `CSR_RESERVED`. -/
def execRsv160 (w : Bool) (k : BitVec 3) (_v : Word) (s : State) : Host.Outcome State Fault Refusal :=
  accessReserved w (0x58 + k.setWidth 8) s

/-- RD or WR of the k-th reserved word from 0x180, refused `CSR_RESERVED`. -/
def execRsv180 (w : Bool) (k : BitVec 5) (_v : Word) (s : State) : Host.Outcome State Fault Refusal :=
  accessReserved w (0x60 + k.setWidth 8) s

end Sys2Proof.Machine
end

