-- ==== Sys2Proof/Machine/CsrWrite.lean ====
section
/-! DEFINITION. The meanings of the 15 CSR writes that take effect (48_host_interface.md R295 to R309), after the checks
of R290. The word index a refusal records is `OFF[8:2]`. -/

namespace Sys2Proof.Machine

/-- `WR CTRL` once accepted (R295): a soft reset takes precedence over the run bit. -/
def writeCtrl (v : Word) (s : State) : State :=
  if v.getLsbD 1 then softReset s else { s with run := v.getLsbD 0 }

/-- `WR RENDER` (R300): the checks of a render command in order, then its operands latched and the block begun. -/
def renderCommand (v : Word) (s : State) : State :=
  if v.getLsbD 0 = false then s
  else if busy s then raiseError .csrBusy 0x14 s
  else if s.run = false then raiseError .renderNotRunning 0x14 s
  else if s.outBase.toNat % 4 ≠ 0 then raiseError .renderBadParams 1 s
  else if s.channels = 0 then raiseError .renderBadParams 2 s
  else if 2 ^ 32 < s.outBase.toNat + 4 * s.frames.toNat * s.channels.toNat then raiseError .renderBadParams 3 s
  else { s with blkBase := s.outBase, blkFrames := s.frames, blkChannels := s.channels, engState := .drain }

/-- `WR CFG_FS` once accepted (R306): an illegal rate is a configuration error; a legal one recomputes `COEF` and
every voice's increment (41_oscillator.md R144), though 10_state.md R24 leaves the voices to the engine's steps and the
resets. DESIGN CHOICE: the model follows R144 and R306 (log 30). -/
def setSampleRate (v : Word) (s : State) : State :=
  if isSampleRate v then
    { s with fs := v, p := { s.p with coef := coefFn s.p.cutoffHz v },
             voices := s.voices.map fun x => { x with inc := incFor s.par.tableLen v x.note } }
  else raiseError .fsBadValue 0 s

/-- `WR WT_ADDR` once accepted (R307). -/
def setTableAddr (v : Word) (s : State) : State :=
  { s with wtAddr := BitVec.ofNat 16 (v.toNat % s.par.tableLen) }

/-- `WR WT_DATA` once accepted (R309): an illegal value is a configuration error; a legal one fills the entry and
advances the index. -/
def loadTable (v : Word) (s : State) : State :=
  if isTableValue v then
    { s with wt := s.wt.set s.wtAddr.toNat { value := v, written := true },
             wtAddr := BitVec.ofNat 16 ((s.wtAddr.toNat + 1) % s.par.tableLen) }
  else raiseError .wtBadValue (s.wtAddr.extractLsb' 0 8) s

/-- WR CTRL (R295). -/
def execWrCtrl (v : Word) (s : State) : Host.Outcome State Fault Refusal :=
  .next (unlessBusy 0x04 (writeCtrl v) s)

/-- WR EVT_W0 (R298): `Push({EVT_W3, EVT_W2, EVT_W1, v})`. -/
def execWrEvtW0 (v : Word) (s : State) : Host.Outcome State Fault Refusal :=
  .next (pushEvent { w0 := v, w1 := s.evtW1, w2 := s.evtW2, w3 := s.evtW3 } s)

/-- WR EVT_W1 (R299). -/
def execWrEvtW1 (v : Word) (s : State) : Host.Outcome State Fault Refusal := .next { s with evtW1 := v }

/-- WR EVT_W2 (R299). -/
def execWrEvtW2 (v : Word) (s : State) : Host.Outcome State Fault Refusal := .next { s with evtW2 := v }

/-- WR EVT_W3 (R299). -/
def execWrEvtW3 (v : Word) (s : State) : Host.Outcome State Fault Refusal := .next { s with evtW3 := v }

/-- WR RENDER (R300). -/
def execWrRender (v : Word) (s : State) : Host.Outcome State Fault Refusal := .next (renderCommand v s)

/-- WR OUT_BASE (R301). -/
def execWrOutBase (v : Word) (s : State) : Host.Outcome State Fault Refusal :=
  .next (unlessBusy 0x15 (fun s => { s with outBase := v }) s)

/-- WR FRAMES (R301). -/
def execWrFrames (v : Word) (s : State) : Host.Outcome State Fault Refusal :=
  .next (unlessBusy 0x16 (fun s => { s with frames := v }) s)

/-- WR CHANNELS (R301). -/
def execWrChannels (v : Word) (s : State) : Host.Outcome State Fault Refusal :=
  .next (unlessBusy 0x17 (fun s => { s with channels := v }) s)

/-- WR IRQ_STATUS (R302): write 1 to clear. -/
def execWrIrqStatus (v : Word) (s : State) : Host.Outcome State Fault Refusal :=
  .next (ackIrq (v.extractLsb' 0 5) s)

/-- WR IRQ_ENABLE (R303). -/
def execWrIrqEnable (v : Word) (s : State) : Host.Outcome State Fault Refusal :=
  .next { s with irqEn := v.extractLsb' 0 5 }

/-- WR CFG_FS (R306). -/
def execWrCfgFs (v : Word) (s : State) : Host.Outcome State Fault Refusal :=
  .next (whenStopped 0x1C (setSampleRate v) s)

/-- WR WT_ADDR (R307). -/
def execWrWtAddr (v : Word) (s : State) : Host.Outcome State Fault Refusal :=
  .next (whenStopped 0x1D (setTableAddr v) s)

/-- WR WT_DATA (R309). -/
def execWrWtData (v : Word) (s : State) : Host.Outcome State Fault Refusal :=
  .next (whenStopped 0x1E (loadTable v) s)

/-- WR VOICE_SEL (R304). -/
def execWrVoiceSel (v : Word) (s : State) : Host.Outcome State Fault Refusal :=
  .next { s with voiceSel := v.extractLsb' 0 16 }

end Sys2Proof.Machine
end

