-- ==== Sys2Proof/Machine/Events.lean ====
section
/-! DEFINITION. The meanings of the twelve legal events (46_event_intake.md R236 to R250) and the application of an
event word by the drain (R234, R235, R240, R251). -/

namespace Sys2Proof.Machine

/-- A control change of a legal id (R240): the value is checked, then the register and its derived registers are
written; an illegal value is a configuration error and changes nothing. -/
def setParam (id : Byte) (legal : Bool) (f : ParamRegs → ParamRegs) (s : State) : State :=
  if legal then { s with p := f s.p } else raiseError .ccBadValue id s

/-- `CC.ATTACK_SAMPLES v` (R241). -/
def ccAttackSamples (v : Word) (s : State) : State :=
  setParam 0x01 true (fun p => { p with attackSamples := v, attackInc := attackIncOf v }) s

/-- `CC.DECAY_SAMPLES v` (R242). -/
def ccDecaySamples (v : Word) (s : State) : State :=
  setParam 0x02 true (fun p => { p with decaySamples := v, decayDec := decayDecOf v p.sustainLevel }) s

/-- `CC.SUSTAIN_LEVEL v` (R243). -/
def ccSustainLevel (v : Word) (s : State) : State :=
  setParam 0x03 (isUnit32 v)
    (fun p => { p with sustainLevel := storedSustain v, decayDec := decayDecOf p.decaySamples (storedSustain v) }) s

/-- `CC.RELEASE_SAMPLES v` (R244). -/
def ccReleaseSamples (v : Word) (s : State) : State :=
  setParam 0x04 true (fun p => { p with releaseSamples := v }) s

/-- `CC.CUTOFF_HZ v` (R245). -/
def ccCutoffHz (v : Word) (s : State) : State :=
  setParam 0x05 (isCutoff v) (fun p => { p with cutoffHz := v, coef := coefFn v s.fs }) s

/-- `CC.FILTER_ENABLE v` (R246). -/
def ccFilterEnable (v : Word) (s : State) : State :=
  setParam 0x06 (isBoolWord v) (fun p => { p with filterEnable := v == 1 }) s

/-- `CC.HEADROOM v` (R247). -/
def ccHeadroom (v : Word) (s : State) : State :=
  setParam 0x07 (isHeadroom v) (fun p => { p with headroom := v }) s

/-- `CC.SOFTCLIP_ENABLE v` (R248). -/
def ccSoftclipEnable (v : Word) (s : State) : State :=
  setParam 0x08 (isBoolWord v) (fun p => { p with softclipEnable := v == 1 }) s

/-- `CC.PHASE_RESET v` (R249). -/
def ccPhaseReset (v : Word) (s : State) : State :=
  setParam 0x09 (isBoolWord v) (fun p => { p with phaseReset := v == 1 }) s

/-- `CC.RETRIG_MODE v` (R250). -/
def ccRetrigMode (v : Word) (s : State) : State :=
  setParam 0x0A (isBoolWord v) (fun p => { p with retrigMode := v == 1 }) s

/-- `ApplyCC(id, v)` (R240): a reserved id is an error and its value is not looked at (R251). -/
def applyCC (id : Byte) (v : Word) (s : State) : State :=
  if id = 0x01 then ccAttackSamples v s
  else if id = 0x02 then ccDecaySamples v s
  else if id = 0x03 then ccSustainLevel v s
  else if id = 0x04 then ccReleaseSamples v s
  else if id = 0x05 then ccCutoffHz v s
  else if id = 0x06 then ccFilterEnable v s
  else if id = 0x07 then ccHeadroom v s
  else if id = 0x08 then ccSoftclipEnable v s
  else if id = 0x09 then ccPhaseReset v s
  else if id = 0x0A then ccRetrigMode v s
  else raiseError .ccBadId id s

/-- `ApplyEvent(E)` (R234): decode and dispatch; an invalid event records its error and changes nothing else (R235). -/
def applyEvent (e : EvtWord) (s : State) : State :=
  match decodeEvent e.w0 e.w1 with
  | .noteOn note vel => vmNoteOn note vel s
  | .noteOff note => vmNoteOff note s
  | .controlChange id v => applyCC id v s
  | .invalid code aux => raiseError code aux s

/-- NOTE_ON (R236); the timestamp is ignored (R233). -/
def execNoteOn (note : BitVec 7) (vel : Word) (_ts : BitVec 64) (s : State) : Host.Outcome State Fault Refusal :=
  .next (vmNoteOn note vel s)

/-- NOTE_OFF (R237). -/
def execNoteOff (note : BitVec 7) (_ts : BitVec 64) (s : State) : Host.Outcome State Fault Refusal :=
  .next (vmNoteOff note s)

/-- CC.ATTACK_SAMPLES (R241). -/
def execCcAttackSamples (v : Word) (_ts : BitVec 64) (s : State) : Host.Outcome State Fault Refusal :=
  .next (ccAttackSamples v s)

/-- CC.DECAY_SAMPLES (R242). -/
def execCcDecaySamples (v : Word) (_ts : BitVec 64) (s : State) : Host.Outcome State Fault Refusal :=
  .next (ccDecaySamples v s)

/-- CC.SUSTAIN_LEVEL (R243). -/
def execCcSustainLevel (v : Word) (_ts : BitVec 64) (s : State) : Host.Outcome State Fault Refusal :=
  .next (ccSustainLevel v s)

/-- CC.RELEASE_SAMPLES (R244). -/
def execCcReleaseSamples (v : Word) (_ts : BitVec 64) (s : State) : Host.Outcome State Fault Refusal :=
  .next (ccReleaseSamples v s)

/-- CC.CUTOFF_HZ (R245). -/
def execCcCutoffHz (v : Word) (_ts : BitVec 64) (s : State) : Host.Outcome State Fault Refusal :=
  .next (ccCutoffHz v s)

/-- CC.FILTER_ENABLE (R246). -/
def execCcFilterEnable (v : Word) (_ts : BitVec 64) (s : State) : Host.Outcome State Fault Refusal :=
  .next (ccFilterEnable v s)

/-- CC.HEADROOM (R247). -/
def execCcHeadroom (v : Word) (_ts : BitVec 64) (s : State) : Host.Outcome State Fault Refusal :=
  .next (ccHeadroom v s)

/-- CC.SOFTCLIP_ENABLE (R248). -/
def execCcSoftclipEnable (v : Word) (_ts : BitVec 64) (s : State) : Host.Outcome State Fault Refusal :=
  .next (ccSoftclipEnable v s)

/-- CC.PHASE_RESET (R249). -/
def execCcPhaseReset (v : Word) (_ts : BitVec 64) (s : State) : Host.Outcome State Fault Refusal :=
  .next (ccPhaseReset v s)

/-- CC.RETRIG_MODE (R250). -/
def execCcRetrigMode (v : Word) (_ts : BitVec 64) (s : State) : Host.Outcome State Fault Refusal :=
  .next (ccRetrigMode v s)

end Sys2Proof.Machine
end

