-- ==== Sys2Proof/Machine/Engine.lean ====
section
/-! DEFINITION. The engine's two steps (47_render_engine.md R270 to R272), the voice mixer (R273, R274), the soft clip
(R275) and the output writes (R276). Each step is one atomic transition (00_scope.md R12). -/

namespace Sys2Proof.Machine

/-- The events applied in order, oldest first (R271). -/
def applyEvents : List EvtWord → State → State
  | [], s => s
  | e :: es, s => applyEvents es (applyEvent e s)

/-- `DrainStep` (R271): every event present is removed and applied, finished voices are reclaimed, and the frames
are next. -/
def drainBlock (s : State) : State :=
  { reclaim (applyEvents s.fifo { s with fifo := [] }) with engState := .render }

/-- `SoftClip(m)` (R275). -/
def softClip (m : Word) : Word :=
  if le32 one32 m then one32
  else if le32 m negOne32 then negOne32
  else mul32 m (sub32 0x3FC00000 (mul32 0x3F000000 (mul32 m m)))

/-- The sum of the active voices' samples onto `acc`, by ascending index, each ticked once (R273, R274). -/
def mixVoices (len : Nat) (wt : List WtEntry) (p : ParamRegs) :
    List Voice → Word → Except Fault (Word × List Voice)
  | [], acc => .ok (acc, [])
  | v :: vs, acc =>
    if v.active then
      match voiceSample len wt p v with
      | .error f => .error f
      | .ok (y, v') =>
        match mixVoices len wt p vs (add32 acc y) with
        | .error f => .error f
        | .ok (sum, vs') => .ok (sum, v' :: vs')
    else
      match mixVoices len wt p vs acc with
      | .error f => .error f
      | .ok (sum, vs') => .ok (sum, v :: vs')

/-- The global scaling of a voice sum (R273). -/
def scaleMix (p : ParamRegs) (sum : Word) : Word :=
  if p.softclipEnable then softClip (div32 sum p.headroom) else div32 sum p.headroom

/-- `MixFrame()` (R273): the frame's value and the ticked voices. -/
def mixFrame (s : State) : Except Fault (Word × State) :=
  match mixVoices s.par.tableLen s.wt s.p s.voices zero32 with
  | .ok (sum, vs) => .ok (scaleMix s.p sum, { s with voices := vs })
  | .error f => .error f

/-- The value of frame f written to `n` channels from channel c on (R272, R276). -/
def writeChannels (m : Word) (f : Nat) : Nat → Nat → State → State
  | 0, _, s => s
  | n + 1, c, s => writeChannels m f n (c + 1) (writeSample (sampleAddr s f c) m s)

/-- `n` frames from frame f on (R272). -/
def renderFrames : Nat → Nat → State → Except Fault State
  | 0, _, s => .ok s
  | n + 1, f, s =>
    match mixFrame s with
    | .error e => .error e
    | .ok (m, s') => renderFrames n (f + 1) (writeChannels m f s'.blkChannels.toNat 0 s')

/-- The end of a block (R272): the snapshot, the count, the DONE interrupt, and the engine idle. -/
def finishBlock (s : State) : State :=
  { s with activeSnap := BitVec.ofNat 16 (activeCount s.voices), blockCount := s.blockCount + 1,
           irqPend := s.irqPend ||| irqDone, engState := .idle, raced := [] }

/-- The platform admits the whole output range, the second condition for `RenderStep` to be enabled (R272). -/
def renderAdmitted (s : State) : Bool := admits s.par.memory s.blkBase.toNat (outputEnd s)

/-- DRAIN_STEP (R271). -/
def execDrainStep (s : State) : Host.Outcome State Fault Refusal :=
  if s.engState = .drain then .next (drainBlock s) else .fault .stepNotEnabled

/-- RENDER_STEP (R272). Where the output range is not admitted the engine has no step (stuck): its turn passes and changes
nothing, and the host's later turns run (log 8). A read of an unwritten table entry is the fault `UNINIT_TABLE_READ`
(40_wavetable.md R130). -/
def execRenderStep (s : State) : Host.Outcome State Fault Refusal :=
  if s.engState = .render then
    if renderAdmitted s then
      match renderFrames s.blkFrames.toNat 0 s with
      | .ok t => .next (finishBlock t)
      | .error f => .fault f
    else .next s
  else .fault .stepNotEnabled

end Sys2Proof.Machine
end

