-- ==== Sys2Proof/Machine/Dispatch.lean ====
section
/-! DEFINITION. The meaning of every instruction, one arm per constructor. -/

namespace Sys2Proof.Machine

/-- What an instruction does to the machine. -/
def exec (i : Instr) (s : State) : Host.Outcome State Fault Refusal :=
  match i with
  | .noteOn note vel ts => Sys2Proof.Machine.execNoteOn note vel ts s
  | .noteOff note ts => Sys2Proof.Machine.execNoteOff note ts s
  | .ccAttackSamples v ts => Sys2Proof.Machine.execCcAttackSamples v ts s
  | .ccDecaySamples v ts => Sys2Proof.Machine.execCcDecaySamples v ts s
  | .ccSustainLevel v ts => Sys2Proof.Machine.execCcSustainLevel v ts s
  | .ccReleaseSamples v ts => Sys2Proof.Machine.execCcReleaseSamples v ts s
  | .ccCutoffHz v ts => Sys2Proof.Machine.execCcCutoffHz v ts s
  | .ccFilterEnable v ts => Sys2Proof.Machine.execCcFilterEnable v ts s
  | .ccHeadroom v ts => Sys2Proof.Machine.execCcHeadroom v ts s
  | .ccSoftclipEnable v ts => Sys2Proof.Machine.execCcSoftclipEnable v ts s
  | .ccPhaseReset v ts => Sys2Proof.Machine.execCcPhaseReset v ts s
  | .ccRetrigMode v ts => Sys2Proof.Machine.execCcRetrigMode v ts s
  | .rdId => Sys2Proof.Machine.execRdId s
  | .wrId v => Sys2Proof.Machine.execWrId v s
  | .rdVersion => Sys2Proof.Machine.execRdVersion s
  | .wrVersion v => Sys2Proof.Machine.execWrVersion v s
  | .rdConfig0 => Sys2Proof.Machine.execRdConfig0 s
  | .wrConfig0 v => Sys2Proof.Machine.execWrConfig0 v s
  | .rdConfig1 => Sys2Proof.Machine.execRdConfig1 s
  | .wrConfig1 v => Sys2Proof.Machine.execWrConfig1 v s
  | .rdStatus => Sys2Proof.Machine.execRdStatus s
  | .wrStatus v => Sys2Proof.Machine.execWrStatus v s
  | .rdActiveVoices => Sys2Proof.Machine.execRdActiveVoices s
  | .wrActiveVoices v => Sys2Proof.Machine.execWrActiveVoices v s
  | .rdFifoCount => Sys2Proof.Machine.execRdFifoCount s
  | .wrFifoCount v => Sys2Proof.Machine.execWrFifoCount v s
  | .rdOvfCount => Sys2Proof.Machine.execRdOvfCount s
  | .wrOvfCount v => Sys2Proof.Machine.execWrOvfCount v s
  | .rdPushResult => Sys2Proof.Machine.execRdPushResult s
  | .wrPushResult v => Sys2Proof.Machine.execWrPushResult v s
  | .rdBadEvtCount => Sys2Proof.Machine.execRdBadEvtCount s
  | .wrBadEvtCount v => Sys2Proof.Machine.execWrBadEvtCount v s
  | .rdCfgErrCount => Sys2Proof.Machine.execRdCfgErrCount s
  | .wrCfgErrCount v => Sys2Proof.Machine.execWrCfgErrCount v s
  | .rdCsrErrCount => Sys2Proof.Machine.execRdCsrErrCount s
  | .wrCsrErrCount v => Sys2Proof.Machine.execWrCsrErrCount v s
  | .rdLastErr => Sys2Proof.Machine.execRdLastErr s
  | .wrLastErr v => Sys2Proof.Machine.execWrLastErr v s
  | .rdStealCount => Sys2Proof.Machine.execRdStealCount s
  | .wrStealCount v => Sys2Proof.Machine.execWrStealCount v s
  | .rdBlockCount => Sys2Proof.Machine.execRdBlockCount s
  | .wrBlockCount v => Sys2Proof.Machine.execWrBlockCount v s
  | .rdVoiceStatus => Sys2Proof.Machine.execRdVoiceStatus s
  | .wrVoiceStatus v => Sys2Proof.Machine.execWrVoiceStatus v s
  | .rdVoiceLevel => Sys2Proof.Machine.execRdVoiceLevel s
  | .wrVoiceLevel v => Sys2Proof.Machine.execWrVoiceLevel v s
  | .rdVoicePhase => Sys2Proof.Machine.execRdVoicePhase s
  | .wrVoicePhase v => Sys2Proof.Machine.execWrVoicePhase v s
  | .rdVoiceInc => Sys2Proof.Machine.execRdVoiceInc s
  | .wrVoiceInc v => Sys2Proof.Machine.execWrVoiceInc v s
  | .rdVoiceY1 => Sys2Proof.Machine.execRdVoiceY1 s
  | .wrVoiceY1 v => Sys2Proof.Machine.execWrVoiceY1 v s
  | .rdVoiceVel => Sys2Proof.Machine.execRdVoiceVel s
  | .wrVoiceVel v => Sys2Proof.Machine.execWrVoiceVel v s
  | .rdVoiceRelcnt => Sys2Proof.Machine.execRdVoiceRelcnt s
  | .wrVoiceRelcnt v => Sys2Proof.Machine.execWrVoiceRelcnt v s
  | .rdVoiceReldec => Sys2Proof.Machine.execRdVoiceReldec s
  | .wrVoiceReldec v => Sys2Proof.Machine.execWrVoiceReldec v s
  | .rdVoiceSeqLo => Sys2Proof.Machine.execRdVoiceSeqLo s
  | .wrVoiceSeqLo v => Sys2Proof.Machine.execWrVoiceSeqLo v s
  | .rdVoiceSeqHi => Sys2Proof.Machine.execRdVoiceSeqHi s
  | .wrVoiceSeqHi v => Sys2Proof.Machine.execWrVoiceSeqHi v s
  | .rdTrigSeqLo => Sys2Proof.Machine.execRdTrigSeqLo s
  | .wrTrigSeqLo v => Sys2Proof.Machine.execWrTrigSeqLo v s
  | .rdTrigSeqHi => Sys2Proof.Machine.execRdTrigSeqHi s
  | .wrTrigSeqHi v => Sys2Proof.Machine.execWrTrigSeqHi v s
  | .rdParam1 => Sys2Proof.Machine.execRdParam1 s
  | .wrParam1 v => Sys2Proof.Machine.execWrParam1 v s
  | .rdParam2 => Sys2Proof.Machine.execRdParam2 s
  | .wrParam2 v => Sys2Proof.Machine.execWrParam2 v s
  | .rdParam3 => Sys2Proof.Machine.execRdParam3 s
  | .wrParam3 v => Sys2Proof.Machine.execWrParam3 v s
  | .rdParam4 => Sys2Proof.Machine.execRdParam4 s
  | .wrParam4 v => Sys2Proof.Machine.execWrParam4 v s
  | .rdParam5 => Sys2Proof.Machine.execRdParam5 s
  | .wrParam5 v => Sys2Proof.Machine.execWrParam5 v s
  | .rdParam6 => Sys2Proof.Machine.execRdParam6 s
  | .wrParam6 v => Sys2Proof.Machine.execWrParam6 v s
  | .rdParam7 => Sys2Proof.Machine.execRdParam7 s
  | .wrParam7 v => Sys2Proof.Machine.execWrParam7 v s
  | .rdParam8 => Sys2Proof.Machine.execRdParam8 s
  | .wrParam8 v => Sys2Proof.Machine.execWrParam8 v s
  | .rdParam9 => Sys2Proof.Machine.execRdParam9 s
  | .wrParam9 v => Sys2Proof.Machine.execWrParam9 v s
  | .rdParam10 => Sys2Proof.Machine.execRdParam10 s
  | .wrParam10 v => Sys2Proof.Machine.execWrParam10 v s
  | .rdCoef => Sys2Proof.Machine.execRdCoef s
  | .wrCoef v => Sys2Proof.Machine.execWrCoef v s
  | .rdAttackInc => Sys2Proof.Machine.execRdAttackInc s
  | .wrAttackInc v => Sys2Proof.Machine.execWrAttackInc v s
  | .rdDecayDec => Sys2Proof.Machine.execRdDecayDec s
  | .wrDecayDec v => Sys2Proof.Machine.execWrDecayDec v s
  | .rdCtrl => Sys2Proof.Machine.execRdCtrl s
  | .wrCtrl v => Sys2Proof.Machine.execWrCtrl v s
  | .rdEvtW0 => Sys2Proof.Machine.execRdEvtW0 s
  | .wrEvtW0 v => Sys2Proof.Machine.execWrEvtW0 v s
  | .rdEvtW1 => Sys2Proof.Machine.execRdEvtW1 s
  | .wrEvtW1 v => Sys2Proof.Machine.execWrEvtW1 v s
  | .rdEvtW2 => Sys2Proof.Machine.execRdEvtW2 s
  | .wrEvtW2 v => Sys2Proof.Machine.execWrEvtW2 v s
  | .rdEvtW3 => Sys2Proof.Machine.execRdEvtW3 s
  | .wrEvtW3 v => Sys2Proof.Machine.execWrEvtW3 v s
  | .rdRender => Sys2Proof.Machine.execRdRender s
  | .wrRender v => Sys2Proof.Machine.execWrRender v s
  | .rdOutBase => Sys2Proof.Machine.execRdOutBase s
  | .wrOutBase v => Sys2Proof.Machine.execWrOutBase v s
  | .rdFrames => Sys2Proof.Machine.execRdFrames s
  | .wrFrames v => Sys2Proof.Machine.execWrFrames v s
  | .rdChannels => Sys2Proof.Machine.execRdChannels s
  | .wrChannels v => Sys2Proof.Machine.execWrChannels v s
  | .rdIrqStatus => Sys2Proof.Machine.execRdIrqStatus s
  | .wrIrqStatus v => Sys2Proof.Machine.execWrIrqStatus v s
  | .rdIrqEnable => Sys2Proof.Machine.execRdIrqEnable s
  | .wrIrqEnable v => Sys2Proof.Machine.execWrIrqEnable v s
  | .rdCfgFs => Sys2Proof.Machine.execRdCfgFs s
  | .wrCfgFs v => Sys2Proof.Machine.execWrCfgFs v s
  | .rdWtAddr => Sys2Proof.Machine.execRdWtAddr s
  | .wrWtAddr v => Sys2Proof.Machine.execWrWtAddr v s
  | .rdWtData => Sys2Proof.Machine.execRdWtData s
  | .wrWtData v => Sys2Proof.Machine.execWrWtData v s
  | .rdVoiceSel => Sys2Proof.Machine.execRdVoiceSel s
  | .wrVoiceSel v => Sys2Proof.Machine.execWrVoiceSel v s
  | .rsv068 w k v => Sys2Proof.Machine.execRsv068 w k v s
  | .rsv07C w v => Sys2Proof.Machine.execRsv07C w v s
  | .rsv0AC w v => Sys2Proof.Machine.execRsv0AC w v s
  | .rsv0B8 w k v => Sys2Proof.Machine.execRsv0B8 w k v s
  | .rsv0C0 w k v => Sys2Proof.Machine.execRsv0C0 w k v s
  | .rsv100 w v => Sys2Proof.Machine.execRsv100 w v s
  | .rsv12C w v => Sys2Proof.Machine.execRsv12C w v s
  | .rsv130 w k v => Sys2Proof.Machine.execRsv130 w k v s
  | .rsv14C w v => Sys2Proof.Machine.execRsv14C w v s
  | .rsv150 w k v => Sys2Proof.Machine.execRsv150 w k v s
  | .rsv160 w k v => Sys2Proof.Machine.execRsv160 w k v s
  | .rsv180 w k v => Sys2Proof.Machine.execRsv180 w k v s
  | .drainStep => Sys2Proof.Machine.execDrainStep s
  | .renderStep => Sys2Proof.Machine.execRenderStep s

end Sys2Proof.Machine
end

