-- ==== Sys2Proof/Machine/Fetch.lean ====
section
/-! DEFINITION. Which agent moves next and what it does (60_exceptions.md R341, 47_render_engine.md R270). SYNTH_CORE
fetches no instructions (00_scope.md R2): a host access arrives at the CSR port, an engine step is selected by
`ENG_STATE`, and events come out of the FIFO inside `DrainStep`. The port's list says whose turn is next (log 2). -/

namespace Sys2Proof.Machine

/-- What the next turn is: an instruction to run on a state, a turn already done, or a stop. -/
inductive Fetched where
  | run (i : Instr) (s : State)
  | done (s : State)
  | stop (f : Fault)

/-- A host access that is no instruction: not four bytes wide or not aligned (48_host_interface.md R291). A read
returns 0, a write changes nothing, and the error is recorded. -/
def refuseBadAccess (write : Bool) (widx : BitVec 7) (s : State) : State :=
  refuseAccess write .csrBadAccess (widx.setWidth 8) s

/-- The turn of the engine (R270): with `ENG_STATE` = IDLE it has no step and the turn passes. -/
def fetchEngine (s : State) : Fetched :=
  match decode (.engine (engCode s.engState)) with
  | .instr i => .run i s
  | .reject .noStep => .done s
  | .reject _ => .stop .badEngState

/-- The turn of a host agent making a CSR access (48_host_interface.md R290). -/
def fetchAccess (a : CsrAccess) (s : State) : Fetched :=
  match decode (.access a) with
  | .instr i => .run i s
  | .reject (.badAccess widx) => .done (refuseBadAccess a.write widx s)
  | .reject _ => .done s

/-- A turn of host memory. -/
def fetchMemory : Except Fault State → Fetched
  | .ok s => .done s
  | .error f => .stop f

/-- The next turn, taken off the port. With no turn listed the engine has every turn (70_reset_and_hazards.md R371). -/
def fetch (s : State) : Fetched :=
  match s.port with
  | [] => fetchEngine s
  | .engine :: rest => fetchEngine { s with port := rest }
  | .csr a :: rest => fetchAccess a { s with port := rest }
  | .memRead w :: rest => fetchMemory (hostRead w { s with port := rest })
  | .memWrite w v :: rest => fetchMemory (hostWrite w v { s with port := rest })

/-- The state in which the engine's code is `code` (30_encoding.md R112); code 3 is none. -/
def withEngCode (code : BitVec 2) (s : State) : State :=
  if code = 0 then { s with engState := .idle }
  else if code = 1 then { s with engState := .drain }
  else if code = 2 then { s with engState := .render }
  else s

/-- A packet placed where the machine takes it next: an access at the head of the port, an event alone in the FIFO of
a block about to drain, an engine code in `ENG_STATE` (log 2). -/
def withPacket (p : Packet) (s : State) : State :=
  match p with
  | .event e => { s with fifo := [e], engState := .drain, port := .engine :: s.port }
  | .access a => { s with port := .csr a :: s.port }
  | .engine code => { withEngCode code s with port := .engine :: s.port }

end Sys2Proof.Machine
end

