-- ==== Sys2Proof/Machine/Step.lean ====
section
/-! DEFINITION. One step of the machine: one atomic transition of one agent (00_scope.md R12, 60_exceptions.md R341). -/

namespace Sys2Proof.Machine

/-- One turn: the next one is taken off the port, and if it is an instruction the instruction is run. -/
def step (s : State) : Host.Outcome State Fault Refusal :=
  match fetch s with
  | .run i s' => exec i s'
  | .done s' => .next s'
  | .stop f => .fault f

/-- `s` with an instruction, given by its bits as spec/opcode_table.json numbers them, placed where the next step
takes it (log 2, log 18). -/
def State.withFetchWord (s : State) (nbits w : Nat) : State := withPacket (packetOfTable nbits w) s

end Sys2Proof.Machine
end

