-- ==== Sys2Proof/Safety.lean ====
section
/-! DEFINITION. What claims are stated in: the invariants the spec gives the machine (10_state.md R22, R27, R29;
42_envelope.md R168, R172; 45_voice_manager.md R209), and what a safe run is. -/

namespace Sys2Proof.Machine

/-- A run of k turns from `s` meets no fault and no refusal. -/
def SafeRun (k : Nat) (s : State) : Prop := ∃ t, Host.Core.run core k s = .next t

/-- A voice as the pool keeps it (R22, R168, R209): a free voice is Idle, an Idle voice is at level +0.0, and the
release counter is 0 outside Release. -/
def VoiceOk (v : Voice) : Prop :=
  (v.active = false → v.stage = .idle) ∧ (v.stage = .idle → v.level = zero32) ∧ (v.stage ≠ .release → v.relCnt = 0)

/-- The pool holds `N_VOICES` voices, each as it should be (R209). -/
def PoolInv (s : State) : Prop := s.voices.length = s.par.nVoices ∧ ∀ v ∈ s.voices, VoiceOk v

/-- Every active voice has a trigger stamp in 1..`TRIG_SEQ` (R209), which holds until `TRIG_SEQ` wraps. -/
def SeqInv (s : State) : Prop :=
  ∀ v ∈ s.voices, v.active = true → 1 ≤ v.seq.toNat ∧ v.seq.toNat ≤ s.trigSeq.toNat

/-- The derived registers equal their defining functions (R27). -/
def DerivedInv (s : State) : Prop :=
  s.p.attackInc = attackIncOf s.p.attackSamples ∧ s.p.decayDec = decayDecOf s.p.decaySamples s.p.sustainLevel ∧
    s.p.coef = coefFn s.p.cutoffHz s.fs

/-- Every sounding voice advances at the increment of its note at the current rate (41_oscillator.md R144). -/
def IncInv (s : State) : Prop := ∀ v ∈ s.voices, v.active = true → v.inc = incFor s.par.tableLen s.fs v.note

/-- Host memory is in its canonical form. -/
def MemoryInv (s : State) : Prop := Memory.wf s.mem

/-- A block in flight was accepted while running, with a legal output range (48_host_interface.md R295, R300). -/
def BlockInv (s : State) : Prop :=
  busy s = true →
    s.run = true ∧ s.blkBase.toNat % 4 = 0 ∧ s.blkChannels ≠ 0 ∧ outputEnd s ≤ 2 ^ 32

/-- The instance is legal, and the FIFO and the table have their sizes (R6, R33, R34, R65). -/
def ShapeInv (s : State) : Prop :=
  s.par.legal = true ∧ s.fifo.length ≤ s.par.fifoDepth ∧ s.wt.length = s.par.tableLen ∧
    s.wtAddr.toNat < s.par.tableLen

/-- Every written table entry is in [-1, 1] (R29). -/
def TableInv (s : State) : Prop := ∀ e ∈ s.wt, e.written = true → isTableValue e.value = true

/-- In [0, 1], and not -0.0 (42_envelope.md R172). -/
def isLevel (v : Word) : Bool := isUnit32 v && v != 0x80000000

/-- The sustain level, every level and every velocity are in their ranges (R22, R26, R172), every release decrement
is ≥ 0 (R20), and `DECAY_DEC` is the one of D and S (R27). -/
def LevelInv (s : State) : Prop :=
  isLevel s.p.sustainLevel = true ∧ s.p.attackInc = attackIncOf s.p.attackSamples ∧
    s.p.decayDec = decayDecOf s.p.decaySamples s.p.sustainLevel ∧
    ∀ v ∈ s.voices, isLevel v.level = true ∧ isUnit32 v.vel = true ∧ isNonneg32 v.relDec = true

/-- What keeps samples in [-1, 1]: the instance, cutoff, rate and headroom legal (R6, R26, R31), `COEF` in [0, 1]
(43_filter.md R180), and every filter history in [-1, 1] (R22). -/
def FilterInv (s : State) : Prop :=
  s.par.legal = true ∧ isCutoff s.p.cutoffHz = true ∧ isSampleRate s.fs = true ∧ isHeadroom s.p.headroom = true ∧
    isUnit32 s.p.coef = true ∧ ∀ v ∈ s.voices, isTableValue v.y1 = true

/-- A phase inside the table: a finite binary32 in [0, L) (R22). -/
def isPhase (len : Nat) (x : Word) : Bool := isNonneg32 x && decide (magOf x < len * 2 ^ 149)

/-- Phases in [0, L), increments finite, ≥ 0 and below 2^30, the rate legal (R22, R29, R31). -/
def PhaseInv (s : State) : Prop :=
  s.par.legal = true ∧ isSampleRate s.fs = true ∧
    ∀ v ∈ s.voices, isPhase s.par.tableLen v.phase = true ∧ isNonneg32 v.inc = true ∧ magOf v.inc ≤ 2 ^ 30 * 2 ^ 149

/-- Every table entry is written: the one initialisation the rules need (70_reset_and_hazards.md R362). -/
def TableFull (s : State) : Prop := s.wt.length = s.par.tableLen ∧ ∀ e ∈ s.wt, e.written = true

/-- The victim of 45_voice_manager.md R204: the releasing (or finished) voice of least level, the lowest index among
equals; where none is releasing, the voice of least `SEQ`, the lowest index among equals. -/
def IsVictim (vs : List Voice) (i : Nat) (v : Voice) : Prop :=
  vs[i]? = some v ∧
    (((v.stage = .release ∨ v.stage = .idle) ∧
        ∀ j u, vs[j]? = some u → (u.stage = .release ∨ u.stage = .idle) →
          le32 v.level u.level = true ∧ (j < i → lt32 v.level u.level = true)) ∨
      ((∀ u ∈ vs, u.stage ≠ .release ∧ u.stage ≠ .idle) ∧
        ∀ j u, vs[j]? = some u → v.seq ≤ u.seq ∧ (j < i → v.seq < u.seq)))

/-- `n` frames mixed one after another and not written: their values, and the state after them (47_render_engine.md
R272, R273). -/
def mixFrames : Nat → State → Except Fault (List Word × State)
  | 0, s => .ok ([], s)
  | n + 1, s =>
    match mixFrame s with
    | .error f => .error f
    | .ok (m, s1) =>
      match mixFrames n s1 with
      | .error f => .error f
      | .ok (ms, s2) => .ok (m :: ms, s2)

/-- The next turn is a host's aligned 32-bit write of `v` at CSR offset `off`. -/
def CsrWriteNext (s : State) (off : BitVec 9) (v : Word) : Prop :=
  ∃ rest, s.port = .csr { write := true, off := off, width := 4, data := v } :: rest

/-- The next turn is a soft reset that is not refused (48_host_interface.md R295). -/
def SoftResetNext (s : State) : Prop := busy s = false ∧ ∃ v, CsrWriteNext s 0x010 v ∧ v.getLsbD 1 = true

/-- The event word a write of `EVT_W0` pushes (48_host_interface.md R298). -/
def stagedEvent (s : State) (w : Word) : EvtWord := { w0 := w, w1 := s.evtW1, w2 := s.evtW2, w3 := s.evtW3 }

end Sys2Proof.Machine
end

