-- ==== Sys2Proof/Certificates/Slice0/Obligations.lean ====
section
/-! DEFINITION. The statements for the provers, from the numbered rules of spec/. A statement over all states holds in states
no run reaches too; where it needs an invariant of Safety.lean the invariant is a hypothesis, and that every step
keeps it is a statement of its own. A next state is given whole, so what an instruction leaves unchanged is stated
with what it writes. -/

open Sys2Proof Sys2Proof.Machine

/-! ### Encoding -/

/-- Decoding an encoded well-formed instruction gives it back, every operand at every value (30_encoding.md R100, R110,
R112). -/
def Obligations.DecodeEncode : Prop := ∀ i : Instr, i.wf = true → decode (encode i) = .instr i

/-- Every bit of an event word is read: the word of an instruction is the one the encoder writes (30_encoding.md R100 to
R109). -/
def Obligations.EventWordsUnique : Prop :=
  ∀ (e : EvtWord) (i : Instr), decode (.event e) = .instr i → i.wf = true ∧ encode i = .event e

/-- Exactly the aligned four-byte accesses are instructions (30_encoding.md R110; 20_memory.md R85), each the one whose
encoding it is; the data of a read is not looked at. -/
def Obligations.AccessDecoding : Prop :=
  ∀ a : CsrAccess,
    (a.width = 4 ∧ a.off.extractLsb' 0 2 = 0 →
      ∃ i, decode (.access a) = .instr i ∧ i.wf = true ∧
        encode i = .access { a with data := if a.write then a.data else 0 }) ∧
      (a.width ≠ 4 ∨ a.off.extractLsb' 0 2 ≠ 0 →
        decode (.access a) = .reject (.badAccess (a.off.extractLsb' 2 7)))

/-- The encoding examples of 30_encoding.md R116, word by word. Where the last two clauses lay an access out as one number,
the descriptor low and a write's data word above it, and give it four bytes of width, the layout is the model's choice
(log 18). -/
def Obligations.EncodingExamples : Prop :=
  decode (.event ⟨0x013C0000, 0x3F800000, 0, 0⟩) = .instr (.noteOn 60 0x3F800000 0) ∧
    decode (.event ⟨0x01450000, 0x3F000000, 7, 0⟩) = .instr (.noteOn 69 0x3F000000 7) ∧
    decode (.event ⟨0x023C0000, 0, 0, 0⟩) = .instr (.noteOff 60 0) ∧
    decode (.event ⟨0x03030000, 0x3F000000, 0, 0⟩) = .instr (.ccSustainLevel 0x3F000000 0) ∧
    decode (.event ⟨0x03010000, 0x000001E0, 0, 0⟩) = .instr (.ccAttackSamples 480 0) ∧
    decode (.event ⟨0x03050000, 0x447A0000, 0, 0⟩) = .instr (.ccCutoffHz 0x447A0000 0) ∧
    decode (.event ⟨0x01BC0000, 0x3F800000, 0, 0⟩) = .reject (.badEvent .evtBadNote 0xBC) ∧
    decode (.access { write := true, off := 0x050, width := 4, data := 1 }) = .instr (.wrRender 1) ∧
    decode (.access { write := false, off := 0x014, width := 4, data := 0 }) = .instr .rdStatus ∧
    decodeTableWord 32 (0x80000050 + 1 * 2 ^ 32) = some (.wrRender 1) ∧
    decodeTableWord 32 0x00000014 = some .rdStatus

/-- The operand values the rules call legal, as bit patterns: velocity and sustain level (30_encoding.md R102, R107),
cutoff and headroom (R107), sample rate (48_host_interface.md R306), table value (R309). -/
def Obligations.LegalValues : Prop :=
  ∀ v : Word,
    (isUnit32 v = true ↔ v.toNat ≤ 0x3F800000 ∨ v.toNat = 0x80000000) ∧
      (isCutoff v = true ↔ 0 < v.toNat ∧ v.toNat < 0x7F800000) ∧
      (isHeadroom v = true ↔ 0x3F800000 ≤ v.toNat ∧ v.toNat < 0x7F800000) ∧
      (isSampleRate v = true ↔ 0x3F800000 ≤ v.toNat ∧ v.toNat < 0x7F800000) ∧
      (isTableValue v = true ↔ v.toNat ≤ 0x3F800000 ∨ (0x80000000 ≤ v.toNat ∧ v.toNat ≤ 0xBF800000)) ∧
      (isBoolWord v = true ↔ v.toNat ≤ 1)

/-! ### Turns, events, errors -/

/-- A step runs the decoded instruction, and the turn leaves the port (60_exceptions.md R341; 47_render_engine.md R270):
a host's access, the engine's step when it has the turn, and, with no turn listed, the engine again (log 2). An
idle engine's turn changes nothing. -/
def Obligations.StepRunsDecoded : Prop :=
  ∀ (s : State) (rest : List Turn),
    (∀ a i, s.port = .csr a :: rest → decode (.access a) = .instr i → step s = exec i { s with port := rest }) ∧
      (∀ i, s.port = .engine :: rest → decode (.engine (engCode s.engState)) = .instr i →
        step s = exec i { s with port := rest }) ∧
      (∀ i, s.port = [] → decode (.engine (engCode s.engState)) = .instr i → step s = exec i s) ∧
      (s.port = .engine :: rest → s.engState = .idle → step s = .next { s with port := rest }) ∧
      (s.port = [] → s.engState = .idle → step s = .next s)

/-- Applying an event that decodes to an instruction does what the instruction does (46_event_intake.md R234). -/
def Obligations.AppliedEventIsExec : Prop :=
  ∀ (e : EvtWord) (s : State) (i : Instr), decode (.event e) = .instr i → exec i s = .next (applyEvent e s)

/-- An event that decodes to no instruction records its error and changes nothing else (46_event_intake.md R235, R251),
by the first failing check of 30_encoding.md R106. -/
def Obligations.InvalidEvents : Prop :=
  ∀ (e : EvtWord) (s : State),
    let kind := evtKind e.w0
    let arg := evtArg e.w0
    let clean := evtRsv0 e.w0 = 0 ∧ ¬(kind = 0x02 ∧ e.w1 ≠ 0)
    (kind ≠ 0x01 ∧ kind ≠ 0x02 ∧ kind ≠ 0x03 →
      applyEvent e s = { s with lastErr := kind ++ (0x01 : Byte), badEvtCount := s.badEvtCount + 1,
                                irqPend := s.irqPend ||| 0x08 }) ∧
      ((kind = 0x01 ∨ kind = 0x02 ∨ kind = 0x03) ∧ ¬clean →
        applyEvent e s = { s with lastErr := kind ++ (0x02 : Byte), badEvtCount := s.badEvtCount + 1,
                                  irqPend := s.irqPend ||| 0x08 }) ∧
      ((kind = 0x01 ∨ kind = 0x02) ∧ clean ∧ arg.getLsbD 7 = true →
        applyEvent e s = { s with lastErr := arg ++ (0x03 : Byte), badEvtCount := s.badEvtCount + 1,
                                  irqPend := s.irqPend ||| 0x08 }) ∧
      (kind = 0x01 ∧ clean ∧ arg.getLsbD 7 = false ∧ isUnit32 e.w1 = false →
        applyEvent e s = { s with lastErr := arg ++ (0x04 : Byte), badEvtCount := s.badEvtCount + 1,
                                  irqPend := s.irqPend ||| 0x08 }) ∧
      (kind = 0x03 ∧ clean ∧ (arg = 0x00 ∨ 0x0A < arg) →
        applyEvent e s = { s with lastErr := arg ++ (0x10 : Byte), cfgErrCount := s.cfgErrCount + 1,
                                  irqPend := s.irqPend ||| 0x04 })

/-- An access that is not four bytes wide or not aligned is refused (48_host_interface.md R291): a read returns 0, the
error is recorded with the word index, nothing else changes. -/
def Obligations.BadAccess : Prop :=
  ∀ (s : State) (a : CsrAccess) (rest : List Turn), s.port = .csr a :: rest →
    a.width ≠ 4 ∨ a.off.extractLsb' 0 2 ≠ 0 →
    step s = .next { s with port := rest, rdata := if a.write then s.rdata else 0,
                            lastErr := (a.off.extractLsb' 2 7).setWidth 8 ++ (0x20 : Byte),
                            csrErrCount := s.csrErrCount + 1, irqPend := s.irqPend ||| 0x10 }

/-! ### CSR reads -/

/-- The reads whose word does not depend on the engine (10_state.md R40, R41, R44, R46 to R49, R52, R55 to R61, R63, R64,
R67; 48_host_interface.md R297): constants, stored registers, counters, write-only registers. They answer in every
engine state and write nothing but what the host reads. -/
def Obligations.PlainReads : Prop :=
  ∀ (s : State), ∀ x ∈
    [(Instr.rdId, (0x5253594E : Word)), (.rdVersion, 0x00010000), (.rdCtrl, if s.run then 1 else 0),
     (.rdActiveVoices, s.activeSnap.setWidth 32), (.rdOvfCount, s.ovfCount),
     (.rdPushResult, if s.pushResult then 1 else 0), (.rdCsrErrCount, s.csrErrCount), (.rdBlockCount, s.blockCount),
     (.rdEvtW0, 0), (.rdEvtW1, s.evtW1), (.rdEvtW2, s.evtW2), (.rdEvtW3, s.evtW3), (.rdRender, 0),
     (.rdOutBase, s.outBase), (.rdFrames, s.frames), (.rdChannels, s.channels),
     (.rdIrqStatus, s.irqPend.setWidth 32), (.rdIrqEnable, s.irqEn.setWidth 32), (.rdCfgFs, s.fs),
     (.rdWtAddr, s.wtAddr.setWidth 32), (.rdVoiceSel, s.voiceSel.setWidth 32)],
    exec x.1 s = .next { s with rdata := x.2 }

/-- `CONFIG0`, `CONFIG1`, `STATUS` and `FIFO_COUNT`, field by field (10_state.md R42, R43, R45, R47): bit 4 of `STATUS` is
the level of the `irq` line (60_exceptions.md R335). -/
def Obligations.ComposedReads : Prop :=
  ∀ s : State,
    (∃ t, exec .rdConfig0 s = .next t ∧ t = { s with rdata := t.rdata } ∧
      t.rdata.extractLsb' 0 16 = BitVec.ofNat 16 s.par.nVoices ∧
      t.rdata.extractLsb' 16 5 = BitVec.ofNat 5 s.par.wtLog2Len ∧ t.rdata.extractLsb' 21 11 = 0) ∧
    (∃ t, exec .rdConfig1 s = .next t ∧ t = { s with rdata := t.rdata } ∧
      t.rdata.extractLsb' 0 16 = BitVec.ofNat 16 s.par.fifoDepth ∧ t.rdata.extractLsb' 16 16 = 0) ∧
    (∃ t, exec .rdStatus s = .next t ∧ t = { s with rdata := t.rdata } ∧
      t.rdata.getLsbD 0 = s.run ∧ (t.rdata.getLsbD 1 = true ↔ s.engState ≠ .idle) ∧
      (t.rdata.getLsbD 2 = true ↔ s.fifo.length = 0) ∧
      (t.rdata.getLsbD 3 = true ↔ s.fifo.length = s.par.fifoDepth) ∧
      (t.rdata.getLsbD 4 = true ↔ ∃ b, b < 5 ∧ s.irqPend.getLsbD b = true ∧ s.irqEn.getLsbD b = true) ∧
      t.rdata.extractLsb' 5 27 = 0) ∧
    (∃ t, exec .rdFifoCount s = .next t ∧ t = { s with rdata := t.rdata } ∧
      t.rdata.extractLsb' 0 16 = BitVec.ofNat 16 s.fifo.length ∧ t.rdata.extractLsb' 16 16 = 0)

/-- The registers the engine's steps change, read while no block is outstanding (10_state.md R50, R51, R53, R54, R70 to
R72; 48_host_interface.md R297). -/
def Obligations.EngineRegisterReads : Prop :=
  ∀ (s : State), busy s = false → ∀ x ∈
    [(Instr.rdBadEvtCount, s.badEvtCount), (.rdCfgErrCount, s.cfgErrCount), (.rdLastErr, s.lastErr.setWidth 32),
     (.rdStealCount, s.stealCount), (.rdTrigSeqLo, s.trigSeq.extractLsb' 0 32),
     (.rdTrigSeqHi, s.trigSeq.extractLsb' 32 32), (.rdParam1, s.p.attackSamples), (.rdParam2, s.p.decaySamples),
     (.rdParam3, s.p.sustainLevel), (.rdParam4, s.p.releaseSamples), (.rdParam5, s.p.cutoffHz),
     (.rdParam6, if s.p.filterEnable then 1 else 0), (.rdParam7, s.p.headroom),
     (.rdParam8, if s.p.softclipEnable then 1 else 0), (.rdParam9, if s.p.phaseReset then 1 else 0),
     (.rdParam10, if s.p.retrigMode then 1 else 0), (.rdCoef, s.p.coef), (.rdAttackInc, s.p.attackInc),
     (.rdDecayDec, s.p.decayDec)],
    exec x.1 s = .next { s with rdata := x.2 }

/-- The voice debug window while no block is outstanding (10_state.md R67 to R69): the selected voice's fields, and 0 from
every register while the selection is past the last voice. -/
def Obligations.VoiceWindowReads : Prop :=
  ∀ (s : State), busy s = false →
    (∀ v, s.voiceSel.toNat < s.par.nVoices → s.voices[s.voiceSel.toNat]? = some v →
      (∀ x ∈ [(Instr.rdVoiceLevel, v.level), (.rdVoicePhase, v.phase), (.rdVoiceInc, v.inc), (.rdVoiceY1, v.y1),
          (.rdVoiceVel, v.vel), (.rdVoiceRelcnt, v.relCnt), (.rdVoiceReldec, v.relDec),
          (.rdVoiceSeqLo, v.seq.extractLsb' 0 32), (.rdVoiceSeqHi, v.seq.extractLsb' 32 32)],
        exec x.1 s = .next { s with rdata := x.2 }) ∧
      ∃ t, exec .rdVoiceStatus s = .next t ∧ t = { s with rdata := t.rdata } ∧ t.rdata.getLsbD 0 = v.active ∧
        t.rdata.extractLsb' 1 3 =
          (match v.stage with | .idle => 0 | .attack => 1 | .decay => 2 | .sustain => 3 | .release => 4) ∧
        t.rdata.extractLsb' 4 4 = 0 ∧ t.rdata.extractLsb' 8 7 = v.note ∧ t.rdata.extractLsb' 15 17 = 0) ∧
    (s.par.nVoices ≤ s.voiceSel.toNat →
      ∀ i ∈ [Instr.rdVoiceStatus, .rdVoiceLevel, .rdVoicePhase, .rdVoiceInc, .rdVoiceY1, .rdVoiceVel,
          .rdVoiceRelcnt, .rdVoiceReldec, .rdVoiceSeqLo, .rdVoiceSeqHi],
        exec i s = .next { s with rdata := 0 })

/-- While a block is outstanding the registers the engine's steps change return an unspecified value, the next free word
(48_host_interface.md R297). The free word is the model's form of it (log 3); that the `VOICE_*` reads return one also
with `VOICE_SEL` past the last voice, where 10_state.md R67 says 0, is the model's reading of R297 (log 23). -/
def Obligations.BusyReadsAreFree : Prop :=
  ∀ (s : State), busy s = true → ∀ i ∈
    [Instr.rdBadEvtCount, .rdCfgErrCount, .rdLastErr, .rdStealCount, .rdTrigSeqLo, .rdTrigSeqHi, .rdParam1, .rdParam2,
     .rdParam3, .rdParam4, .rdParam5, .rdParam6, .rdParam7, .rdParam8, .rdParam9, .rdParam10, .rdCoef, .rdAttackInc,
     .rdDecayDec, .rdVoiceStatus, .rdVoiceLevel, .rdVoicePhase, .rdVoiceInc, .rdVoiceY1, .rdVoiceVel, .rdVoiceRelcnt,
     .rdVoiceReldec, .rdVoiceSeqLo, .rdVoiceSeqHi],
    exec i s = .next { s with rdata := Config.freeWord s.draws, draws := s.draws + 1 }

/-- `RD WT_DATA` (48_host_interface.md R308): the entry at `WT_ADDR` in every state; `WT_ADDR` does not advance. Of an entry
never written R308 returns a draw, here the next free word, whose form is the model's choice (log 3). -/
def Obligations.TableRead : Prop :=
  decode (.access { write := false, off := 0x078, width := 4, data := 0 }) = .instr .rdWtData ∧ ∀ s : State,
    (∀ v, s.wt[s.wtAddr.toNat]? = some { value := v, written := true } →
      exec .rdWtData s = .next { s with rdata := v }) ∧
    (∀ v, s.wt[s.wtAddr.toNat]? = some { value := v, written := false } →
      exec .rdWtData s = .next { s with rdata := Config.freeWord s.draws, draws := s.draws + 1 })

/-- No CSR read has a side effect (20_memory.md R87): any aligned read that is not refused changes no register, and a
refused one changes the error state alone. -/
def Obligations.ReadsHaveNoSideEffect : Prop :=
  ∀ (a : CsrAccess) (i : Instr) (s : State), a.write = false → decode (.access a) = .instr i →
    (∃ r d, exec i s = .next { s with rdata := r, draws := d }) ∨
      exec i s = .next { s with rdata := 0, lastErr := (a.off.extractLsb' 2 7).setWidth 8 ++ (0x22 : Byte),
                                csrErrCount := s.csrErrCount + 1, irqPend := s.irqPend ||| 0x10 }

/-! ### CSR writes -/

/-- A write of a read-only register changes nothing but the error state (48_host_interface.md R292). -/
def Obligations.ReadOnlyWritesRefused : Prop :=
  ∀ (v : Word) (s : State), ∀ x ∈
    [(Instr.wrId v, (0x00 : Byte)), (.wrVersion v, 0x01), (.wrConfig0 v, 0x02), (.wrConfig1 v, 0x03),
     (.wrStatus v, 0x05), (.wrActiveVoices v, 0x06), (.wrFifoCount v, 0x07), (.wrOvfCount v, 0x08),
     (.wrPushResult v, 0x09), (.wrBadEvtCount v, 0x0A), (.wrCfgErrCount v, 0x0B), (.wrCsrErrCount v, 0x0C),
     (.wrLastErr v, 0x0D), (.wrStealCount v, 0x0E), (.wrBlockCount v, 0x0F), (.wrVoiceStatus v, 0x21),
     (.wrVoiceLevel v, 0x22), (.wrVoicePhase v, 0x23), (.wrVoiceInc v, 0x24), (.wrVoiceY1 v, 0x25),
     (.wrVoiceVel v, 0x26), (.wrVoiceRelcnt v, 0x27), (.wrVoiceReldec v, 0x28), (.wrVoiceSeqLo v, 0x29),
     (.wrVoiceSeqHi v, 0x2A), (.wrTrigSeqLo v, 0x2C), (.wrTrigSeqHi v, 0x2D), (.wrParam1 v, 0x41),
     (.wrParam2 v, 0x42), (.wrParam3 v, 0x43), (.wrParam4 v, 0x44), (.wrParam5 v, 0x45), (.wrParam6 v, 0x46),
     (.wrParam7 v, 0x47), (.wrParam8 v, 0x48), (.wrParam9 v, 0x49), (.wrParam10 v, 0x4A), (.wrCoef v, 0x50),
     (.wrAttackInc v, 0x51), (.wrDecayDec v, 0x52)],
    exec x.1 s = .next { s with lastErr := x.2 ++ (0x21 : Byte), csrErrCount := s.csrErrCount + 1,
                                irqPend := s.irqPend ||| 0x10 }

/-- An access of a reserved offset (48_host_interface.md R293; 10_state.md R73): a read returns 0, a write is ignored, the
error is recorded with the word index. -/
def Obligations.ReservedRefused : Prop :=
  ∀ (w : Bool) (v : Word) (s : State) (k1 : BitVec 1) (k2 : BitVec 2) (k3 : BitVec 3) (k4 : BitVec 4) (k5 : BitVec 5),
    ∀ x ∈
    [(Instr.rsv068 w k1 v, 0x1A + k1.setWidth 8), (.rsv07C w v, 0x1F), (.rsv0AC w v, 0x2B),
     (.rsv0B8 w k1 v, 0x2E + k1.setWidth 8), (.rsv0C0 w k4 v, 0x30 + k4.setWidth 8), (.rsv100 w v, 0x40),
     (.rsv12C w v, 0x4B), (.rsv130 w k2 v, 0x4C + k2.setWidth 8), (.rsv14C w v, 0x53),
     (.rsv150 w k2 v, 0x54 + k2.setWidth 8), (.rsv160 w k3 v, 0x58 + k3.setWidth 8),
     (.rsv180 w k5 v, (0x60 : Byte) + k5.setWidth 8)],
    exec x.1 s = .next { s with rdata := if w then s.rdata else 0, lastErr := x.2 ++ (0x22 : Byte),
                                csrErrCount := s.csrErrCount + 1, irqPend := s.irqPend ||| 0x10 }

/-- The refusals that depend on the engine (48_host_interface.md R290, R294, R296): a guarded write while BUSY, whether
running or not, then a stopped-only write while running. -/
def Obligations.GuardedWritesRefused : Prop :=
  ∀ (v : Word) (s : State),
    (busy s = true → ∀ x ∈
      [(Instr.wrCtrl v, (0x04 : Byte)), (.wrOutBase v, 0x15), (.wrFrames v, 0x16), (.wrChannels v, 0x17),
       (.wrCfgFs v, 0x1C), (.wrWtAddr v, 0x1D), (.wrWtData v, 0x1E)],
      exec x.1 s = .next { s with lastErr := x.2 ++ (0x23 : Byte), csrErrCount := s.csrErrCount + 1,
                                  irqPend := s.irqPend ||| 0x10 }) ∧
    (busy s = false → s.run = true → ∀ x ∈ [(Instr.wrCfgFs v, (0x1C : Byte)), (.wrWtAddr v, 0x1D), (.wrWtData v, 0x1E)],
      exec x.1 s = .next { s with lastErr := x.2 ++ (0x24 : Byte), csrErrCount := s.csrErrCount + 1,
                                  irqPend := s.irqPend ||| 0x10 })

/-- `WR CTRL` while not BUSY (48_host_interface.md R295): bit 1 performs the soft reset of 70_reset_and_hazards.md R361,
which keeps the table and sets every other register to its power-on value, and takes precedence over bit 0, which
sets `RUN`. Host memory and the model's own fields lie outside the reset (log 24). -/
def Obligations.CtrlWrite : Prop :=
  ∀ (v : Word) (s : State), busy s = false →
    (v.getLsbD 1 = false → exec (.wrCtrl v) s = .next { s with run := v.getLsbD 0 }) ∧
    (v.getLsbD 1 = true → exec (.wrCtrl v) s = .next
      { par := s.par
        voices := List.replicate s.par.nVoices
          { active := false, note := 0, vel := 0, phase := 0, inc := 0, stage := .idle, level := 0, relCnt := 0,
            relDec := 0, y1 := 0, seq := 0 }
        p := { attackSamples := 0, decaySamples := 0, sustainLevel := 0x3F800000, releaseSamples := 0,
               cutoffHz := 0x447A0000, filterEnable := false, headroom := u2f (BitVec.ofNat 32 s.par.nVoices),
               softclipEnable := false, phaseReset := false, retrigMode := false, attackInc := 0, decayDec := 0,
               coef := 0x3DFB471D }
        fs := 0x473B8000, trigSeq := 0, run := false, engState := .idle, blkBase := 0, blkFrames := 0,
        blkChannels := 1, fifo := [], wt := s.wt, wtAddr := 0, evtW1 := 0, evtW2 := 0, evtW3 := 0, outBase := 0,
        frames := 0, channels := 1, ovfCount := 0, badEvtCount := 0, cfgErrCount := 0, csrErrCount := 0,
        stealCount := 0, blockCount := 0, activeSnap := 0, lastErr := 0, pushResult := true, irqPend := 0, irqEn := 0,
        voiceSel := 0, mem := s.mem, port := s.port, rdata := s.rdata, draws := s.draws, raced := s.raced })

/-- `WR EVT_W0` pushes the staged event in every engine state (48_host_interface.md R298; 46_event_intake.md R230, R231):
a full FIFO drops its oldest event, counts the overflow, answers 0 in `PUSH_RESULT` and sets the OVF bit. -/
def Obligations.EventPush : Prop :=
  ∀ (v : Word) (s : State),
    decode (.access { write := true, off := 0x040, width := 4, data := v }) = .instr (.wrEvtW0 v) ∧
    (s.fifo.length ≠ s.par.fifoDepth →
      exec (.wrEvtW0 v) s = .next { s with fifo := s.fifo ++ [⟨v, s.evtW1, s.evtW2, s.evtW3⟩], pushResult := true }) ∧
    (s.fifo.length = s.par.fifoDepth →
      exec (.wrEvtW0 v) s = .next { s with fifo := s.fifo.tail ++ [⟨v, s.evtW1, s.evtW2, s.evtW3⟩],
                                           ovfCount := s.ovfCount + 1, pushResult := false,
                                           irqPend := s.irqPend ||| 0x02 })

/-- The plain registers take what is written (48_host_interface.md R299, R303, R304 in every engine state; R301 while not
BUSY), reserved bits ignored (R305), and read back as it (R310). -/
def Obligations.PlainWrites : Prop :=
  ∀ (v : Word) (s : State),
    (∀ x ∈ [(Instr.wrEvtW1 v, Instr.rdEvtW1, { s with evtW1 := v }, v),
        (.wrEvtW2 v, .rdEvtW2, { s with evtW2 := v }, v), (.wrEvtW3 v, .rdEvtW3, { s with evtW3 := v }, v),
        (.wrIrqEnable v, .rdIrqEnable, { s with irqEn := v.extractLsb' 0 5 }, v &&& 0x1F),
        (.wrVoiceSel v, .rdVoiceSel, { s with voiceSel := v.extractLsb' 0 16 }, v &&& 0xFFFF)],
      exec x.1 s = .next x.2.2.1 ∧ exec x.2.1 x.2.2.1 = .next { x.2.2.1 with rdata := x.2.2.2 }) ∧
    (busy s = false →
      ∀ x ∈ [(Instr.wrOutBase v, Instr.rdOutBase, { s with outBase := v }), (.wrFrames v, .rdFrames, { s with frames := v }),
          (.wrChannels v, .rdChannels, { s with channels := v })],
        exec x.1 s = .next x.2.2 ∧ exec x.2.1 x.2.2 = .next { x.2.2 with rdata := v })

/-- `WR RENDER` (48_host_interface.md R300): without GO nothing in every state; with it the checks in their order, the
first that fails recording its error, and else the operands latched and the block begun. -/
def Obligations.RenderCommand : Prop :=
  ∀ (v : Word) (s : State),
    decode (.access { write := true, off := 0x050, width := 4, data := v }) = .instr (.wrRender v) ∧
    exec (.wrRender v) s = .next
      (if v.getLsbD 0 = false then s
       else if s.engState ≠ .idle then
         { s with lastErr := (0x14 : Byte) ++ (0x23 : Byte), csrErrCount := s.csrErrCount + 1, irqPend := s.irqPend ||| 0x10 }
       else if s.run = false then
         { s with lastErr := (0x14 : Byte) ++ (0x26 : Byte), csrErrCount := s.csrErrCount + 1, irqPend := s.irqPend ||| 0x10 }
       else if s.outBase.toNat % 4 ≠ 0 then
         { s with lastErr := (1 : Byte) ++ (0x25 : Byte), csrErrCount := s.csrErrCount + 1, irqPend := s.irqPend ||| 0x10 }
       else if s.channels = 0 then
         { s with lastErr := (2 : Byte) ++ (0x25 : Byte), csrErrCount := s.csrErrCount + 1, irqPend := s.irqPend ||| 0x10 }
       else if s.outBase.toNat + 4 * s.frames.toNat * s.channels.toNat > 2 ^ 32 then
         { s with lastErr := (3 : Byte) ++ (0x25 : Byte), csrErrCount := s.csrErrCount + 1, irqPend := s.irqPend ||| 0x10 }
       else { s with blkBase := s.outBase, blkFrames := s.frames, blkChannels := s.channels, engState := .drain })

/-- `WR IRQ_STATUS` (48_host_interface.md R302): the bits written as 1 are cleared, the others stay. -/
def Obligations.IrqAcknowledge : Prop :=
  ∀ (v : Word) (s : State),
    decode (.access { write := true, off := 0x060, width := 4, data := v }) = .instr (.wrIrqStatus v) ∧
    ∃ t, exec (.wrIrqStatus v) s = .next t ∧ t = { s with irqPend := t.irqPend } ∧
    ∀ b, b < 5 → t.irqPend.getLsbD b = (s.irqPend.getLsbD b && !v.getLsbD b)

/-- `WR CFG_FS` while stopped and idle (48_host_interface.md R306): a legal rate sets `FS`, `COEF` and every voice's
increment (41_oscillator.md R142), the model's choice against R24 (log 30); an illegal one is refused and recorded. -/
def Obligations.SampleRateWrite : Prop :=
  ∀ (v : Word) (s : State), busy s = false → s.run = false →
    (isSampleRate v = true → exec (.wrCfgFs v) s = .next
      { s with fs := v, p := { s.p with coef := coefFn s.p.cutoffHz v },
               voices := s.voices.map fun x =>
                 { x with inc := div32 (mul32 (u2f (BitVec.ofNat 32 (2 ^ s.par.wtLog2Len))) (noteFreq x.note)) v } }) ∧
    (isSampleRate v = false → exec (.wrCfgFs v) s = .next
      { s with lastErr := (0 : Byte) ++ (0x12 : Byte), cfgErrCount := s.cfgErrCount + 1, irqPend := s.irqPend ||| 0x04 })

/-- `WR WT_ADDR` and `WR WT_DATA` while stopped and idle (48_host_interface.md R307, R309), on a legal instance: the index
modulo L; a legal value fills the entry, sets its written flag and advances the index; an illegal one is refused. -/
def Obligations.TableWrites : Prop :=
  ∀ (v : Word) (s : State), busy s = false → s.run = false → s.par.legal = true →
    (∃ t, exec (.wrWtAddr v) s = .next t ∧ t = { s with wtAddr := t.wtAddr } ∧
      t.wtAddr.toNat = v.toNat % 2 ^ s.par.wtLog2Len) ∧
    (isTableValue v = true → ∃ t, exec (.wrWtData v) s = .next t ∧
      t = { s with wt := s.wt.set s.wtAddr.toNat ⟨v, true⟩, wtAddr := t.wtAddr } ∧
      t.wtAddr.toNat = (s.wtAddr.toNat + 1) % 2 ^ s.par.wtLog2Len) ∧
    (isTableValue v = false → exec (.wrWtData v) s = .next
      { s with lastErr := s.wtAddr.extractLsb' 0 8 ++ (0x13 : Byte), cfgErrCount := s.cfgErrCount + 1,
               irqPend := s.irqPend ||| 0x04 })

/-- Writing L legal entries from index 0 fills the table and leaves `WT_ADDR` at 0 (48_host_interface.md R309; the boot
step of 70_reset_and_hazards.md R362). -/
def Obligations.TableLoad : Prop :=
  ∀ (s : State) (vs : List Word) (rest : List Turn), busy s = false → s.run = false → ShapeInv s → s.wtAddr = 0 →
    vs.length = s.par.tableLen → (∀ v ∈ vs, isTableValue v = true) →
    s.port = vs.map (fun v => .csr { write := true, off := 0x078, width := 4, data := v }) ++ rest →
    Host.Core.run core vs.length s =
      .next { s with port := rest, wtAddr := 0, wt := vs.map fun v => { value := v, written := true } }

/-! ### Control changes -/

/-- The three sample counts (46_event_intake.md R241, R242, R244): every value is legal, and the derived register is
recomputed. -/
def Obligations.CcSampleCounts : Prop :=
  ∀ (v : Word) (ts : BitVec 64) (s : State),
    decode (.event ⟨0x03010000, v, ts.extractLsb' 0 32, ts.extractLsb' 32 32⟩) = .instr (.ccAttackSamples v ts) ∧
    decode (.event ⟨0x03020000, v, ts.extractLsb' 0 32, ts.extractLsb' 32 32⟩) = .instr (.ccDecaySamples v ts) ∧
    decode (.event ⟨0x03040000, v, ts.extractLsb' 0 32, ts.extractLsb' 32 32⟩) = .instr (.ccReleaseSamples v ts) ∧
    exec (.ccAttackSamples v ts) s =
      .next { s with p := { s.p with attackSamples := v,
                                     attackInc := if v = 0 then 0 else div32 0x3F800000 (u2f v) } } ∧
    exec (.ccDecaySamples v ts) s =
      .next { s with p := { s.p with decaySamples := v,
                                     decayDec := if v = 0 then 0 else div32 (sub32 0x3F800000 s.p.sustainLevel) (u2f v) } } ∧
    exec (.ccReleaseSamples v ts) s = .next { s with p := { s.p with releaseSamples := v } }

/-- The three values of 46_event_intake.md R243, R245, R247: a legal one is stored (-0.0 of a sustain level as +0.0) and
the derived register recomputed; an illegal one is refused whole, the prior value kept. -/
def Obligations.CcLevels : Prop :=
  ∀ (v : Word) (ts : BitVec 64) (s : State),
    (isUnit32 v = true → exec (.ccSustainLevel v ts) s =
      .next { s with p := { s.p with
        sustainLevel := if v = 0x80000000 then 0 else v,
        decayDec := if s.p.decaySamples = 0 then 0
                    else div32 (sub32 0x3F800000 (if v = 0x80000000 then 0 else v)) (u2f s.p.decaySamples) } }) ∧
    (isCutoff v = true → exec (.ccCutoffHz v ts) s =
      .next { s with p := { s.p with cutoffHz := v, coef := coefFn v s.fs } }) ∧
    (isHeadroom v = true → exec (.ccHeadroom v ts) s = .next { s with p := { s.p with headroom := v } }) ∧
    ∀ x ∈ [(Instr.ccSustainLevel v ts, isUnit32 v, (0x03 : Byte)), (.ccCutoffHz v ts, isCutoff v, 0x05),
        (.ccHeadroom v ts, isHeadroom v, 0x07)],
      x.2.1 = false → exec x.1 s =
        .next { s with lastErr := x.2.2 ++ (0x11 : Byte), cfgErrCount := s.cfgErrCount + 1, irqPend := s.irqPend ||| 0x04 }

/-- The four flags (46_event_intake.md R246, R248, R249, R250): exactly 0 and 1 are legal (30_encoding.md R108). -/
def Obligations.CcFlags : Prop :=
  ∀ (v : Word) (ts : BitVec 64) (s : State),
    (v = 0 ∨ v = 1 →
      exec (.ccFilterEnable v ts) s = .next { s with p := { s.p with filterEnable := v == 1 } } ∧
      exec (.ccSoftclipEnable v ts) s = .next { s with p := { s.p with softclipEnable := v == 1 } } ∧
      exec (.ccPhaseReset v ts) s = .next { s with p := { s.p with phaseReset := v == 1 } } ∧
      exec (.ccRetrigMode v ts) s = .next { s with p := { s.p with retrigMode := v == 1 } }) ∧
    (v ≠ 0 ∧ v ≠ 1 →
      ∀ x ∈ [(Instr.ccFilterEnable v ts, (0x06 : Byte)), (.ccSoftclipEnable v ts, 0x08), (.ccPhaseReset v ts, 0x09),
          (.ccRetrigMode v ts, 0x0A)],
        exec x.1 s = .next { s with lastErr := x.2 ++ (0x11 : Byte), cfgErrCount := s.cfgErrCount + 1,
                                    irqPend := s.irqPend ||| 0x04 })

/-! ### The voice pool -/

/-- A note-on with a free voice and no retrigger (45_voice_manager.md R200, R201, R203): the lowest free voice, its filter
history cleared, its phase kept unless `PHASE_RESET`, enters Attack from its level; the trigger counter stamps it. -/
def Obligations.NoteOnFreeVoice : Prop :=
  ∀ (n : BitVec 7) (vel : Word) (ts : BitVec 64) (s : State) (i : Nat) (v : Voice),
    (s.p.retrigMode = true → ∀ u ∈ s.voices, u.active = true → u.note ≠ n) →
    s.voices[i]? = some v → v.active = false →
    (∀ j u, j < i → s.voices[j]? = some u → u.active = true) →
    exec (.noteOn n vel ts) s = .next
      { s with trigSeq := s.trigSeq + 1,
               voices := s.voices.set i
                 { v with active := true, note := n, vel := vel, inc := incFor s.par.tableLen s.fs n,
                          phase := if s.p.phaseReset then 0 else v.phase, seq := s.trigSeq + 1,
                          stage := .attack, relCnt := 0, relDec := 0, y1 := 0 } }

/-- A note-on in the policy of one voice per note (45_voice_manager.md R202): the lowest active voice of the note is
retriggered from its level, its filter history kept, and no steal is counted. -/
def Obligations.NoteOnRetrigger : Prop :=
  ∀ (n : BitVec 7) (vel : Word) (ts : BitVec 64) (s : State) (i : Nat) (v : Voice),
    s.p.retrigMode = true → s.voices[i]? = some v → v.active = true → v.note = n →
    (∀ j u, j < i → s.voices[j]? = some u → ¬(u.active = true ∧ u.note = n)) →
    exec (.noteOn n vel ts) s = .next
      { s with trigSeq := s.trigSeq + 1,
               voices := s.voices.set i
                 { v with vel := vel, inc := incFor s.par.tableLen s.fs n,
                          phase := if s.p.phaseReset then 0 else v.phase, seq := s.trigSeq + 1,
                          stage := .attack, relCnt := 0, relDec := 0 } }

/-- A note-on with every voice active and no retrigger (45_voice_manager.md R204, R205) steals the victim: its note
changes at once, its level, phase (unless `PHASE_RESET`) and filter history stay, and the steal is counted. -/
def Obligations.NoteOnSteal : Prop :=
  ∀ (n : BitVec 7) (vel : Word) (ts : BitVec 64) (s : State) (i : Nat) (v : Voice),
    (s.p.retrigMode = true → ∀ u ∈ s.voices, u.note ≠ n) →
    (∀ u ∈ s.voices, u.active = true) → IsVictim s.voices i v →
    exec (.noteOn n vel ts) s = .next
      { s with trigSeq := s.trigSeq + 1, stealCount := s.stealCount + 1,
               voices := s.voices.set i
                 { v with note := n, vel := vel, inc := incFor s.par.tableLen s.fs n,
                          phase := if s.p.phaseReset then 0 else v.phase, seq := s.trigSeq + 1,
                          stage := .attack, relCnt := 0, relDec := 0 } }

/-- There is always a victim (45_voice_manager.md R206) and only one: "the stolen voice is deterministic" (R204). -/
def Obligations.VictimUnique : Prop :=
  ∀ vs : List Voice, vs ≠ [] → (∀ u ∈ vs, isLevel u.level = true) →
    ∃ i v, IsVictim vs i v ∧ ∀ j u, IsVictim vs j u → j = i ∧ u = v

/-- A note-off (45_voice_manager.md R207; 42_envelope.md R166): every active voice of the note in Attack, Decay or Sustain
enters Release with the counter R and the decrement of its level; every other voice, and everything else, is
unchanged. -/
def Obligations.NoteOffReleases : Prop :=
  ∀ (n : BitVec 7) (ts : BitVec 64) (s : State),
    exec (.noteOff n ts) s = .next
      { s with voices := s.voices.map fun v =>
          if v.active = true ∧ v.note = n ∧ v.stage ≠ .idle ∧ v.stage ≠ .release then
            { v with stage := .release, relCnt := s.p.releaseSamples,
                     relDec := if s.p.releaseSamples = 0 then 0 else div32 v.level (u2f s.p.releaseSamples) }
          else v }

/-- `capacity + 1` note-ons in one drain from a pool of free voices leave exactly `capacity` active voices
(45_voice_manager.md R210): voices 0 to N-1 in order, then the last one steals voice 0. Until `TRIG_SEQ` wraps. -/
def Obligations.CapacityPlusOne : Prop :=
  ∀ s : State, s.engState = .drain → s.p.retrigMode = false → 0 < s.voices.length →
    (∀ v ∈ s.voices, v.active = false) → s.fifo.length = s.voices.length + 1 →
    (∀ e ∈ s.fifo, ∃ n vel, decodeEvent e.w0 e.w1 = .noteOn n vel) →
    s.trigSeq.toNat + s.voices.length + 1 < 2 ^ 64 →
    ∃ t, exec .drainStep s = .next t ∧ t.voices.length = s.voices.length ∧ (∀ v ∈ t.voices, v.active = true) ∧
      t.stealCount = s.stealCount + 1 ∧
      ∀ k e n vel, s.fifo[k]? = some e → decodeEvent e.w0 e.w1 = .noteOn n vel → k ≠ 0 →
        ∃ v, t.voices[if k = s.voices.length then 0 else k]? = some v ∧ v.note = n ∧ v.vel = vel ∧ v.stage = .attack

/-- Reclaiming frees exactly the finished voices and changes no other field; a second reclaim changes nothing
(45_voice_manager.md R208). -/
def Obligations.ReclaimIdempotent : Prop :=
  ∀ s : State,
    reclaim s = { s with voices := s.voices.map fun v =>
      if v.active = true ∧ v.stage = .idle then { v with active := false } else v } ∧
    reclaim (reclaim s) = reclaim s ∧
    ((∀ v ∈ s.voices, ¬(v.active = true ∧ v.stage = .idle)) → reclaim s = s)

/-! ### The FIFO and the drain -/

/-- After any number of pushes in a row the FIFO holds the newest events it has room for, in push order, and every other
is counted in `OVF_COUNT` (46_event_intake.md R231, R233; 70_reset_and_hazards.md R368). -/
def Obligations.FifoKeepsNewest : Prop :=
  ∀ (s : State) (ws : List Word) (rest : List Turn), 1 ≤ s.par.fifoDepth → s.fifo.length ≤ s.par.fifoDepth →
    s.port = ws.map (fun w => .csr { write := true, off := 0x040, width := 4, data := w }) ++ rest →
    let all := s.fifo ++ ws.map (stagedEvent s)
    ∃ t, Host.Core.run core ws.length s = .next t ∧ t.port = rest ∧
      t.fifo = all.drop (all.length - s.par.fifoDepth) ∧
      t.ovfCount = s.ovfCount + BitVec.ofNat 32 (all.length - s.par.fifoDepth)

/-- `DrainStep` (47_render_engine.md R271) runs in DRAIN alone (log 13). With an empty FIFO it is a reclaim and the step to RENDER;
with events it is the application of the oldest, then the drain of the rest. -/
def Obligations.DrainInOrder : Prop :=
  ∀ s : State,
    (s.engState ≠ .drain → exec .drainStep s = .fault .stepNotEnabled) ∧
    (s.engState = .drain → s.fifo = [] → exec .drainStep s = .next
      { s with engState := .render, voices := s.voices.map fun v =>
          if v.active = true ∧ v.stage = .idle then { v with active := false } else v }) ∧
    (∀ e es, s.engState = .drain → s.fifo = e :: es →
      exec .drainStep s = exec .drainStep { applyEvent e { s with fifo := [] } with fifo := es })

/-- What a drain leaves (47_render_engine.md R271, "State written"): every register but those listed, all of host memory,
the table; `IRQ_PEND` gains the two event categories' bits at most. It completes whatever the FIFO holds. -/
def Obligations.DrainFrame : Prop :=
  ∀ s : State, s.engState = .drain → ∃ t, exec .drainStep s = .next t ∧
    t = { s with fifo := [], engState := .render, voices := t.voices, p := t.p, trigSeq := t.trigSeq,
                 stealCount := t.stealCount, lastErr := t.lastErr, badEvtCount := t.badEvtCount,
                 cfgErrCount := t.cfgErrCount, irqPend := t.irqPend } ∧
    t.voices.length = s.voices.length ∧
    (t.irqPend = s.irqPend ∨ t.irqPend = s.irqPend ||| 0x04 ∨ t.irqPend = s.irqPend ||| 0x08 ∨
      t.irqPend = s.irqPend ||| 0x0C)

/-! ### The envelope, the voice, the mixer -/

/-- The five stage rules of an envelope tick (42_envelope.md R161 to R165); every other field of the voice is
unchanged. -/
def Obligations.EnvelopeTick : Prop :=
  ∀ (p : ParamRegs) (v : Voice),
    (v.stage = .idle → envTick p v = { v with level := 0 }) ∧
    (v.stage = .attack → envTick p v =
      if p.attackSamples = 0 ∨ le32 0x3F800000 (add32 v.level p.attackInc) = true then
        { v with level := 0x3F800000, stage := .decay }
      else { v with level := add32 v.level p.attackInc }) ∧
    (v.stage = .decay → envTick p v =
      if p.decaySamples = 0 ∨ le32 (sub32 v.level p.decayDec) p.sustainLevel = true then
        { v with level := p.sustainLevel, stage := .sustain }
      else { v with level := sub32 v.level p.decayDec }) ∧
    (v.stage = .sustain → envTick p v = { v with level := p.sustainLevel }) ∧
    (v.stage = .release → envTick p v =
      if v.relCnt.toNat ≤ 1 ∨ le32 (sub32 v.level v.relDec) 0 = true then
        { v with level := 0, stage := .idle, relCnt := 0 }
      else { v with level := sub32 v.level v.relDec, relCnt := v.relCnt - 1 })

/-- A release ends on or before its R-th tick, at level +0.0 exactly and for good (42_envelope.md R165;
70_reset_and_hazards.md R373), and until then the level never rises. -/
def Obligations.ReleaseEnds : Prop :=
  ∀ (p : ParamRegs) (v : Voice), v.stage = .release →
    (∀ k : Nat, 1 ≤ k → v.relCnt.toNat ≤ k →
      ((envTick p)^[k] v).stage = .idle ∧ ((envTick p)^[k] v).level = 0 ∧ ((envTick p)^[k] v).relCnt = 0) ∧
    (isUnit32 v.level = true → isNonneg32 v.relDec = true → le32 (envTick p v).level v.level = true)

/-- One voice's sample (44_voice.md R190; 40_wavetable.md R130; 41_oscillator.md R141; 43_filter.md R181): the envelope
ticks, the table is interpolated at the phase held before, the phase advances and wraps, the product passes the
filter. An entry never written is the fault. Where the rules' corner cases and R280 say otherwise of a zero's sign or of
silence, it is the model's choice to follow the pseudocode (log 28, 29, 31). -/
def Obligations.VoiceTick : Prop :=
  ∀ (len : Nat) (wt : List WtEntry) (p : ParamRegs) (v : Voice),
    let q := wrapL len v.phase
    let k := floor32 q % len
    (∀ t0 t1, tableAt wt k = some t0 → tableAt wt ((k + 1) % len) = some t1 →
      let o := add32 t0 (mul32 (frac32 q) (sub32 t1 t0))
      let x := mul32 (mul32 (envTick p v).level v.vel) o
      let y := if p.filterEnable then add32 v.y1 (mul32 p.coef (sub32 x v.y1)) else x
      voiceSample len wt p v = .ok (y, { envTick p v with phase := wrapL len (add32 v.phase v.inc), y1 := y })) ∧
    (tableAt wt k = none ∨ tableAt wt ((k + 1) % len) = none →
      voiceSample len wt p v = .error .uninitTableRead)

/-- The mixer (47_render_engine.md R273 to R275): a frame of every state is the voices' sum from +0.0, scaled, with the
ticked voices; the sum of no voices is what it started from, and each further voice, in ascending order, adds its
sample if it is active and is ticked once; the division by `HEADROOM` and the soft clip follow. The first voice whose
sample is the fault ends the frame with it. -/
def Obligations.MixInOrder : Prop :=
  (∀ s : State,
      (∀ sum vs, mixVoices s.par.tableLen s.wt s.p s.voices 0 = .ok (sum, vs) →
        mixFrame s = .ok (scaleMix s.p sum, { s with voices := vs })) ∧
      (∀ f, mixVoices s.par.tableLen s.wt s.p s.voices 0 = .error f → mixFrame s = .error f)) ∧
    (∀ (len : Nat) (wt : List WtEntry) (p : ParamRegs) (acc : Word), mixVoices len wt p [] acc = .ok (acc, [])) ∧
    (∀ (len : Nat) (wt : List WtEntry) (p : ParamRegs) (vs vs' : List Voice) (v : Voice) (acc sum : Word),
      mixVoices len wt p vs acc = .ok (sum, vs') →
      (v.active = false → mixVoices len wt p (vs ++ [v]) acc = .ok (sum, vs' ++ [v])) ∧
      (∀ y v', v.active = true → voiceSample len wt p v = .ok (y, v') →
        mixVoices len wt p (vs ++ [v]) acc = .ok (add32 sum y, vs' ++ [v'])) ∧
      (∀ f, v.active = true → voiceSample len wt p v = .error f → mixVoices len wt p (vs ++ [v]) acc = .error f)) ∧
    (∀ (len : Nat) (wt : List WtEntry) (p : ParamRegs) (vs ws : List Voice) (acc : Word) (f : Fault),
      mixVoices len wt p vs acc = .error f → mixVoices len wt p (vs ++ ws) acc = .error f) ∧
    ∀ (p : ParamRegs) (sum : Word),
      let m := div32 sum p.headroom
      (p.softclipEnable = false → scaleMix p sum = m) ∧
      (p.softclipEnable = true → scaleMix p sum =
        if le32 0x3F800000 m = true then 0x3F800000
        else if le32 m 0xBF800000 = true then 0xBF800000
        else mul32 m (sub32 0x3FC00000 (mul32 0x3F000000 (mul32 m m))))

/-! ### The block -/

/-- `RenderStep` completes (47_render_engine.md R272) where the platform admits the output range and every table entry is
written (70_reset_and_hazards.md R362), or no frame is asked for: the block is counted, DONE is set, the active voices
are counted, the engine is idle. With no frames nothing else changes. -/
def Obligations.RenderCompletes : Prop :=
  ∀ s : State, s.engState = .render → admits s.par.memory s.blkBase.toNat (outputEnd s) = true →
    (TableFull s → ∃ t, exec .renderStep s = .next t ∧ t.engState = .idle ∧ t.blockCount = s.blockCount + 1 ∧
      t.irqPend = s.irqPend ||| 0x01 ∧ t.activeSnap = BitVec.ofNat 16 (s.voices.countP (·.active))) ∧
    (s.blkFrames = 0 → exec .renderStep s = .next
      { s with engState := .idle, blockCount := s.blockCount + 1, irqPend := s.irqPend ||| 0x01,
               activeSnap := BitVec.ofNat 16 (s.voices.countP (·.active)), raced := [] })

/-- Where `RenderStep` does not run: not in RENDER, no step (30_encoding.md R112, log 13); the output range not admitted, the
engine is stuck (47_render_engine.md R272; 20_memory.md R88): it has no step, so its turn passes, changing nothing, and
the host's next turn runs (the passing turn is the model's form, log 8); a frame with an active voice over a table of
which nothing is written, the fault `UNINIT_TABLE_READ` (40_wavetable.md R130; 10_state.md R34). -/
def Obligations.RenderStops : Prop :=
  ∀ s : State,
    (s.engState ≠ .render → exec .renderStep s = .fault .stepNotEnabled) ∧
    (s.engState = .render → admits s.par.memory s.blkBase.toNat (outputEnd s) = false →
      exec .renderStep s = .next s ∧ (s.port = [] → step s = .next s) ∧
      ∀ rest, s.port = .engine :: rest → step s = .next { s with port := rest } ∧
        ∀ a i rest', rest = .csr a :: rest' → decode (.access a) = .instr i →
          Host.Core.run core 2 s = exec i { s with port := rest' }) ∧
    (s.engState = .render → admits s.par.memory s.blkBase.toNat (outputEnd s) = true → s.blkFrames ≠ 0 →
      (∃ v ∈ s.voices, v.active = true) → (∀ e ∈ s.wt, e.written = false) →
      exec .renderStep s = .fault .uninitTableRead)

/-- What `RenderStep` writes (47_render_engine.md R276; 20_memory.md R84): the values of the frames mixed in order, the same
value to every channel of a frame, little-endian at `B + 4*(f*C + c)`; the voices end as after F ticks. A word the host
raced is left out (R92, log 7). Where the platform does not admit the range there is no step (statement RenderStops). -/
def Obligations.RenderWritesLayout : Prop :=
  ∀ s t : State, admits s.par.memory s.blkBase.toNat (outputEnd s) = true → exec .renderStep s = .next t →
    Memory.wf s.mem →
    ∃ ms u, mixFrames s.blkFrames.toNat s = .ok (ms, u) ∧ ms.length = s.blkFrames.toNat ∧ t.voices = u.voices ∧
      ∀ f c m, ms[f]? = some m → c < s.blkChannels.toNat →
        s.blkBase.toNat + 4 * (f * s.blkChannels.toNat + c) ∉ s.raced →
        ∀ k : Fin 4, readByte (s.blkBase.toNat + 4 * (f * s.blkChannels.toNat + c) + k.val) t.mem = some (byteLane m k)

/-- What `RenderStep` leaves (47_render_engine.md R272, R274; 20_memory.md R88): every byte outside the output range, every
free voice, `ACTIVE`, `NOTE`, `VEL`, `INC`, `SEQ` and `REL_DEC` of every voice, and every register but those listed. Where
the platform does not admit the range there is no step and nothing changes (statement RenderStops). -/
def Obligations.RenderFrame : Prop :=
  ∀ s t : State, admits s.par.memory s.blkBase.toNat (outputEnd s) = true → exec .renderStep s = .next t →
    t = { s with voices := t.voices, mem := t.mem, draws := t.draws, activeSnap := t.activeSnap,
                 blockCount := s.blockCount + 1, irqPend := s.irqPend ||| 0x01, engState := .idle, raced := [] } ∧
    (Memory.wf s.mem → ∀ a, a < s.blkBase.toNat ∨ outputEnd s ≤ a → readByte a t.mem = readByte a s.mem) ∧
    t.voices.length = s.voices.length ∧
    ∀ (i : Nat) (v v' : Voice), s.voices[i]? = some v → t.voices[i]? = some v' →
      (v.active = false → v' = v) ∧ v'.active = v.active ∧ v'.note = v.note ∧ v'.vel = v.vel ∧ v'.inc = v.inc ∧
        v'.seq = v.seq ∧ v'.relDec = v.relDec

/-! ### Host memory -/

/-- A host's turn of host memory (20_memory.md R92, log 6, log 7): in the output range of a block in flight, whatever the
platform admits (so of a stuck block too), a read is a free value and a write a race; elsewhere a write is read back as
written. That an access elsewhere which the platform does not admit stops is the model's choice (log 8): R88 leaves it
to the platform. -/
def Obligations.HostMemoryAccess : Prop :=
  ∀ (s : State) (w : BitVec 30) (v : Word) (rest : List Turn),
    let a := 4 * w.toNat
    let hit := s.engState ≠ .idle ∧ s.blkBase.toNat < a + 4 ∧ a < outputEnd s
    (hit →
      (s.port = .memRead w :: rest →
        step s = .next { s with port := rest, rdata := Config.freeWord s.draws, draws := s.draws + 1 }) ∧
      (s.port = .memWrite w v :: rest →
        step s = .next { s with port := rest, mem := writeWord a v s.mem, raced := a :: s.raced })) ∧
    (¬hit → admits s.par.memory a (a + 4) = false →
      s.port = .memRead w :: rest ∨ s.port = .memWrite w v :: rest → step s = .fault .hostMemoryAbsent) ∧
    (¬hit → admits s.par.memory a (a + 4) = true → Memory.wf s.mem → s.port = .memWrite w v :: .memRead w :: rest →
      Host.Core.run core 2 s = .next { s with port := rest, mem := writeWord a v s.mem, rdata := v })

/-! ### Invariants -/

/-- Every invariant of Safety.lean holds after power-on reset of every legal instance (70_reset_and_hazards.md R360). -/
def Obligations.ResetMeetsInvariants : Prop :=
  ∀ par : Params, par.legal = true →
    PoolInv (State.resetOf par) ∧ SeqInv (State.resetOf par) ∧ FilterInv (State.resetOf par) ∧ DerivedInv (State.resetOf par) ∧ IncInv (State.resetOf par) ∧
      MemoryInv (State.resetOf par) ∧ BlockInv (State.resetOf par) ∧ ShapeInv (State.resetOf par) ∧
      TableInv (State.resetOf par) ∧ LevelInv (State.resetOf par) ∧ PhaseInv (State.resetOf par)

/-- Every step keeps host memory in its canonical form (the model's own invariant, log 6). -/
def Obligations.MemoryKept : Prop := ∀ s t : State, MemoryInv s → step s = .next t → MemoryInv t

/-- Every step keeps the pool (10_state.md R22; 42_envelope.md R168; 45_voice_manager.md R209), and, until `TRIG_SEQ` wraps
(R30; a step triggers at most once for each event of the FIFO), every active voice's `SEQ` in 1..`TRIG_SEQ` (R209). -/
def Obligations.PoolKept : Prop :=
  ∀ s t : State, step s = .next t →
    (PoolInv s → PoolInv t) ∧ (SeqInv s → s.trigSeq.toNat + s.fifo.length < 2 ^ 64 → SeqInv t)

/-- Every step keeps the derived registers equal to their defining functions (10_state.md R27) and every sounding voice at
the increment of its note (41_oscillator.md R144). -/
def Obligations.DerivedKept : Prop :=
  ∀ s t : State, DerivedInv s → IncInv s → step s = .next t → DerivedInv t ∧ IncInv t

/-- Every step keeps a block in flight one that was accepted: running, aligned, at least one channel, below the top of
host memory (48_host_interface.md R295, R300; 20_memory.md R86, R88). -/
def Obligations.BlockKept : Prop := ∀ s t : State, BlockInv s → step s = .next t → BlockInv t

/-- Every step keeps the FIFO within its depth (10_state.md R33), the table at L entries with every written one in [-1, 1]
(R29, R34), and `WT_ADDR` below L (R65). -/
def Obligations.StorageKept : Prop :=
  ∀ s t : State, ShapeInv s → TableInv s → step s = .next t → ShapeInv t ∧ TableInv t

/-- Every step keeps every level, velocity and the sustain level in [0, 1], no level -0.0, and every release decrement ≥ 0
(10_state.md R20, R22; 42_envelope.md R172). With a table in [-1, 1] it keeps every filter history in [-1, 1] (R22;
40_wavetable.md R131; 43_filter.md R185), `COEF` in [0, 1] (R180), and cutoff, headroom and rate legal (R26, R31). -/
def Obligations.LevelKept : Prop :=
  ∀ s t : State, LevelInv s → step s = .next t → LevelInv t ∧ (TableInv s → FilterInv s → FilterInv t)

/-- Every step keeps every phase in [0, L) and every increment finite and ≥ 0 (10_state.md R22, R29; 41_oscillator.md
R141, R142). -/
def Obligations.PhaseKept : Prop := ∀ s t : State, PhaseInv s → step s = .next t → PhaseInv t

/-! ### The whole machine -/

/-- Who writes what: the parameters never change (10_state.md R75); the table only while stopped and idle (20_memory.md
R96; 40_wavetable.md R134); `RUN` only by `CTRL` while idle (60_exceptions.md R340); `P` only in DRAIN or by a soft
reset (10_state.md R28); a voice only in a block, by a soft reset, or, its increment alone, by a write of `CFG_FS` while
stopped (R24; 41_oscillator.md R144; the model's choice between them, log 30); `FS` only while stopped and idle or by a
soft reset. -/
def Obligations.WhoWritesWhat : Prop :=
  ∀ s t : State, step s = .next t →
    t.par = s.par ∧
    (s.run = true ∨ s.engState ≠ .idle → t.wt = s.wt) ∧
    (t.run ≠ s.run → s.engState = .idle ∧ ∃ v, CsrWriteNext s 0x010 v) ∧
    (¬SoftResetNext s →
      (s.engState ≠ .drain →
        { t.p with coef := s.p.coef } = s.p ∧ (t.p.coef ≠ s.p.coef → ∃ v, CsrWriteNext s 0x070 v)) ∧
      (s.engState = .idle → t.voices.map (fun v => { v with inc := 0 }) = s.voices.map (fun v => { v with inc := 0 })) ∧
      (s.engState = .idle → t.voices ≠ s.voices → s.run = false ∧ ∃ v, CsrWriteNext s 0x070 v) ∧
      (t.fs ≠ s.fs → s.run = false ∧ s.engState = .idle ∧ CsrWriteNext s 0x070 t.fs))

/-- A pending interrupt bit is cleared only by writing it to `IRQ_STATUS` or by a soft reset, and set only by its events
(60_exceptions.md R334): DONE by the end of a block; OVF by a push into a full FIFO; CFG_ERR by a drain of an event with
such an error or by an illegal value written to `CFG_FS` or `WT_DATA`; BAD_EVT by a drain of an event with such an
error; CSR_ERR by an access that counts one (R330, R331). -/
def Obligations.IrqPendingPersists : Prop :=
  ∀ s t : State, step s = .next t →
    (∀ b, s.irqPend.getLsbD b = true → t.irqPend.getLsbD b = false →
      SoftResetNext s ∨ ∃ v, CsrWriteNext s 0x060 v ∧ v.getLsbD b = true) ∧
    (s.irqPend.getLsbD 0 = false → t.irqPend.getLsbD 0 = true →
      s.engState = .render ∧ t.engState = .idle ∧ t.blockCount = s.blockCount + 1) ∧
    (s.irqPend.getLsbD 1 = false → t.irqPend.getLsbD 1 = true →
      s.fifo.length = s.par.fifoDepth ∧ (∃ v, CsrWriteNext s 0x040 v) ∧ t.ovfCount = s.ovfCount + 1) ∧
    (s.irqPend.getLsbD 2 = false → t.irqPend.getLsbD 2 = true →
      (s.engState = .drain ∧ ∃ e ∈ s.fifo, (applyEvent e s).cfgErrCount = s.cfgErrCount + 1) ∨
      (t.cfgErrCount = s.cfgErrCount + 1 ∧
        ∃ v, (CsrWriteNext s 0x070 v ∧ isSampleRate v = false) ∨ (CsrWriteNext s 0x078 v ∧ isTableValue v = false))) ∧
    (s.irqPend.getLsbD 3 = false → t.irqPend.getLsbD 3 = true →
      s.engState = .drain ∧ ∃ e ∈ s.fifo, (applyEvent e s).badEvtCount = s.badEvtCount + 1) ∧
    (s.irqPend.getLsbD 4 = false → t.irqPend.getLsbD 4 = true →
      (∃ a rest, s.port = .csr a :: rest) ∧ t.csrErrCount = s.csrErrCount + 1)

/-- Power-on reset (70_reset_and_hazards.md R360): every register the spec lists, for every instance, the `irq` line low,
`STATUS` 4. -/
def Obligations.ResetState : Prop :=
  ∀ par : Params,
    let s := State.resetOf par
    s.voices = List.replicate par.nVoices
        { active := false, note := 0, vel := 0, phase := 0, inc := 0, stage := .idle, level := 0, relCnt := 0,
          relDec := 0, y1 := 0, seq := 0 } ∧
      s.p = { attackSamples := 0, decaySamples := 0, sustainLevel := 0x3F800000, releaseSamples := 0,
              cutoffHz := 0x447A0000, filterEnable := false, headroom := u2f (BitVec.ofNat 32 par.nVoices),
              softclipEnable := false, phaseReset := false, retrigMode := false, attackInc := 0, decayDec := 0,
              coef := 0x3DFB471D } ∧
      s.fs = 0x473B8000 ∧ s.trigSeq = 0 ∧ s.run = false ∧ s.engState = .idle ∧ s.blkBase = 0 ∧ s.blkFrames = 0 ∧
      s.blkChannels = 1 ∧ s.fifo = [] ∧ s.wt.length = 2 ^ par.wtLog2Len ∧ (∀ e ∈ s.wt, e.written = false) ∧
      s.wtAddr = 0 ∧ s.voiceSel = 0 ∧ s.evtW1 = 0 ∧ s.evtW2 = 0 ∧ s.evtW3 = 0 ∧ s.outBase = 0 ∧ s.frames = 0 ∧
      s.channels = 1 ∧ s.ovfCount = 0 ∧ s.badEvtCount = 0 ∧ s.cfgErrCount = 0 ∧ s.csrErrCount = 0 ∧
      s.stealCount = 0 ∧ s.blockCount = 0 ∧ s.activeSnap = 0 ∧ s.lastErr = 0 ∧ s.pushResult = true ∧
      s.irqPend = 0 ∧ s.irqEn = 0 ∧ irqLine s = false ∧
      (par.fifoDepth ≠ 0 → exec .rdStatus s = .next { s with rdata := 0x00000004 })
end

