-- ==== Sys2Proof/Laws/State.lean ====
section
/-! SUPPORT. What each shared update of the state leaves and writes, a lemma a field, so that no later proof
unfolds a record update. -/

namespace Sys2Proof.Machine

variable (s : State) (v : Word) (m : BitVec 5) (c : ErrCode) (x : Byte) (i a : Nat) (f : Voice → Voice) (e : EvtWord)
  (n : BitVec 7)

/-! ### `returnWord` -/

@[simp] theorem returnWord_par : (returnWord v s).par = s.par := rfl
@[simp] theorem returnWord_voices : (returnWord v s).voices = s.voices := rfl
@[simp] theorem returnWord_p : (returnWord v s).p = s.p := rfl
@[simp] theorem returnWord_fs : (returnWord v s).fs = s.fs := rfl
@[simp] theorem returnWord_trigSeq : (returnWord v s).trigSeq = s.trigSeq := rfl
@[simp] theorem returnWord_run : (returnWord v s).run = s.run := rfl
@[simp] theorem returnWord_engState : (returnWord v s).engState = s.engState := rfl
@[simp] theorem returnWord_blkBase : (returnWord v s).blkBase = s.blkBase := rfl
@[simp] theorem returnWord_blkFrames : (returnWord v s).blkFrames = s.blkFrames := rfl
@[simp] theorem returnWord_blkChannels : (returnWord v s).blkChannels = s.blkChannels := rfl
@[simp] theorem returnWord_fifo : (returnWord v s).fifo = s.fifo := rfl
@[simp] theorem returnWord_wt : (returnWord v s).wt = s.wt := rfl
@[simp] theorem returnWord_wtAddr : (returnWord v s).wtAddr = s.wtAddr := rfl
@[simp] theorem returnWord_evtW1 : (returnWord v s).evtW1 = s.evtW1 := rfl
@[simp] theorem returnWord_evtW2 : (returnWord v s).evtW2 = s.evtW2 := rfl
@[simp] theorem returnWord_evtW3 : (returnWord v s).evtW3 = s.evtW3 := rfl
@[simp] theorem returnWord_outBase : (returnWord v s).outBase = s.outBase := rfl
@[simp] theorem returnWord_frames : (returnWord v s).frames = s.frames := rfl
@[simp] theorem returnWord_channels : (returnWord v s).channels = s.channels := rfl
@[simp] theorem returnWord_ovfCount : (returnWord v s).ovfCount = s.ovfCount := rfl
@[simp] theorem returnWord_badEvtCount : (returnWord v s).badEvtCount = s.badEvtCount := rfl
@[simp] theorem returnWord_cfgErrCount : (returnWord v s).cfgErrCount = s.cfgErrCount := rfl
@[simp] theorem returnWord_csrErrCount : (returnWord v s).csrErrCount = s.csrErrCount := rfl
@[simp] theorem returnWord_stealCount : (returnWord v s).stealCount = s.stealCount := rfl
@[simp] theorem returnWord_blockCount : (returnWord v s).blockCount = s.blockCount := rfl
@[simp] theorem returnWord_activeSnap : (returnWord v s).activeSnap = s.activeSnap := rfl
@[simp] theorem returnWord_lastErr : (returnWord v s).lastErr = s.lastErr := rfl
@[simp] theorem returnWord_pushResult : (returnWord v s).pushResult = s.pushResult := rfl
@[simp] theorem returnWord_irqPend : (returnWord v s).irqPend = s.irqPend := rfl
@[simp] theorem returnWord_irqEn : (returnWord v s).irqEn = s.irqEn := rfl
@[simp] theorem returnWord_voiceSel : (returnWord v s).voiceSel = s.voiceSel := rfl
@[simp] theorem returnWord_mem : (returnWord v s).mem = s.mem := rfl
@[simp] theorem returnWord_port : (returnWord v s).port = s.port := rfl
@[simp] theorem returnWord_draws : (returnWord v s).draws = s.draws := rfl
@[simp] theorem returnWord_raced : (returnWord v s).raced = s.raced := rfl
@[simp] theorem returnWord_rdata : (returnWord v s).rdata = v := rfl

/-! ### `returnFree` -/

@[simp] theorem returnFree_par : (returnFree s).par = s.par := rfl
@[simp] theorem returnFree_voices : (returnFree s).voices = s.voices := rfl
@[simp] theorem returnFree_p : (returnFree s).p = s.p := rfl
@[simp] theorem returnFree_fs : (returnFree s).fs = s.fs := rfl
@[simp] theorem returnFree_trigSeq : (returnFree s).trigSeq = s.trigSeq := rfl
@[simp] theorem returnFree_run : (returnFree s).run = s.run := rfl
@[simp] theorem returnFree_engState : (returnFree s).engState = s.engState := rfl
@[simp] theorem returnFree_blkBase : (returnFree s).blkBase = s.blkBase := rfl
@[simp] theorem returnFree_blkFrames : (returnFree s).blkFrames = s.blkFrames := rfl
@[simp] theorem returnFree_blkChannels : (returnFree s).blkChannels = s.blkChannels := rfl
@[simp] theorem returnFree_fifo : (returnFree s).fifo = s.fifo := rfl
@[simp] theorem returnFree_wt : (returnFree s).wt = s.wt := rfl
@[simp] theorem returnFree_wtAddr : (returnFree s).wtAddr = s.wtAddr := rfl
@[simp] theorem returnFree_evtW1 : (returnFree s).evtW1 = s.evtW1 := rfl
@[simp] theorem returnFree_evtW2 : (returnFree s).evtW2 = s.evtW2 := rfl
@[simp] theorem returnFree_evtW3 : (returnFree s).evtW3 = s.evtW3 := rfl
@[simp] theorem returnFree_outBase : (returnFree s).outBase = s.outBase := rfl
@[simp] theorem returnFree_frames : (returnFree s).frames = s.frames := rfl
@[simp] theorem returnFree_channels : (returnFree s).channels = s.channels := rfl
@[simp] theorem returnFree_ovfCount : (returnFree s).ovfCount = s.ovfCount := rfl
@[simp] theorem returnFree_badEvtCount : (returnFree s).badEvtCount = s.badEvtCount := rfl
@[simp] theorem returnFree_cfgErrCount : (returnFree s).cfgErrCount = s.cfgErrCount := rfl
@[simp] theorem returnFree_csrErrCount : (returnFree s).csrErrCount = s.csrErrCount := rfl
@[simp] theorem returnFree_stealCount : (returnFree s).stealCount = s.stealCount := rfl
@[simp] theorem returnFree_blockCount : (returnFree s).blockCount = s.blockCount := rfl
@[simp] theorem returnFree_activeSnap : (returnFree s).activeSnap = s.activeSnap := rfl
@[simp] theorem returnFree_lastErr : (returnFree s).lastErr = s.lastErr := rfl
@[simp] theorem returnFree_pushResult : (returnFree s).pushResult = s.pushResult := rfl
@[simp] theorem returnFree_irqPend : (returnFree s).irqPend = s.irqPend := rfl
@[simp] theorem returnFree_irqEn : (returnFree s).irqEn = s.irqEn := rfl
@[simp] theorem returnFree_voiceSel : (returnFree s).voiceSel = s.voiceSel := rfl
@[simp] theorem returnFree_mem : (returnFree s).mem = s.mem := rfl
@[simp] theorem returnFree_port : (returnFree s).port = s.port := rfl
@[simp] theorem returnFree_raced : (returnFree s).raced = s.raced := rfl
@[simp] theorem returnFree_rdata : (returnFree s).rdata = Config.freeWord s.draws := rfl
@[simp] theorem returnFree_draws : (returnFree s).draws = s.draws + 1 := rfl

/-! ### `ackIrq` -/

@[simp] theorem ackIrq_par : (ackIrq m s).par = s.par := rfl
@[simp] theorem ackIrq_voices : (ackIrq m s).voices = s.voices := rfl
@[simp] theorem ackIrq_p : (ackIrq m s).p = s.p := rfl
@[simp] theorem ackIrq_fs : (ackIrq m s).fs = s.fs := rfl
@[simp] theorem ackIrq_trigSeq : (ackIrq m s).trigSeq = s.trigSeq := rfl
@[simp] theorem ackIrq_run : (ackIrq m s).run = s.run := rfl
@[simp] theorem ackIrq_engState : (ackIrq m s).engState = s.engState := rfl
@[simp] theorem ackIrq_blkBase : (ackIrq m s).blkBase = s.blkBase := rfl
@[simp] theorem ackIrq_blkFrames : (ackIrq m s).blkFrames = s.blkFrames := rfl
@[simp] theorem ackIrq_blkChannels : (ackIrq m s).blkChannels = s.blkChannels := rfl
@[simp] theorem ackIrq_fifo : (ackIrq m s).fifo = s.fifo := rfl
@[simp] theorem ackIrq_wt : (ackIrq m s).wt = s.wt := rfl
@[simp] theorem ackIrq_wtAddr : (ackIrq m s).wtAddr = s.wtAddr := rfl
@[simp] theorem ackIrq_evtW1 : (ackIrq m s).evtW1 = s.evtW1 := rfl
@[simp] theorem ackIrq_evtW2 : (ackIrq m s).evtW2 = s.evtW2 := rfl
@[simp] theorem ackIrq_evtW3 : (ackIrq m s).evtW3 = s.evtW3 := rfl
@[simp] theorem ackIrq_outBase : (ackIrq m s).outBase = s.outBase := rfl
@[simp] theorem ackIrq_frames : (ackIrq m s).frames = s.frames := rfl
@[simp] theorem ackIrq_channels : (ackIrq m s).channels = s.channels := rfl
@[simp] theorem ackIrq_ovfCount : (ackIrq m s).ovfCount = s.ovfCount := rfl
@[simp] theorem ackIrq_badEvtCount : (ackIrq m s).badEvtCount = s.badEvtCount := rfl
@[simp] theorem ackIrq_cfgErrCount : (ackIrq m s).cfgErrCount = s.cfgErrCount := rfl
@[simp] theorem ackIrq_csrErrCount : (ackIrq m s).csrErrCount = s.csrErrCount := rfl
@[simp] theorem ackIrq_stealCount : (ackIrq m s).stealCount = s.stealCount := rfl
@[simp] theorem ackIrq_blockCount : (ackIrq m s).blockCount = s.blockCount := rfl
@[simp] theorem ackIrq_activeSnap : (ackIrq m s).activeSnap = s.activeSnap := rfl
@[simp] theorem ackIrq_lastErr : (ackIrq m s).lastErr = s.lastErr := rfl
@[simp] theorem ackIrq_pushResult : (ackIrq m s).pushResult = s.pushResult := rfl
@[simp] theorem ackIrq_irqEn : (ackIrq m s).irqEn = s.irqEn := rfl
@[simp] theorem ackIrq_voiceSel : (ackIrq m s).voiceSel = s.voiceSel := rfl
@[simp] theorem ackIrq_mem : (ackIrq m s).mem = s.mem := rfl
@[simp] theorem ackIrq_port : (ackIrq m s).port = s.port := rfl
@[simp] theorem ackIrq_rdata : (ackIrq m s).rdata = s.rdata := rfl
@[simp] theorem ackIrq_draws : (ackIrq m s).draws = s.draws := rfl
@[simp] theorem ackIrq_raced : (ackIrq m s).raced = s.raced := rfl
@[simp] theorem ackIrq_irqPend : (ackIrq m s).irqPend = s.irqPend &&& ~~~m := rfl

/-! ### `raiseError` (60_exceptions.md R331) -/

@[simp] theorem raiseError_par : (raiseError c x s).par = s.par := by cases c <;> rfl
@[simp] theorem raiseError_voices : (raiseError c x s).voices = s.voices := by cases c <;> rfl
@[simp] theorem raiseError_p : (raiseError c x s).p = s.p := by cases c <;> rfl
@[simp] theorem raiseError_fs : (raiseError c x s).fs = s.fs := by cases c <;> rfl
@[simp] theorem raiseError_trigSeq : (raiseError c x s).trigSeq = s.trigSeq := by cases c <;> rfl
@[simp] theorem raiseError_run : (raiseError c x s).run = s.run := by cases c <;> rfl
@[simp] theorem raiseError_engState : (raiseError c x s).engState = s.engState := by cases c <;> rfl
@[simp] theorem raiseError_blkBase : (raiseError c x s).blkBase = s.blkBase := by cases c <;> rfl
@[simp] theorem raiseError_blkFrames : (raiseError c x s).blkFrames = s.blkFrames := by cases c <;> rfl
@[simp] theorem raiseError_blkChannels : (raiseError c x s).blkChannels = s.blkChannels := by cases c <;> rfl
@[simp] theorem raiseError_fifo : (raiseError c x s).fifo = s.fifo := by cases c <;> rfl
@[simp] theorem raiseError_wt : (raiseError c x s).wt = s.wt := by cases c <;> rfl
@[simp] theorem raiseError_wtAddr : (raiseError c x s).wtAddr = s.wtAddr := by cases c <;> rfl
@[simp] theorem raiseError_evtW1 : (raiseError c x s).evtW1 = s.evtW1 := by cases c <;> rfl
@[simp] theorem raiseError_evtW2 : (raiseError c x s).evtW2 = s.evtW2 := by cases c <;> rfl
@[simp] theorem raiseError_evtW3 : (raiseError c x s).evtW3 = s.evtW3 := by cases c <;> rfl
@[simp] theorem raiseError_outBase : (raiseError c x s).outBase = s.outBase := by cases c <;> rfl
@[simp] theorem raiseError_frames : (raiseError c x s).frames = s.frames := by cases c <;> rfl
@[simp] theorem raiseError_channels : (raiseError c x s).channels = s.channels := by cases c <;> rfl
@[simp] theorem raiseError_ovfCount : (raiseError c x s).ovfCount = s.ovfCount := by cases c <;> rfl
@[simp] theorem raiseError_stealCount : (raiseError c x s).stealCount = s.stealCount := by cases c <;> rfl
@[simp] theorem raiseError_blockCount : (raiseError c x s).blockCount = s.blockCount := by cases c <;> rfl
@[simp] theorem raiseError_activeSnap : (raiseError c x s).activeSnap = s.activeSnap := by cases c <;> rfl
@[simp] theorem raiseError_pushResult : (raiseError c x s).pushResult = s.pushResult := by cases c <;> rfl
@[simp] theorem raiseError_irqEn : (raiseError c x s).irqEn = s.irqEn := by cases c <;> rfl
@[simp] theorem raiseError_voiceSel : (raiseError c x s).voiceSel = s.voiceSel := by cases c <;> rfl
@[simp] theorem raiseError_mem : (raiseError c x s).mem = s.mem := by cases c <;> rfl
@[simp] theorem raiseError_port : (raiseError c x s).port = s.port := by cases c <;> rfl
@[simp] theorem raiseError_rdata : (raiseError c x s).rdata = s.rdata := by cases c <;> rfl
@[simp] theorem raiseError_draws : (raiseError c x s).draws = s.draws := by cases c <;> rfl
@[simp] theorem raiseError_raced : (raiseError c x s).raced = s.raced := by cases c <;> rfl
@[simp] theorem raiseError_lastErr : (raiseError c x s).lastErr = x ++ errNumber c := by cases c <;> rfl

/-- The interrupt bit of a category (R331). -/
def irqOf : ErrCategory → BitVec 5
  | .badEvt => irqBadEvt
  | .cfgErr => irqCfgErr
  | .csrErr => irqCsrErr

/-- What `raiseError` writes, in one record (R331). -/
theorem raiseError_eq :
    raiseError c x s =
      { s with lastErr := x ++ errNumber c,
               badEvtCount := if errCategory c = .badEvt then s.badEvtCount + 1 else s.badEvtCount,
               cfgErrCount := if errCategory c = .cfgErr then s.cfgErrCount + 1 else s.cfgErrCount,
               csrErrCount := if errCategory c = .csrErr then s.csrErrCount + 1 else s.csrErrCount,
               irqPend := s.irqPend ||| irqOf (errCategory c) } := by
  cases c <;> rfl

/-! ### `modifyVoice` -/

@[simp] theorem modifyVoice_par : (modifyVoice i f s).par = s.par := rfl
@[simp] theorem modifyVoice_p : (modifyVoice i f s).p = s.p := rfl
@[simp] theorem modifyVoice_fs : (modifyVoice i f s).fs = s.fs := rfl
@[simp] theorem modifyVoice_trigSeq : (modifyVoice i f s).trigSeq = s.trigSeq := rfl
@[simp] theorem modifyVoice_run : (modifyVoice i f s).run = s.run := rfl
@[simp] theorem modifyVoice_engState : (modifyVoice i f s).engState = s.engState := rfl
@[simp] theorem modifyVoice_blkBase : (modifyVoice i f s).blkBase = s.blkBase := rfl
@[simp] theorem modifyVoice_blkFrames : (modifyVoice i f s).blkFrames = s.blkFrames := rfl
@[simp] theorem modifyVoice_blkChannels : (modifyVoice i f s).blkChannels = s.blkChannels := rfl
@[simp] theorem modifyVoice_fifo : (modifyVoice i f s).fifo = s.fifo := rfl
@[simp] theorem modifyVoice_wt : (modifyVoice i f s).wt = s.wt := rfl
@[simp] theorem modifyVoice_wtAddr : (modifyVoice i f s).wtAddr = s.wtAddr := rfl
@[simp] theorem modifyVoice_evtW1 : (modifyVoice i f s).evtW1 = s.evtW1 := rfl
@[simp] theorem modifyVoice_evtW2 : (modifyVoice i f s).evtW2 = s.evtW2 := rfl
@[simp] theorem modifyVoice_evtW3 : (modifyVoice i f s).evtW3 = s.evtW3 := rfl
@[simp] theorem modifyVoice_outBase : (modifyVoice i f s).outBase = s.outBase := rfl
@[simp] theorem modifyVoice_frames : (modifyVoice i f s).frames = s.frames := rfl
@[simp] theorem modifyVoice_channels : (modifyVoice i f s).channels = s.channels := rfl
@[simp] theorem modifyVoice_ovfCount : (modifyVoice i f s).ovfCount = s.ovfCount := rfl
@[simp] theorem modifyVoice_badEvtCount : (modifyVoice i f s).badEvtCount = s.badEvtCount := rfl
@[simp] theorem modifyVoice_cfgErrCount : (modifyVoice i f s).cfgErrCount = s.cfgErrCount := rfl
@[simp] theorem modifyVoice_csrErrCount : (modifyVoice i f s).csrErrCount = s.csrErrCount := rfl
@[simp] theorem modifyVoice_stealCount : (modifyVoice i f s).stealCount = s.stealCount := rfl
@[simp] theorem modifyVoice_blockCount : (modifyVoice i f s).blockCount = s.blockCount := rfl
@[simp] theorem modifyVoice_activeSnap : (modifyVoice i f s).activeSnap = s.activeSnap := rfl
@[simp] theorem modifyVoice_lastErr : (modifyVoice i f s).lastErr = s.lastErr := rfl
@[simp] theorem modifyVoice_pushResult : (modifyVoice i f s).pushResult = s.pushResult := rfl
@[simp] theorem modifyVoice_irqPend : (modifyVoice i f s).irqPend = s.irqPend := rfl
@[simp] theorem modifyVoice_irqEn : (modifyVoice i f s).irqEn = s.irqEn := rfl
@[simp] theorem modifyVoice_voiceSel : (modifyVoice i f s).voiceSel = s.voiceSel := rfl
@[simp] theorem modifyVoice_mem : (modifyVoice i f s).mem = s.mem := rfl
@[simp] theorem modifyVoice_port : (modifyVoice i f s).port = s.port := rfl
@[simp] theorem modifyVoice_rdata : (modifyVoice i f s).rdata = s.rdata := rfl
@[simp] theorem modifyVoice_draws : (modifyVoice i f s).draws = s.draws := rfl
@[simp] theorem modifyVoice_raced : (modifyVoice i f s).raced = s.raced := rfl
@[simp] theorem modifyVoice_voices : (modifyVoice i f s).voices = s.voices.modify i f := rfl

/-! ### `pushEvent` (46_event_intake.md R230) -/

@[simp] theorem pushEvent_par : (pushEvent e s).par = s.par := by unfold pushEvent; split <;> rfl
@[simp] theorem pushEvent_voices : (pushEvent e s).voices = s.voices := by unfold pushEvent; split <;> rfl
@[simp] theorem pushEvent_p : (pushEvent e s).p = s.p := by unfold pushEvent; split <;> rfl
@[simp] theorem pushEvent_fs : (pushEvent e s).fs = s.fs := by unfold pushEvent; split <;> rfl
@[simp] theorem pushEvent_trigSeq : (pushEvent e s).trigSeq = s.trigSeq := by unfold pushEvent; split <;> rfl
@[simp] theorem pushEvent_run : (pushEvent e s).run = s.run := by unfold pushEvent; split <;> rfl
@[simp] theorem pushEvent_engState : (pushEvent e s).engState = s.engState := by unfold pushEvent; split <;> rfl
@[simp] theorem pushEvent_blkBase : (pushEvent e s).blkBase = s.blkBase := by unfold pushEvent; split <;> rfl
@[simp] theorem pushEvent_blkFrames : (pushEvent e s).blkFrames = s.blkFrames := by unfold pushEvent; split <;> rfl
@[simp] theorem pushEvent_blkChannels : (pushEvent e s).blkChannels = s.blkChannels := by unfold pushEvent; split <;> rfl
@[simp] theorem pushEvent_wt : (pushEvent e s).wt = s.wt := by unfold pushEvent; split <;> rfl
@[simp] theorem pushEvent_wtAddr : (pushEvent e s).wtAddr = s.wtAddr := by unfold pushEvent; split <;> rfl
@[simp] theorem pushEvent_evtW1 : (pushEvent e s).evtW1 = s.evtW1 := by unfold pushEvent; split <;> rfl
@[simp] theorem pushEvent_evtW2 : (pushEvent e s).evtW2 = s.evtW2 := by unfold pushEvent; split <;> rfl
@[simp] theorem pushEvent_evtW3 : (pushEvent e s).evtW3 = s.evtW3 := by unfold pushEvent; split <;> rfl
@[simp] theorem pushEvent_outBase : (pushEvent e s).outBase = s.outBase := by unfold pushEvent; split <;> rfl
@[simp] theorem pushEvent_frames : (pushEvent e s).frames = s.frames := by unfold pushEvent; split <;> rfl
@[simp] theorem pushEvent_channels : (pushEvent e s).channels = s.channels := by unfold pushEvent; split <;> rfl
@[simp] theorem pushEvent_badEvtCount : (pushEvent e s).badEvtCount = s.badEvtCount := by unfold pushEvent; split <;> rfl
@[simp] theorem pushEvent_cfgErrCount : (pushEvent e s).cfgErrCount = s.cfgErrCount := by unfold pushEvent; split <;> rfl
@[simp] theorem pushEvent_csrErrCount : (pushEvent e s).csrErrCount = s.csrErrCount := by unfold pushEvent; split <;> rfl
@[simp] theorem pushEvent_stealCount : (pushEvent e s).stealCount = s.stealCount := by unfold pushEvent; split <;> rfl
@[simp] theorem pushEvent_blockCount : (pushEvent e s).blockCount = s.blockCount := by unfold pushEvent; split <;> rfl
@[simp] theorem pushEvent_activeSnap : (pushEvent e s).activeSnap = s.activeSnap := by unfold pushEvent; split <;> rfl
@[simp] theorem pushEvent_lastErr : (pushEvent e s).lastErr = s.lastErr := by unfold pushEvent; split <;> rfl
@[simp] theorem pushEvent_irqEn : (pushEvent e s).irqEn = s.irqEn := by unfold pushEvent; split <;> rfl
@[simp] theorem pushEvent_voiceSel : (pushEvent e s).voiceSel = s.voiceSel := by unfold pushEvent; split <;> rfl
@[simp] theorem pushEvent_mem : (pushEvent e s).mem = s.mem := by unfold pushEvent; split <;> rfl
@[simp] theorem pushEvent_port : (pushEvent e s).port = s.port := by unfold pushEvent; split <;> rfl
@[simp] theorem pushEvent_rdata : (pushEvent e s).rdata = s.rdata := by unfold pushEvent; split <;> rfl
@[simp] theorem pushEvent_draws : (pushEvent e s).draws = s.draws := by unfold pushEvent; split <;> rfl
@[simp] theorem pushEvent_raced : (pushEvent e s).raced = s.raced := by unfold pushEvent; split <;> rfl

/-- A push when the FIFO is full drops the oldest event (R231). -/
theorem pushEvent_full (h : s.fifo.length = s.par.fifoDepth) :
    pushEvent e s =
      { s with fifo := s.fifo.tail ++ [e], ovfCount := s.ovfCount + 1, pushResult := false,
               irqPend := s.irqPend ||| irqOvf } := by
  unfold pushEvent fifoFull
  rw [if_pos (decide_eq_true h)]

/-- A push when the FIFO is not full appends (R230). -/
theorem pushEvent_room (h : s.fifo.length ≠ s.par.fifoDepth) :
    pushEvent e s = { s with fifo := s.fifo ++ [e], pushResult := true } := by
  unfold pushEvent fifoFull
  rw [if_neg (by rw [decide_eq_true_iff]; exact h)]

/-! ### `writeSample` (47_render_engine.md R276) -/

@[simp] theorem writeSample_par : (writeSample a v s).par = s.par := by unfold writeSample; (repeat' split) <;> rfl
@[simp] theorem writeSample_voices : (writeSample a v s).voices = s.voices := by unfold writeSample; (repeat' split) <;> rfl
@[simp] theorem writeSample_p : (writeSample a v s).p = s.p := by unfold writeSample; (repeat' split) <;> rfl
@[simp] theorem writeSample_fs : (writeSample a v s).fs = s.fs := by unfold writeSample; (repeat' split) <;> rfl
@[simp] theorem writeSample_trigSeq : (writeSample a v s).trigSeq = s.trigSeq := by unfold writeSample; (repeat' split) <;> rfl
@[simp] theorem writeSample_run : (writeSample a v s).run = s.run := by unfold writeSample; (repeat' split) <;> rfl
@[simp] theorem writeSample_engState : (writeSample a v s).engState = s.engState := by unfold writeSample; (repeat' split) <;> rfl
@[simp] theorem writeSample_blkBase : (writeSample a v s).blkBase = s.blkBase := by unfold writeSample; (repeat' split) <;> rfl
@[simp] theorem writeSample_blkFrames : (writeSample a v s).blkFrames = s.blkFrames := by unfold writeSample; (repeat' split) <;> rfl
@[simp] theorem writeSample_blkChannels : (writeSample a v s).blkChannels = s.blkChannels := by unfold writeSample; (repeat' split) <;> rfl
@[simp] theorem writeSample_fifo : (writeSample a v s).fifo = s.fifo := by unfold writeSample; (repeat' split) <;> rfl
@[simp] theorem writeSample_wt : (writeSample a v s).wt = s.wt := by unfold writeSample; (repeat' split) <;> rfl
@[simp] theorem writeSample_wtAddr : (writeSample a v s).wtAddr = s.wtAddr := by unfold writeSample; (repeat' split) <;> rfl
@[simp] theorem writeSample_evtW1 : (writeSample a v s).evtW1 = s.evtW1 := by unfold writeSample; (repeat' split) <;> rfl
@[simp] theorem writeSample_evtW2 : (writeSample a v s).evtW2 = s.evtW2 := by unfold writeSample; (repeat' split) <;> rfl
@[simp] theorem writeSample_evtW3 : (writeSample a v s).evtW3 = s.evtW3 := by unfold writeSample; (repeat' split) <;> rfl
@[simp] theorem writeSample_outBase : (writeSample a v s).outBase = s.outBase := by unfold writeSample; (repeat' split) <;> rfl
@[simp] theorem writeSample_frames : (writeSample a v s).frames = s.frames := by unfold writeSample; (repeat' split) <;> rfl
@[simp] theorem writeSample_channels : (writeSample a v s).channels = s.channels := by unfold writeSample; (repeat' split) <;> rfl
@[simp] theorem writeSample_ovfCount : (writeSample a v s).ovfCount = s.ovfCount := by unfold writeSample; (repeat' split) <;> rfl
@[simp] theorem writeSample_badEvtCount : (writeSample a v s).badEvtCount = s.badEvtCount := by unfold writeSample; (repeat' split) <;> rfl
@[simp] theorem writeSample_cfgErrCount : (writeSample a v s).cfgErrCount = s.cfgErrCount := by unfold writeSample; (repeat' split) <;> rfl
@[simp] theorem writeSample_csrErrCount : (writeSample a v s).csrErrCount = s.csrErrCount := by unfold writeSample; (repeat' split) <;> rfl
@[simp] theorem writeSample_stealCount : (writeSample a v s).stealCount = s.stealCount := by unfold writeSample; (repeat' split) <;> rfl
@[simp] theorem writeSample_blockCount : (writeSample a v s).blockCount = s.blockCount := by unfold writeSample; (repeat' split) <;> rfl
@[simp] theorem writeSample_activeSnap : (writeSample a v s).activeSnap = s.activeSnap := by unfold writeSample; (repeat' split) <;> rfl
@[simp] theorem writeSample_lastErr : (writeSample a v s).lastErr = s.lastErr := by unfold writeSample; (repeat' split) <;> rfl
@[simp] theorem writeSample_pushResult : (writeSample a v s).pushResult = s.pushResult := by unfold writeSample; (repeat' split) <;> rfl
@[simp] theorem writeSample_irqPend : (writeSample a v s).irqPend = s.irqPend := by unfold writeSample; (repeat' split) <;> rfl
@[simp] theorem writeSample_irqEn : (writeSample a v s).irqEn = s.irqEn := by unfold writeSample; (repeat' split) <;> rfl
@[simp] theorem writeSample_voiceSel : (writeSample a v s).voiceSel = s.voiceSel := by unfold writeSample; (repeat' split) <;> rfl
@[simp] theorem writeSample_port : (writeSample a v s).port = s.port := by unfold writeSample; (repeat' split) <;> rfl
@[simp] theorem writeSample_rdata : (writeSample a v s).rdata = s.rdata := by unfold writeSample; (repeat' split) <;> rfl
@[simp] theorem writeSample_raced : (writeSample a v s).raced = s.raced := by unfold writeSample; (repeat' split) <;> rfl

/-! ### `finishBlock` (47_render_engine.md R272) -/

@[simp] theorem finishBlock_par : (finishBlock s).par = s.par := rfl
@[simp] theorem finishBlock_voices : (finishBlock s).voices = s.voices := rfl
@[simp] theorem finishBlock_p : (finishBlock s).p = s.p := rfl
@[simp] theorem finishBlock_fs : (finishBlock s).fs = s.fs := rfl
@[simp] theorem finishBlock_trigSeq : (finishBlock s).trigSeq = s.trigSeq := rfl
@[simp] theorem finishBlock_run : (finishBlock s).run = s.run := rfl
@[simp] theorem finishBlock_blkBase : (finishBlock s).blkBase = s.blkBase := rfl
@[simp] theorem finishBlock_blkFrames : (finishBlock s).blkFrames = s.blkFrames := rfl
@[simp] theorem finishBlock_blkChannels : (finishBlock s).blkChannels = s.blkChannels := rfl
@[simp] theorem finishBlock_fifo : (finishBlock s).fifo = s.fifo := rfl
@[simp] theorem finishBlock_wt : (finishBlock s).wt = s.wt := rfl
@[simp] theorem finishBlock_wtAddr : (finishBlock s).wtAddr = s.wtAddr := rfl
@[simp] theorem finishBlock_evtW1 : (finishBlock s).evtW1 = s.evtW1 := rfl
@[simp] theorem finishBlock_evtW2 : (finishBlock s).evtW2 = s.evtW2 := rfl
@[simp] theorem finishBlock_evtW3 : (finishBlock s).evtW3 = s.evtW3 := rfl
@[simp] theorem finishBlock_outBase : (finishBlock s).outBase = s.outBase := rfl
@[simp] theorem finishBlock_frames : (finishBlock s).frames = s.frames := rfl
@[simp] theorem finishBlock_channels : (finishBlock s).channels = s.channels := rfl
@[simp] theorem finishBlock_ovfCount : (finishBlock s).ovfCount = s.ovfCount := rfl
@[simp] theorem finishBlock_badEvtCount : (finishBlock s).badEvtCount = s.badEvtCount := rfl
@[simp] theorem finishBlock_cfgErrCount : (finishBlock s).cfgErrCount = s.cfgErrCount := rfl
@[simp] theorem finishBlock_csrErrCount : (finishBlock s).csrErrCount = s.csrErrCount := rfl
@[simp] theorem finishBlock_stealCount : (finishBlock s).stealCount = s.stealCount := rfl
@[simp] theorem finishBlock_lastErr : (finishBlock s).lastErr = s.lastErr := rfl
@[simp] theorem finishBlock_pushResult : (finishBlock s).pushResult = s.pushResult := rfl
@[simp] theorem finishBlock_irqEn : (finishBlock s).irqEn = s.irqEn := rfl
@[simp] theorem finishBlock_voiceSel : (finishBlock s).voiceSel = s.voiceSel := rfl
@[simp] theorem finishBlock_mem : (finishBlock s).mem = s.mem := rfl
@[simp] theorem finishBlock_port : (finishBlock s).port = s.port := rfl
@[simp] theorem finishBlock_rdata : (finishBlock s).rdata = s.rdata := rfl
@[simp] theorem finishBlock_draws : (finishBlock s).draws = s.draws := rfl

/-! ### `reclaim`, `vmNoteOff` and `steal` -/

@[simp] theorem reclaim_par : (reclaim s).par = s.par := rfl
@[simp] theorem reclaim_p : (reclaim s).p = s.p := rfl
@[simp] theorem reclaim_fs : (reclaim s).fs = s.fs := rfl
@[simp] theorem reclaim_trigSeq : (reclaim s).trigSeq = s.trigSeq := rfl
@[simp] theorem reclaim_run : (reclaim s).run = s.run := rfl
@[simp] theorem reclaim_engState : (reclaim s).engState = s.engState := rfl
@[simp] theorem reclaim_blkBase : (reclaim s).blkBase = s.blkBase := rfl
@[simp] theorem reclaim_blkFrames : (reclaim s).blkFrames = s.blkFrames := rfl
@[simp] theorem reclaim_blkChannels : (reclaim s).blkChannels = s.blkChannels := rfl
@[simp] theorem reclaim_fifo : (reclaim s).fifo = s.fifo := rfl
@[simp] theorem reclaim_wt : (reclaim s).wt = s.wt := rfl
@[simp] theorem reclaim_wtAddr : (reclaim s).wtAddr = s.wtAddr := rfl
@[simp] theorem reclaim_evtW1 : (reclaim s).evtW1 = s.evtW1 := rfl
@[simp] theorem reclaim_evtW2 : (reclaim s).evtW2 = s.evtW2 := rfl
@[simp] theorem reclaim_evtW3 : (reclaim s).evtW3 = s.evtW3 := rfl
@[simp] theorem reclaim_outBase : (reclaim s).outBase = s.outBase := rfl
@[simp] theorem reclaim_frames : (reclaim s).frames = s.frames := rfl
@[simp] theorem reclaim_channels : (reclaim s).channels = s.channels := rfl
@[simp] theorem reclaim_ovfCount : (reclaim s).ovfCount = s.ovfCount := rfl
@[simp] theorem reclaim_badEvtCount : (reclaim s).badEvtCount = s.badEvtCount := rfl
@[simp] theorem reclaim_cfgErrCount : (reclaim s).cfgErrCount = s.cfgErrCount := rfl
@[simp] theorem reclaim_csrErrCount : (reclaim s).csrErrCount = s.csrErrCount := rfl
@[simp] theorem reclaim_stealCount : (reclaim s).stealCount = s.stealCount := rfl
@[simp] theorem reclaim_blockCount : (reclaim s).blockCount = s.blockCount := rfl
@[simp] theorem reclaim_activeSnap : (reclaim s).activeSnap = s.activeSnap := rfl
@[simp] theorem reclaim_lastErr : (reclaim s).lastErr = s.lastErr := rfl
@[simp] theorem reclaim_pushResult : (reclaim s).pushResult = s.pushResult := rfl
@[simp] theorem reclaim_irqPend : (reclaim s).irqPend = s.irqPend := rfl
@[simp] theorem reclaim_irqEn : (reclaim s).irqEn = s.irqEn := rfl
@[simp] theorem reclaim_voiceSel : (reclaim s).voiceSel = s.voiceSel := rfl
@[simp] theorem reclaim_mem : (reclaim s).mem = s.mem := rfl
@[simp] theorem reclaim_port : (reclaim s).port = s.port := rfl
@[simp] theorem reclaim_rdata : (reclaim s).rdata = s.rdata := rfl
@[simp] theorem reclaim_draws : (reclaim s).draws = s.draws := rfl
@[simp] theorem reclaim_raced : (reclaim s).raced = s.raced := rfl
@[simp] theorem reclaim_voices : (reclaim s).voices = s.voices.map reclaimVoice := rfl
@[simp] theorem vmNoteOff_par : (vmNoteOff n s).par = s.par := rfl
@[simp] theorem vmNoteOff_p : (vmNoteOff n s).p = s.p := rfl
@[simp] theorem vmNoteOff_fs : (vmNoteOff n s).fs = s.fs := rfl
@[simp] theorem vmNoteOff_trigSeq : (vmNoteOff n s).trigSeq = s.trigSeq := rfl
@[simp] theorem vmNoteOff_run : (vmNoteOff n s).run = s.run := rfl
@[simp] theorem vmNoteOff_engState : (vmNoteOff n s).engState = s.engState := rfl
@[simp] theorem vmNoteOff_blkBase : (vmNoteOff n s).blkBase = s.blkBase := rfl
@[simp] theorem vmNoteOff_blkFrames : (vmNoteOff n s).blkFrames = s.blkFrames := rfl
@[simp] theorem vmNoteOff_blkChannels : (vmNoteOff n s).blkChannels = s.blkChannels := rfl
@[simp] theorem vmNoteOff_fifo : (vmNoteOff n s).fifo = s.fifo := rfl
@[simp] theorem vmNoteOff_wt : (vmNoteOff n s).wt = s.wt := rfl
@[simp] theorem vmNoteOff_wtAddr : (vmNoteOff n s).wtAddr = s.wtAddr := rfl
@[simp] theorem vmNoteOff_evtW1 : (vmNoteOff n s).evtW1 = s.evtW1 := rfl
@[simp] theorem vmNoteOff_evtW2 : (vmNoteOff n s).evtW2 = s.evtW2 := rfl
@[simp] theorem vmNoteOff_evtW3 : (vmNoteOff n s).evtW3 = s.evtW3 := rfl
@[simp] theorem vmNoteOff_outBase : (vmNoteOff n s).outBase = s.outBase := rfl
@[simp] theorem vmNoteOff_frames : (vmNoteOff n s).frames = s.frames := rfl
@[simp] theorem vmNoteOff_channels : (vmNoteOff n s).channels = s.channels := rfl
@[simp] theorem vmNoteOff_ovfCount : (vmNoteOff n s).ovfCount = s.ovfCount := rfl
@[simp] theorem vmNoteOff_badEvtCount : (vmNoteOff n s).badEvtCount = s.badEvtCount := rfl
@[simp] theorem vmNoteOff_cfgErrCount : (vmNoteOff n s).cfgErrCount = s.cfgErrCount := rfl
@[simp] theorem vmNoteOff_csrErrCount : (vmNoteOff n s).csrErrCount = s.csrErrCount := rfl
@[simp] theorem vmNoteOff_stealCount : (vmNoteOff n s).stealCount = s.stealCount := rfl
@[simp] theorem vmNoteOff_blockCount : (vmNoteOff n s).blockCount = s.blockCount := rfl
@[simp] theorem vmNoteOff_activeSnap : (vmNoteOff n s).activeSnap = s.activeSnap := rfl
@[simp] theorem vmNoteOff_lastErr : (vmNoteOff n s).lastErr = s.lastErr := rfl
@[simp] theorem vmNoteOff_pushResult : (vmNoteOff n s).pushResult = s.pushResult := rfl
@[simp] theorem vmNoteOff_irqPend : (vmNoteOff n s).irqPend = s.irqPend := rfl
@[simp] theorem vmNoteOff_irqEn : (vmNoteOff n s).irqEn = s.irqEn := rfl
@[simp] theorem vmNoteOff_voiceSel : (vmNoteOff n s).voiceSel = s.voiceSel := rfl
@[simp] theorem vmNoteOff_mem : (vmNoteOff n s).mem = s.mem := rfl
@[simp] theorem vmNoteOff_port : (vmNoteOff n s).port = s.port := rfl
@[simp] theorem vmNoteOff_rdata : (vmNoteOff n s).rdata = s.rdata := rfl
@[simp] theorem vmNoteOff_draws : (vmNoteOff n s).draws = s.draws := rfl
@[simp] theorem vmNoteOff_raced : (vmNoteOff n s).raced = s.raced := rfl
@[simp] theorem steal_par : (steal i s).par = s.par := rfl
@[simp] theorem steal_p : (steal i s).p = s.p := rfl
@[simp] theorem steal_fs : (steal i s).fs = s.fs := rfl
@[simp] theorem steal_trigSeq : (steal i s).trigSeq = s.trigSeq := rfl
@[simp] theorem steal_run : (steal i s).run = s.run := rfl
@[simp] theorem steal_engState : (steal i s).engState = s.engState := rfl
@[simp] theorem steal_blkBase : (steal i s).blkBase = s.blkBase := rfl
@[simp] theorem steal_blkFrames : (steal i s).blkFrames = s.blkFrames := rfl
@[simp] theorem steal_blkChannels : (steal i s).blkChannels = s.blkChannels := rfl
@[simp] theorem steal_fifo : (steal i s).fifo = s.fifo := rfl
@[simp] theorem steal_wt : (steal i s).wt = s.wt := rfl
@[simp] theorem steal_wtAddr : (steal i s).wtAddr = s.wtAddr := rfl
@[simp] theorem steal_evtW1 : (steal i s).evtW1 = s.evtW1 := rfl
@[simp] theorem steal_evtW2 : (steal i s).evtW2 = s.evtW2 := rfl
@[simp] theorem steal_evtW3 : (steal i s).evtW3 = s.evtW3 := rfl
@[simp] theorem steal_outBase : (steal i s).outBase = s.outBase := rfl
@[simp] theorem steal_frames : (steal i s).frames = s.frames := rfl
@[simp] theorem steal_channels : (steal i s).channels = s.channels := rfl
@[simp] theorem steal_ovfCount : (steal i s).ovfCount = s.ovfCount := rfl
@[simp] theorem steal_badEvtCount : (steal i s).badEvtCount = s.badEvtCount := rfl
@[simp] theorem steal_cfgErrCount : (steal i s).cfgErrCount = s.cfgErrCount := rfl
@[simp] theorem steal_csrErrCount : (steal i s).csrErrCount = s.csrErrCount := rfl
@[simp] theorem steal_blockCount : (steal i s).blockCount = s.blockCount := rfl
@[simp] theorem steal_activeSnap : (steal i s).activeSnap = s.activeSnap := rfl
@[simp] theorem steal_lastErr : (steal i s).lastErr = s.lastErr := rfl
@[simp] theorem steal_pushResult : (steal i s).pushResult = s.pushResult := rfl
@[simp] theorem steal_irqPend : (steal i s).irqPend = s.irqPend := rfl
@[simp] theorem steal_irqEn : (steal i s).irqEn = s.irqEn := rfl
@[simp] theorem steal_voiceSel : (steal i s).voiceSel = s.voiceSel := rfl
@[simp] theorem steal_mem : (steal i s).mem = s.mem := rfl
@[simp] theorem steal_port : (steal i s).port = s.port := rfl
@[simp] theorem steal_rdata : (steal i s).rdata = s.rdata := rfl
@[simp] theorem steal_draws : (steal i s).draws = s.draws := rfl
@[simp] theorem steal_raced : (steal i s).raced = s.raced := rfl
@[simp] theorem steal_voices : (steal i s).voices = s.voices.modify i (releaseVoice s.p.releaseSamples) := rfl
@[simp] theorem steal_stealCount : (steal i s).stealCount = s.stealCount + 1 := rfl

end Sys2Proof.Machine
end

