-- ==== Sys2Proof/Laws/Memory.lean ====
section
/-! SUPPORT. Host memory (20_memory.md R80, R84): a read after a write, the canonical form kept by every operation,
the bytes of a word. -/

namespace Sys2Proof.Machine

/-- A byte read after it is written. -/
@[simp] theorem readByte_writeByte_same (a : Nat) (b : Byte) (m : Memory) : readByte a (writeByte a b m) = some b := by
  induction m with
  | nil => simp [writeByte, readByte]
  | cons c m ih =>
    obtain ⟨k, d⟩ := c
    unfold writeByte
    split
    · simp [readByte]
    · split
      · simp [readByte]
      · rename_i h1 h2
        simp only [readByte]
        rw [if_neg (by omega), ih]

/-- A byte written leaves every other byte. -/
theorem readByte_writeByte_ne {a k : Nat} (b : Byte) {m : Memory} (hm : Memory.wf m) (h : k ≠ a) :
    readByte k (writeByte a b m) = readByte k m := by
  induction m with
  | nil => simp [writeByte, readByte, Ne.symm h]
  | cons c m ih =>
    obtain ⟨j, d⟩ := c
    have hm' : Memory.wf m := by
      unfold Memory.wf at hm ⊢
      rw [List.map_cons, List.pairwise_cons] at hm
      exact hm.2
    unfold writeByte
    split
    · simp only [readByte]
      rw [if_neg (Ne.symm h)]
    · split
      · rename_i h1 h2
        subst h2
        simp only [readByte]
        rw [if_neg (Ne.symm h), if_neg (Ne.symm h)]
      · simp only [readByte]
        rw [ih hm']

/-- The addresses after a write: the old ones and the written one. -/
theorem mem_writeByte {a : Nat} {b : Byte} {m : Memory} {x : Nat} :
    x ∈ (writeByte a b m).map (·.1) → x = a ∨ x ∈ m.map (·.1) := by
  induction m with
  | nil => simp [writeByte]
  | cons c m ih =>
    obtain ⟨j, d⟩ := c
    unfold writeByte
    split
    · simp
    · split
      · simp_all
      · simp only [List.map_cons, List.mem_cons]
        rintro (h | h)
        · exact Or.inr (Or.inl h)
        · rcases ih h with h | h
          · exact Or.inl h
          · exact Or.inr (Or.inr h)

/-- A byte written keeps the canonical form. -/
theorem writeByte_wf (a : Nat) (b : Byte) {m : Memory} (hm : Memory.wf m) : Memory.wf (writeByte a b m) := by
  unfold Memory.wf at *
  induction m with
  | nil => simp [writeByte]
  | cons c m ih =>
    obtain ⟨j, d⟩ := c
    rw [List.map_cons, List.pairwise_cons] at hm
    unfold writeByte
    split
    · rename_i h1
      rw [List.map_cons, List.map_cons, List.pairwise_cons, List.pairwise_cons]
      refine ⟨?_, hm⟩
      intro x hx
      rcases List.mem_cons.1 hx with h | h
      · subst h; exact h1
      · exact Nat.lt_trans h1 (hm.1 x h)
    · split
      · rename_i h1 h2
        subst h2
        rw [List.map_cons, List.pairwise_cons]
        exact hm
      · rename_i h1 h2
        rw [List.map_cons, List.pairwise_cons]
        refine ⟨?_, ih hm.2⟩
        intro x hx
        rcases mem_writeByte hx with h | h
        · subst h
          change j < x
          omega
        · exact hm.1 x h

/-- A word written keeps the canonical form. -/
theorem writeWord_wf (a : Nat) (v : Word) {m : Memory} (hm : Memory.wf m) : Memory.wf (writeWord a v m) :=
  writeByte_wf _ _ (writeByte_wf _ _ (writeByte_wf _ _ (writeByte_wf _ _ hm)))

/-- A word written leaves every byte outside its four. -/
theorem readByte_writeWord_ne {a k : Nat} (v : Word) {m : Memory} (hm : Memory.wf m) (h : k < a ∨ a + 4 ≤ k) :
    readByte k (writeWord a v m) = readByte k m := by
  have w0 := writeByte_wf a (v.extractLsb' 0 8) hm
  have w1 := writeByte_wf (a + 1) (v.extractLsb' 8 8) w0
  have w2 := writeByte_wf (a + 2) (v.extractLsb' 16 8) w1
  unfold writeWord
  rw [readByte_writeByte_ne _ w2 (by omega), readByte_writeByte_ne _ w1 (by omega),
    readByte_writeByte_ne _ w0 (by omega), readByte_writeByte_ne _ hm (by omega)]

/-- Byte k of a word written is its byte lane k: little-endian (20_memory.md R84). -/
theorem readByte_writeWord_lane (a : Nat) (v : Word) {m : Memory} (hm : Memory.wf m) (k : Fin 4) :
    readByte (a + k.val) (writeWord a v m) = some (byteLane v k) := by
  have w0 := writeByte_wf a (v.extractLsb' 0 8) hm
  have w1 := writeByte_wf (a + 1) (v.extractLsb' 8 8) w0
  have w2 := writeByte_wf (a + 2) (v.extractLsb' 16 8) w1
  unfold writeWord byteLane
  match k with
  | ⟨0, _⟩ =>
    rw [readByte_writeByte_ne _ w2 (by simp), readByte_writeByte_ne _ w1 (by simp), readByte_writeByte_ne _ w0 (by simp)]
    exact readByte_writeByte_same _ _ _
  | ⟨1, _⟩ =>
    rw [readByte_writeByte_ne _ w2 (by simp), readByte_writeByte_ne _ w1 (by simp)]
    exact readByte_writeByte_same _ _ _
  | ⟨2, _⟩ =>
    rw [readByte_writeByte_ne _ w2 (by simp)]
    exact readByte_writeByte_same _ _ _
  | ⟨3, _⟩ => exact readByte_writeByte_same _ _ _

/-- The bytes of a word put together again. -/
theorem word_of_lanes (v : Word) :
    (v.extractLsb' 24 8 ++ v.extractLsb' 16 8 ++ v.extractLsb' 8 8 ++ v.extractLsb' 0 8 : BitVec 32) = v := by
  rw [BitVec.extractLsb'_append_extractLsb'_eq_extractLsb' (by omega),
    BitVec.extractLsb'_append_extractLsb'_eq_extractLsb' (by omega),
    BitVec.extractLsb'_append_extractLsb'_eq_extractLsb' (by omega)]
  exact BitVec.extractLsb'_eq_self

/-- A word read after it is written. -/
theorem readWord_writeWord (a : Nat) (v : Word) {m : Memory} (hm : Memory.wf m) :
    readWord a (writeWord a v m) = some v := by
  have h0 := readByte_writeWord_lane a v hm 0
  have h1 := readByte_writeWord_lane a v hm 1
  have h2 := readByte_writeWord_lane a v hm 2
  have h3 := readByte_writeWord_lane a v hm 3
  simp only [Fin.val_zero, Nat.add_zero] at h0
  change readByte (a + 1) _ = _ at h1
  change readByte (a + 2) _ = _ at h2
  change readByte (a + 3) _ = _ at h3
  unfold readWord
  rw [h0, h1, h2, h3]
  exact congrArg some (word_of_lanes v)

/-- A word written leaves a word apart from it. -/
theorem readWord_writeWord_ne {a k : Nat} (v : Word) {m : Memory} (hm : Memory.wf m) (h : k + 4 ≤ a ∨ a + 4 ≤ k) :
    readWord k (writeWord a v m) = readWord k m := by
  unfold readWord
  rw [readByte_writeWord_ne v hm (k := k + 3) (by omega), readByte_writeWord_ne v hm (k := k + 2) (by omega),
    readByte_writeWord_ne v hm (k := k + 1) (by omega), readByte_writeWord_ne v hm (k := k) (by omega)]

/-- Host memory is in its canonical form at reset. -/
theorem reset_mem_wf (par : Params) : Memory.wf (State.resetOf par).mem := by simp [State.resetOf, Memory.wf]

/-- One output word written keeps the canonical form. -/
theorem writeSample_wf (a : Nat) (v : Word) {s : State} (h : Memory.wf s.mem) : Memory.wf (writeSample a v s).mem := by
  unfold writeSample
  (repeat' split) <;> first | exact h | exact writeWord_wf a v h

/-- A host's write of a word keeps the canonical form. -/
theorem hostWrite_wf {w : BitVec 30} {v : Word} {s t : State} (h : Memory.wf s.mem) (e : hostWrite w v s = .ok t) :
    Memory.wf t.mem := by
  unfold hostWrite at e
  (repeat' split at e) <;> cases e <;> exact writeWord_wf _ _ h

/-- A host's read of a word leaves host memory. -/
theorem hostRead_mem {w : BitVec 30} {s t : State} (e : hostRead w s = .ok t) : t.mem = s.mem := by
  unfold hostRead at e
  (repeat' split at e) <;> cases e <;> rfl

end Sys2Proof.Machine
end

