-- ==== Sys2Proof/Laws/Ops.lean ====
section
/-! SUPPORT. For each shared operation, once, everything it can do: the guards, the reads, the refusals, the output
writes, host memory. -/

namespace Sys2Proof.Machine

variable {s t : State}

/-! ### Guards and reads -/

theorem unlessBusy_busy (h : busy s = true) (x : Byte) (f : State → State) :
    unlessBusy x f s = raiseError .csrBusy x s := if_pos h

theorem unlessBusy_idle (h : busy s = false) (x : Byte) (f : State → State) : unlessBusy x f s = f s := by
  unfold unlessBusy; rw [h]; rfl

/-- A guarded write is refused while BUSY, else performed (48_host_interface.md R294). -/
theorem unlessBusy_cases (x : Byte) (f : State → State) (s : State) :
    (busy s = true ∧ unlessBusy x f s = raiseError .csrBusy x s) ∨ (busy s = false ∧ unlessBusy x f s = f s) := by
  cases h : busy s
  · exact Or.inr ⟨rfl, unlessBusy_idle h x f⟩
  · exact Or.inl ⟨rfl, unlessBusy_busy h x f⟩

theorem whenStopped_stopped (h : busy s = false) (hr : s.run = false) (x : Byte) (f : State → State) :
    whenStopped x f s = f s := by
  unfold whenStopped; rw [h, hr]; rfl

/-- A stopped-only write is refused while BUSY, then while running, else performed (R290). -/
theorem whenStopped_cases (x : Byte) (f : State → State) (s : State) :
    (busy s = true ∧ whenStopped x f s = raiseError .csrBusy x s) ∨
      (busy s = false ∧ s.run = true ∧ whenStopped x f s = raiseError .csrRunning x s) ∨
      (busy s = false ∧ s.run = false ∧ whenStopped x f s = f s) := by
  unfold whenStopped
  cases h : busy s
  · cases hr : s.run
    · exact Or.inr (Or.inr ⟨rfl, rfl, rfl⟩)
    · exact Or.inr (Or.inl ⟨rfl, rfl, rfl⟩)
  · exact Or.inl ⟨rfl, rfl⟩

/-- A read writes `rdata` and takes at most one free value, and nothing else (20_memory.md R87). -/
theorem returnUnlessBusy_eq (v : Word) (s : State) :
    returnUnlessBusy v s = { s with rdata := (returnUnlessBusy v s).rdata, draws := (returnUnlessBusy v s).draws } := by
  unfold returnUnlessBusy; split <;> rfl

theorem returnUnlessBusy_idle (h : busy s = false) (v : Word) : returnUnlessBusy v s = { s with rdata := v } := by
  unfold returnUnlessBusy; rw [h]; rfl

theorem returnUnlessBusy_busy (h : busy s = true) (v : Word) :
    returnUnlessBusy v s = { s with rdata := Config.freeWord s.draws, draws := s.draws + 1 } := by
  unfold returnUnlessBusy; rw [h]; rfl

/-- A read of the table writes `rdata` and takes at most one free value. -/
theorem readTable_eq (s : State) : readTable s = { s with rdata := (readTable s).rdata, draws := (readTable s).draws } := by
  unfold readTable; split <;> rfl

/-- A refused access is an error recorded on a state that differs in `rdata` alone. -/
theorem refuseAccess_eq (w : Bool) (c : ErrCode) (x : Byte) (s : State) :
    refuseAccess w c x s = raiseError c x { s with rdata := if w then s.rdata else 0 } := by
  cases w <;> rfl

/-! ### Output and host memory -/

/-- An output write changes memory and takes at most one free value. -/
theorem writeSample_eq (a : Nat) (v : Word) (s : State) :
    writeSample a v s = { s with mem := (writeSample a v s).mem, draws := (writeSample a v s).draws } := by
  unfold writeSample; (repeat' split) <;> rfl

/-- An output write to a word the host has not raced is a plain write (47_render_engine.md R276). -/
theorem writeSample_plain {a : Nat} (h : a ∉ s.raced) (v : Word) :
    writeSample a v s = { s with mem := writeWord a v s.mem } := if_neg h

/-- A host's read answers a word and leaves everything else. -/
theorem hostRead_cases {w : BitVec 30} (h : hostRead w s = .ok t) : t = { s with rdata := t.rdata, draws := t.draws } := by
  unfold hostRead at h
  (repeat' split at h) <;> cases h <;> rfl

/-- A host's write writes its word; in the output range of a block in flight it is remembered as a race. -/
theorem hostWrite_cases {w : BitVec 30} {v : Word} (h : hostWrite w v s = .ok t) :
    t = { s with mem := writeWord (4 * w.toNat) v s.mem,
                 raced := if inFlight s (4 * w.toNat) then (4 * w.toNat) :: s.raced else s.raced } := by
  unfold hostWrite at h
  split at h <;> rename_i hf
  · cases h; simp [hf]
  · split at h <;> cases h; simp [hf]

/-! ### Channels of a frame -/

/-- The channels of a frame change memory and the free values taken, and nothing else. -/
theorem writeChannels_cases (m : Word) (f n c : Nat) (s : State) :
    ∃ mem' draws', writeChannels m f n c s = { s with mem := mem', draws := draws' } := by
  induction n generalizing c s with
  | zero => exact ⟨s.mem, s.draws, rfl⟩
  | succ n ih =>
    obtain ⟨m1, d1, h1⟩ := ih (c + 1) (writeSample (sampleAddr s f c) m s)
    refine ⟨m1, d1, ?_⟩
    rw [writeChannels, h1, writeSample_eq]

theorem writeChannels_wf (m : Word) (f n c : Nat) (s : State) (h : Memory.wf s.mem) :
    Memory.wf (writeChannels m f n c s).mem := by
  induction n generalizing c s with
  | zero => exact h
  | succ n ih => exact ih _ _ (writeSample_wf _ _ h)

end Sys2Proof.Machine
end

