-- ==== Sys2Proof/Laws/Step.lean ====
section
/-! SUPPORT. Everything one instruction and one turn can do, said once (`Effect`, `exec_effect`, `step_cases`): a proof
about every step goes through these and unfolds no meaning. -/

namespace Sys2Proof.Machine

/-- What a well-formed instruction can make of a state. -/
inductive Effect (s : State) : State → Prop
  /-- A read: the word returned and the free values taken. -/
  | read (r : Word) (d : Nat) : Effect s { s with rdata := r, draws := d }
  /-- An error recorded (60_exceptions.md R331), with the word a refused read returns. -/
  | error (c : ErrCode) (x : Byte) (r : Word) : Effect s (raiseError c x { s with rdata := r })
  /-- `CTRL` written: the run bit (48_host_interface.md R295). -/
  | setRun (h : busy s = false) (b : Bool) : Effect s { s with run := b }
  /-- `CTRL` written: a soft reset (R295). -/
  | reset (h : busy s = false) : Effect s (softReset s)
  /-- `EVT_W0` written: a push (R298). -/
  | push (e : EvtWord) : Effect s (pushEvent e s)
  /-- A staging register, `IRQ_ENABLE` or `VOICE_SEL` written (R299, R303, R304). -/
  | store (w1 w2 w3 : Word) (en : BitVec 5) (sel : BitVec 16) :
      Effect s { s with evtW1 := w1, evtW2 := w2, evtW3 := w3, irqEn := en, voiceSel := sel }
  /-- `OUT_BASE`, `FRAMES` or `CHANNELS` written (R301). -/
  | operand (h : busy s = false) (b f c : Word) : Effect s { s with outBase := b, frames := f, channels := c }
  /-- `IRQ_STATUS` written (R302). -/
  | ack (m : BitVec 5) : Effect s (ackIrq m s)
  /-- `RENDER` written with GO = 0 (R300). -/
  | nothing : Effect s s
  /-- A render command accepted (R300). -/
  | accept (h : busy s = false) (hr : s.run = true) (ha : s.outBase.toNat % 4 = 0) (hc : s.channels ≠ 0)
      (ht : s.outBase.toNat + 4 * s.frames.toNat * s.channels.toNat ≤ 2 ^ 32) :
      Effect s { s with blkBase := s.outBase, blkFrames := s.frames, blkChannels := s.channels, engState := .drain }
  /-- A legal `CFG_FS` written (R306). -/
  | rate (h : busy s = false) (hr : s.run = false) (v : Word) (hv : isSampleRate v = true) : Effect s
      { s with fs := v, p := { s.p with coef := coefFn s.p.cutoffHz v },
               voices := s.voices.map fun x => { x with inc := incFor s.par.tableLen v x.note } }
  /-- `WT_ADDR` written (R307). -/
  | tableAddr (h : busy s = false) (hr : s.run = false) (v : Word) : Effect s (setTableAddr v s)
  /-- A legal `WT_DATA` written (R309). -/
  | load (h : busy s = false) (hr : s.run = false) (v : Word) (hv : isTableValue v = true) : Effect s
      { s with wt := s.wt.set s.wtAddr.toNat { value := v, written := true },
               wtAddr := BitVec.ofNat 16 ((s.wtAddr.toNat + 1) % s.par.tableLen) }
  /-- A note-on of a legal velocity (45_voice_manager.md R200). -/
  | noteOn (n : BitVec 7) (vel : Word) (hv : isUnit32 vel = true) : Effect s (vmNoteOn n vel s)
  /-- A note-off (R207). -/
  | noteOff (n : BitVec 7) : Effect s (vmNoteOff n s)
  /-- A control change (46_event_intake.md R240). -/
  | cc (id : Byte) (v : Word) : Effect s (applyCC id v s)
  /-- `DrainStep` (47_render_engine.md R271). -/
  | drain (h : s.engState = .drain) : Effect s (drainBlock s)
  /-- `RenderStep` (R272). -/
  | render (h : s.engState = .render) (ha : renderAdmitted s = true) (u : State)
      (hu : renderFrames s.blkFrames.toNat 0 s = .ok u) : Effect s (finishBlock u)

variable {s t : State}

/-- An error with nothing returned. -/
theorem Effect.err (c : ErrCode) (x : Byte) : Effect s (raiseError c x s) := Effect.error c x s.rdata

theorem Effect.readOf (h : t = { s with rdata := t.rdata, draws := t.draws }) : Effect s t := by
  rw [h]; exact Effect.read _ _

theorem Effect.returnUnlessBusy (v : Word) : Effect s (returnUnlessBusy v s) := Effect.readOf (returnUnlessBusy_eq v s)

theorem Effect.refuse (w : Bool) (c : ErrCode) (x : Byte) : Effect s (refuseAccess w c x s) := by
  rw [refuseAccess_eq]; exact Effect.error _ _ _

theorem Effect.unlessBusy {x : Byte} {f : State → State} (h : busy s = false → Effect s (f s)) :
    Effect s (unlessBusy x f s) := by
  rcases unlessBusy_cases x f s with ⟨_, e⟩ | ⟨hb, e⟩ <;> rw [e]
  · exact Effect.err _ _
  · exact h hb

theorem Effect.whenStopped {x : Byte} {f : State → State} (h : busy s = false → s.run = false → Effect s (f s)) :
    Effect s (whenStopped x f s) := by
  rcases whenStopped_cases x f s with ⟨_, e⟩ | ⟨_, _, e⟩ | ⟨hb, hr, e⟩ <;> rw [e]
  · exact Effect.err _ _
  · exact Effect.err _ _
  · exact h hb hr

theorem Effect.renderCommand (v : Word) : Effect s (renderCommand v s) := by
  unfold Machine.renderCommand
  split
  · exact Effect.nothing
  · split
    · exact Effect.err _ _
    · split
      · exact Effect.err _ _
      · split
        · exact Effect.err _ _
        · split
          · exact Effect.err _ _
          · split
            · exact Effect.err _ _
            · rename_i h1 h2 h3 h4 h5
              exact Effect.accept (by simpa using h1) (by simpa using h2) (by omega) h4 (by omega)

/-- What `RenderStep` can do (47_render_engine.md R272): nothing where the engine is stuck, else the whole block. -/
theorem renderStep_cases (h : exec .renderStep s = .next t) :
    (s.engState = .render ∧ renderAdmitted s = false ∧ t = s) ∨
      (s.engState = .render ∧ renderAdmitted s = true ∧
        ∃ u, renderFrames s.blkFrames.toNat 0 s = .ok u ∧ t = finishBlock u) := by
  change execRenderStep s = _ at h
  unfold execRenderStep at h
  split at h
  · rename_i hd
    split at h
    · rename_i ha
      split at h
      · rename_i u hu; cases h; exact Or.inr ⟨hd, ha, u, hu, rfl⟩
      · cases h
    · rename_i ha; cases h; exact Or.inl ⟨hd, by simpa using ha, rfl⟩
  · cases h

/-- Every next state of a well-formed instruction is one of its effects. -/
theorem exec_effect {i : Instr} (hw : i.wf = true) (h : exec i s = .next t) : Effect s t := by
  cases i
  all_goals try (first
    | (cases h; exact Effect.err _ _)
    | (cases h; exact Effect.read _ _)
    | (cases h; exact Effect.returnUnlessBusy _)
    | (cases h; exact Effect.refuse _ _ _))
  case noteOn n vel ts => cases h; exact Effect.noteOn _ _ hw
  case noteOff n ts => cases h; exact Effect.noteOff _
  case ccAttackSamples v ts => cases h; exact Effect.cc 0x01 v
  case ccDecaySamples v ts => cases h; exact Effect.cc 0x02 v
  case ccSustainLevel v ts => cases h; exact Effect.cc 0x03 v
  case ccReleaseSamples v ts => cases h; exact Effect.cc 0x04 v
  case ccCutoffHz v ts => cases h; exact Effect.cc 0x05 v
  case ccFilterEnable v ts => cases h; exact Effect.cc 0x06 v
  case ccHeadroom v ts => cases h; exact Effect.cc 0x07 v
  case ccSoftclipEnable v ts => cases h; exact Effect.cc 0x08 v
  case ccPhaseReset v ts => cases h; exact Effect.cc 0x09 v
  case ccRetrigMode v ts => cases h; exact Effect.cc 0x0A v
  case rdWtData => cases h; exact Effect.readOf (readTable_eq s)
  case wrCtrl v =>
    cases h
    refine Effect.unlessBusy fun hb => ?_
    unfold writeCtrl
    split
    · exact Effect.reset hb
    · exact Effect.setRun hb _
  case wrEvtW0 v => cases h; exact Effect.push _
  case wrEvtW1 v => cases h; exact Effect.store v s.evtW2 s.evtW3 s.irqEn s.voiceSel
  case wrEvtW2 v => cases h; exact Effect.store s.evtW1 v s.evtW3 s.irqEn s.voiceSel
  case wrEvtW3 v => cases h; exact Effect.store s.evtW1 s.evtW2 v s.irqEn s.voiceSel
  case wrIrqEnable v => cases h; exact Effect.store s.evtW1 s.evtW2 s.evtW3 (v.extractLsb' 0 5) s.voiceSel
  case wrVoiceSel v => cases h; exact Effect.store s.evtW1 s.evtW2 s.evtW3 s.irqEn (v.extractLsb' 0 16)
  case wrRender v => cases h; exact Effect.renderCommand v
  case wrOutBase v => cases h; exact Effect.unlessBusy fun hb => Effect.operand hb v s.frames s.channels
  case wrFrames v => cases h; exact Effect.unlessBusy fun hb => Effect.operand hb s.outBase v s.channels
  case wrChannels v => cases h; exact Effect.unlessBusy fun hb => Effect.operand hb s.outBase s.frames v
  case wrIrqStatus v => cases h; exact Effect.ack _
  case wrCfgFs v =>
    cases h
    refine Effect.whenStopped fun hb hr => ?_
    unfold setSampleRate
    split
    · rename_i hv; exact Effect.rate hb hr v hv
    · exact Effect.err _ _
  case wrWtAddr v => cases h; exact Effect.whenStopped fun hb hr => Effect.tableAddr hb hr v
  case wrWtData v =>
    cases h
    refine Effect.whenStopped fun hb hr => ?_
    unfold loadTable
    split
    · rename_i hv; exact Effect.load hb hr v hv
    · exact Effect.err _ _
  case drainStep =>
    change execDrainStep s = _ at h
    unfold execDrainStep at h
    split at h
    · rename_i hd; cases h; exact Effect.drain hd
    · cases h
  case renderStep =>
    rcases renderStep_cases h with ⟨_, _, rfl⟩ | ⟨hd, ha, u, hu, rfl⟩
    · exact Effect.nothing
    · exact Effect.render hd ha u hu

/-! ### Turns -/

theorem mem_of_atOffset {α : Type} {off : Nat} {x : α} :
    ∀ {l : List (Nat × α)}, atOffset off l = some x → (off, x) ∈ l
  | [], h => by cases h
  | (o, y) :: l, h => by
    unfold atOffset at h
    split at h
    · rename_i ho; cases h; subst ho; exact List.mem_cons_self
    · exact List.mem_cons_of_mem _ (mem_of_atOffset h)

theorem reads_wf : ∀ x ∈ rwReads ++ roReads, x.2.wf = true := by decide

theorem writes_wf (v : Word) : ∀ x ∈ rwWrites ++ roWrites, (x.2 v).wf = true := by
  simp [rwWrites, roWrites, Instr.wf]

theorem reservedInstr_wf (w : Bool) (off : BitVec 9) (v : Word) (h : w = true ∨ v = 0) :
    (reservedInstr w off v).wf = true := by
  unfold reservedInstr
  repeat' split
  all_goals (rcases h with rfl | rfl <;> simp [Instr.wf])

/-- An access decodes to a well-formed instruction. -/
theorem decodeAccess_wf {a : CsrAccess} {i : Instr} (h : decodeAccess a = .instr i) : i.wf = true := by
  unfold decodeAccess at h
  split at h
  · cases h
  · split at h
    · split at h
      · rename_i f hf; cases h; exact writes_wf _ _ (mem_of_atOffset hf)
      · cases h; exact reservedInstr_wf _ _ _ (Or.inl rfl)
    · split at h
      · rename_i j hj; cases h; exact reads_wf _ (mem_of_atOffset hj)
      · cases h; exact reservedInstr_wf _ _ _ (Or.inr rfl)

theorem decodeEngine_wf {c : BitVec 2} {i : Instr} (h : decodeEngine c = .instr i) : i.wf = true := by
  unfold decodeEngine at h
  (repeat' split at h) <;> cases h <;> rfl

/-- The state with the turn taken off the port. -/
def popPort (s : State) : State := { s with port := s.port.tail }

/-- What one turn does: an effect of an instruction, a host's write of host memory, or nothing. -/
inductive TurnEffect (s : State) : State → Prop
  | effect {t : State} (h : Effect s t) : TurnEffect s t
  | memWrite (a : Nat) (v : Word) (r : List Nat) : TurnEffect s { s with mem := writeWord a v s.mem, raced := r }

theorem fetchEngine_run {i : Instr} {u : State} (h : fetchEngine s = .run i u) : u = s ∧ i.wf = true := by
  unfold fetchEngine at h
  split at h
  · rename_i j hj; cases h; exact ⟨rfl, decodeEngine_wf hj⟩
  · cases h
  · cases h

theorem fetchEngine_done {u : State} (h : fetchEngine s = .done u) : u = s := by
  unfold fetchEngine at h
  split at h
  · cases h
  · cases h; rfl
  · cases h

theorem popPort_cons {x : Turn} {rest : List Turn} (h : s.port = x :: rest) : popPort s = { s with port := rest } := by
  rw [popPort, h]; rfl

theorem popPort_nil (h : s.port = []) : popPort s = s := by rw [popPort, h, List.tail_nil, ← h]

/-- Everything one step can do (60_exceptions.md R341). -/
theorem step_cases (h : step s = .next t) : TurnEffect (popPort s) t := by
  unfold step at h
  cases hf : fetch s with
  | run i u =>
    rw [hf] at h
    have key : u = popPort s ∧ i.wf = true := by
      unfold fetch at hf
      split at hf
      · rename_i hp
        have := fetchEngine_run hf
        exact ⟨by rw [this.1, popPort_nil hp], this.2⟩
      · rename_i rest hp
        have := fetchEngine_run hf
        exact ⟨by rw [this.1, popPort_cons hp], this.2⟩
      · rename_i a rest hp
        unfold fetchAccess at hf
        split at hf
        · rename_i j hj
          cases hf
          exact ⟨(popPort_cons hp).symm, decodeAccess_wf hj⟩
        · cases hf
        · cases hf
      · unfold fetchMemory at hf; split at hf <;> cases hf
      · unfold fetchMemory at hf; split at hf <;> cases hf
    exact TurnEffect.effect (by rw [← key.1]; exact exec_effect key.2 h)
  | done u =>
    rw [hf] at h
    cases h
    unfold fetch at hf
    split at hf
    · rename_i hp
      rw [fetchEngine_done hf, popPort_nil hp]
      exact TurnEffect.effect Effect.nothing
    · rename_i rest hp
      rw [fetchEngine_done hf, popPort_cons hp]
      exact TurnEffect.effect Effect.nothing
    · rename_i a rest hp
      rw [popPort_cons hp]
      unfold fetchAccess at hf
      split at hf
      · cases hf
      · cases hf; exact TurnEffect.effect (Effect.refuse _ _ _)
      · cases hf; exact TurnEffect.effect Effect.nothing
    · rename_i w rest hp
      rw [popPort_cons hp]
      unfold fetchMemory at hf
      split at hf
      · rename_i u hu; cases hf; exact TurnEffect.effect (Effect.readOf (hostRead_cases hu))
      · cases hf
    · rename_i w v rest hp
      rw [popPort_cons hp]
      unfold fetchMemory at hf
      split at hf
      · rename_i u hu; cases hf; rw [hostWrite_cases hu]; exact TurnEffect.memWrite _ _ _
      · cases hf
  | stop f => rw [hf] at h; cases h

end Sys2Proof.Machine
end

