-- ==== Sys2Proof/Laws/Access.lean ====
section
/-! SUPPORT. What one CSR access does, by the register it names, and what one step does, by whose turn it is: the proofs
about who may write what cite these. -/

namespace Sys2Proof.Machine

variable {s t : State}

/-- What an access can do: a read returns a word, a refusal records a CSR error, and anything else is the write of one
of the fifteen writable registers (48_host_interface.md R290). -/
inductive AccessEffect (a : CsrAccess) (s : State) : State → Prop
  | read (hw : a.write = false) (r : Word) (d : Nat) : AccessEffect a s { s with rdata := r, draws := d }
  | refused (c : ErrCode) (x : Byte) (r : Word) (hc : errCategory c = .csrErr) :
      AccessEffect a s (raiseError c x { s with rdata := r })
  | write {t : State} (f : Word → Instr) (hw : a.write = true) (h4 : a.width = 4) (hf : (a.off.toNat, f) ∈ rwWrites)
      (he : exec (f a.data) s = .next t) : AccessEffect a s t

theorem AccessEffect.readOf {a : CsrAccess} (hw : a.write = false) (h : t = { s with rdata := t.rdata, draws := t.draws }) :
    AccessEffect a s t := by rw [h]; exact AccessEffect.read hw _ _

/-- A read is a read (20_memory.md R87). -/
theorem read_effect {a : CsrAccess} (hw : a.write = false) :
    ∀ x ∈ rwReads ++ roReads, exec x.2 s = .next t → AccessEffect a s t := by
  unfold rwReads roReads
  repeat' refine List.forall_mem_cons.2 ⟨?_, ?_⟩
  all_goals first
    | exact List.forall_mem_nil _
    | (intro h; cases h; first
        | exact AccessEffect.read hw _ _
        | exact AccessEffect.readOf hw (returnUnlessBusy_eq _ s)
        | exact AccessEffect.readOf hw (readTable_eq s))

/-- A write of a read-only register is refused (48_host_interface.md R292). -/
theorem roWrite_effect {a : CsrAccess} (v : Word) :
    ∀ x ∈ roWrites, exec (x.2 v) s = .next t → AccessEffect a s t := by
  unfold roWrites
  repeat' refine List.forall_mem_cons.2 ⟨?_, ?_⟩
  all_goals first
    | exact List.forall_mem_nil _
    | (intro h; cases h; exact AccessEffect.refused .csrWriteRo _ s.rdata rfl)

/-- An access of a reserved offset is refused (48_host_interface.md R293). -/
theorem reserved_effect {a : CsrAccess} (w : Bool) (off : BitVec 9) (v : Word)
    (h : exec (reservedInstr w off v) s = .next t) : AccessEffect a s t := by
  have key : ∀ x, AccessEffect a s (refuseAccess w .csrReserved x s) := by
    intro x; rw [refuseAccess_eq]; exact AccessEffect.refused _ _ _ rfl
  unfold reservedInstr at h
  (repeat' split at h) <;> cases h <;> exact key _

/-- What an access that decodes to an instruction does. -/
theorem access_effect {a : CsrAccess} {i : Instr} (hd : decode (.access a) = .instr i) (h : exec i s = .next t) :
    AccessEffect a s t := by
  change decodeAccess a = _ at hd
  unfold decodeAccess at hd
  split at hd
  · cases hd
  · rename_i ho
    rw [not_or, not_not, not_not] at ho
    split at hd
    · rename_i hw
      split at hd
      · rename_i f hf
        cases hd
        rcases List.mem_append.1 (mem_of_atOffset hf) with hm | hm
        · exact AccessEffect.write f hw ho.1 hm h
        · exact roWrite_effect a.data _ hm h
      · cases hd; exact reserved_effect _ _ _ h
    · rename_i hw
      split at hd
      · rename_i j hj; cases hd; exact read_effect (by simpa using hw) _ (mem_of_atOffset hj) h
      · cases hd; exact reserved_effect _ _ _ h

/-- What a write of `v` to one of the fifteen writable registers does, by its offset (48_host_interface.md R295 to R309). -/
inductive WriteEffect (o : Nat) (v : Word) (s : State) : State → Prop
  | refused (c : ErrCode) (x : Byte) (hc : errCategory c = .csrErr) : WriteEffect o v s (raiseError c x s)
  | setRun (ho : o = 0x010) (h : busy s = false) (hv : v.getLsbD 1 = false) : WriteEffect o v s { s with run := v.getLsbD 0 }
  | reset (ho : o = 0x010) (h : busy s = false) (hv : v.getLsbD 1 = true) : WriteEffect o v s (softReset s)
  | push (ho : o = 0x040) : WriteEffect o v s (pushEvent { w0 := v, w1 := s.evtW1, w2 := s.evtW2, w3 := s.evtW3 } s)
  | store (w1 w2 w3 b f c : Word) (en : BitVec 5) (sel : BitVec 16) : WriteEffect o v s
      { s with evtW1 := w1, evtW2 := w2, evtW3 := w3, outBase := b, frames := f, channels := c, irqEn := en, voiceSel := sel }
  | accept (ho : o = 0x050) (h : busy s = false) (hr : s.run = true) : WriteEffect o v s
      { s with blkBase := s.outBase, blkFrames := s.frames, blkChannels := s.channels, engState := .drain }
  | ack (ho : o = 0x060) : WriteEffect o v s (ackIrq (v.extractLsb' 0 5) s)
  | rate (ho : o = 0x070) (h : busy s = false) (hr : s.run = false) (hv : isSampleRate v = true) : WriteEffect o v s
      { s with fs := v, p := { s.p with coef := coefFn s.p.cutoffHz v },
               voices := s.voices.map fun x => { x with inc := incFor s.par.tableLen v x.note } }
  | badRate (ho : o = 0x070) (h : busy s = false) (hr : s.run = false) (hv : isSampleRate v = false) :
      WriteEffect o v s (raiseError .fsBadValue 0 s)
  | tableAddr (ho : o = 0x074) (h : busy s = false) (hr : s.run = false) : WriteEffect o v s (setTableAddr v s)
  | load (ho : o = 0x078) (h : busy s = false) (hr : s.run = false) (hv : isTableValue v = true) : WriteEffect o v s
      { s with wt := s.wt.set s.wtAddr.toNat { value := v, written := true },
               wtAddr := BitVec.ofNat 16 ((s.wtAddr.toNat + 1) % s.par.tableLen) }
  | badEntry (ho : o = 0x078) (h : busy s = false) (hr : s.run = false) (hv : isTableValue v = false) :
      WriteEffect o v s (raiseError .wtBadValue (s.wtAddr.extractLsb' 0 8) s)

theorem WriteEffect.unlessBusy {o : Nat} {v : Word} {x : Byte} {f : State → State}
    (h : busy s = false → WriteEffect o v s (f s)) : WriteEffect o v s (unlessBusy x f s) := by
  rcases unlessBusy_cases x f s with ⟨_, e⟩ | ⟨hb, e⟩ <;> rw [e]
  · exact WriteEffect.refused _ _ rfl
  · exact h hb

theorem WriteEffect.whenStopped {o : Nat} {v : Word} {x : Byte} {f : State → State}
    (h : busy s = false → s.run = false → WriteEffect o v s (f s)) : WriteEffect o v s (whenStopped x f s) := by
  rcases whenStopped_cases x f s with ⟨_, e⟩ | ⟨_, _, e⟩ | ⟨hb, hr, e⟩ <;> rw [e]
  · exact WriteEffect.refused _ _ rfl
  · exact WriteEffect.refused _ _ rfl
  · exact h hb hr

theorem WriteEffect.renderCommand (v : Word) : WriteEffect 0x050 v s (renderCommand v s) := by
  unfold Machine.renderCommand
  split
  · exact WriteEffect.store s.evtW1 s.evtW2 s.evtW3 s.outBase s.frames s.channels s.irqEn s.voiceSel
  · split
    · exact WriteEffect.refused _ _ rfl
    · rename_i hb
      split
      · exact WriteEffect.refused _ _ rfl
      · rename_i hr
        (repeat' split) <;> first
          | exact WriteEffect.refused _ _ rfl
          | exact WriteEffect.accept rfl (by simpa using hb) (by simpa using hr)

theorem WriteEffect.writeCtrl {v : Word} (hb : busy s = false) : WriteEffect 0x010 v s (writeCtrl v s) := by
  unfold Machine.writeCtrl
  cases hv : v.getLsbD 1
  · exact WriteEffect.setRun rfl hb hv
  · exact WriteEffect.reset rfl hb hv

theorem WriteEffect.setSampleRate {v : Word} (hb : busy s = false) (hr : s.run = false) :
    WriteEffect 0x070 v s (setSampleRate v s) := by
  unfold Machine.setSampleRate
  cases hv : isSampleRate v
  · exact WriteEffect.badRate rfl hb hr hv
  · exact WriteEffect.rate rfl hb hr hv

theorem WriteEffect.loadTable {v : Word} (hb : busy s = false) (hr : s.run = false) :
    WriteEffect 0x078 v s (loadTable v s) := by
  unfold Machine.loadTable
  cases hv : isTableValue v
  · exact WriteEffect.badEntry rfl hb hr hv
  · exact WriteEffect.load rfl hb hr hv

/-- A state that differs in the plainly stored registers alone (R299, R301, R303, R304). -/
theorem WriteEffect.storeOf {o : Nat} {v : Word}
    (h : t = { s with evtW1 := t.evtW1, evtW2 := t.evtW2, evtW3 := t.evtW3, outBase := t.outBase, frames := t.frames,
                      channels := t.channels, irqEn := t.irqEn, voiceSel := t.voiceSel }) : WriteEffect o v s t := by
  rw [h]; exact WriteEffect.store _ _ _ _ _ _ _ _

/-- What a write does, for each entry of the table of writable registers. -/
theorem rwWrites_effect (v : Word) : ∀ x ∈ rwWrites, exec (x.2 v) s = .next t → WriteEffect x.1 v s t := by
  unfold rwWrites
  repeat' refine List.forall_mem_cons.2 ⟨?_, ?_⟩
  all_goals first
    | exact List.forall_mem_nil _
    | (intro h; cases h; first
        | exact WriteEffect.storeOf rfl
        | exact WriteEffect.push rfl
        | exact WriteEffect.ack rfl
        | exact WriteEffect.renderCommand v
        | exact WriteEffect.unlessBusy fun hb => WriteEffect.writeCtrl hb
        | exact WriteEffect.unlessBusy fun _ => WriteEffect.storeOf rfl
        | exact WriteEffect.whenStopped fun hb hr => WriteEffect.setSampleRate hb hr
        | exact WriteEffect.whenStopped fun hb hr => WriteEffect.tableAddr rfl hb hr
        | exact WriteEffect.whenStopped fun hb hr => WriteEffect.loadTable hb hr)

/-- What a write does, by the register it names. -/
theorem rwWrite_effect {o : Nat} {f : Word → Instr} {v : Word} (hf : (o, f) ∈ rwWrites) (h : exec (f v) s = .next t) :
    WriteEffect o v s t := rwWrites_effect v (o, f) hf h

/-- What one step does, by whose turn it is (60_exceptions.md R341). -/
inductive StepEffect (s : State) : State → Prop
  | access (a : CsrAccess) (rest : List Turn) (hp : s.port = .csr a :: rest) {t : State}
      (h : AccessEffect a (popPort s) t) : StepEffect s t
  | memRead (r : Word) (d : Nat) : StepEffect s { popPort s with rdata := r, draws := d }
  | memWrite (a : Nat) (v : Word) (r : List Nat) :
      StepEffect s { popPort s with mem := writeWord a v s.mem, raced := r }
  | idle (h : s.engState = .idle) : StepEffect s (popPort s)
  | drain (h : s.engState = .drain) : StepEffect s (drainBlock (popPort s))
  | render (h : s.engState = .render) {t : State} (he : exec .renderStep (popPort s) = .next t) : StepEffect s t

theorem fetchEngine_step {u : State} (hu : u = popPort s)
    (h : (match fetchEngine u with | .run i s' => exec i s' | .done s' => .next s' | .stop f => .fault f) =
      (.next t : Host.Outcome State Fault Refusal)) : StepEffect s t := by
  subst hu
  have he : (popPort s).engState = s.engState := rfl
  unfold fetchEngine at h
  rw [he] at h
  cases hs : s.engState <;> rw [hs] at h
  · cases h; exact StepEffect.idle hs
  · change execDrainStep (popPort s) = _ at h
    unfold execDrainStep at h
    rw [if_pos (he.trans hs)] at h
    cases h; exact StepEffect.drain hs
  · exact StepEffect.render hs h

theorem step_effect (h : step s = .next t) : StepEffect s t := by
  unfold step fetch at h
  cases hp : s.port with
  | nil => rw [hp] at h; exact fetchEngine_step (popPort_nil hp).symm h
  | cons x rest =>
    rw [hp] at h
    cases x with
    | engine => exact fetchEngine_step (popPort_cons hp).symm h
    | csr a =>
      refine StepEffect.access a rest hp ?_
      rw [popPort_cons hp]
      simp only [fetchAccess] at h
      cases hd : decode (.access a) with
      | instr i => rw [hd] at h; exact access_effect hd h
      | reject r =>
        rw [hd] at h
        change decodeAccess a = _ at hd
        unfold decodeAccess at hd
        split at hd
        · cases hd; cases h
          unfold refuseBadAccess
          rw [refuseAccess_eq]
          exact AccessEffect.refused _ _ _ rfl
        · split at hd <;> split at hd <;> cases hd
    | memRead w =>
      cases hr : hostRead w { s with port := rest } with
      | error f => simp only [hr, fetchMemory] at h; cases h
      | ok u =>
        simp only [hr, fetchMemory] at h; cases h
        rw [hostRead_cases hr, ← popPort_cons hp]
        exact StepEffect.memRead _ _
    | memWrite w v =>
      cases hr : hostWrite w v { s with port := rest } with
      | error f => simp only [hr, fetchMemory] at h; cases h
      | ok u =>
        simp only [hr, fetchMemory] at h; cases h
        rw [hostWrite_cases hr, ← popPort_cons hp]
        exact StepEffect.memWrite _ _ _

end Sys2Proof.Machine
end

