-- ==== Sys2Proof/Laws/PerInstr.lean ====
section
/-! SUPPORT. The form of every instruction's encoding (30_encoding.md R100, R101, R110, R112), an instruction at a time:
reserved bits clear, a legal kind, an aligned 32-bit access with no data on a read, a step the engine has. -/

namespace Sys2Proof.Laws

/-- A packet as the spec lays it out: RSV0 is 0 and KIND legal, or the access is aligned and four bytes wide and a
read carries no data, or the engine code is one of its two steps. -/
def PacketForm : Packet → Prop
  | .event e => evtRsv0 e.w0 = 0 ∧ (evtKind e.w0 = 0x01 ∨ evtKind e.w0 = 0x02 ∨ evtKind e.w0 = 0x03)
  | .access a => a.width = 4 ∧ a.off.extractLsb' 0 2 = 0 ∧ (a.write = false → a.data = 0)
  | .engine c => c = 1 ∨ c = 2

/-- A well-formed instruction is encoded in that form. -/
def EncodingForm.Statement (i : Instr) : Prop := i.wf = true → PacketForm (encode i)

/-- Bits 15 to 0 of an event's first word are clear. -/
theorem rsv0_event (k a : Byte) : evtRsv0 (k ++ a ++ (0 : BitVec 16)) = 0 := by
  unfold evtRsv0
  exact BitVec.extractLsb'_append_eq_right

theorem kind_event (k a : Byte) : evtKind (k ++ a ++ (0 : BitVec 16)) = k := by
  unfold evtKind
  apply BitVec.eq_of_toNat_eq
  have hk := k.isLt
  have ha := a.isLt
  have e : (k ++ a ++ (0 : BitVec 16)).toNat = k.toNat * 2 ^ 24 + a.toNat * 2 ^ 16 := by
    rw [BitVec.toNat_append, BitVec.toNat_append, ← Nat.shiftLeft_add_eq_or_of_lt ha, ← Nat.shiftLeft_add_eq_or_of_lt
      (by simp)]
    rw [show BitVec.toNat (0 : BitVec 16) = 0 from rfl, Nat.shiftLeft_eq, Nat.shiftLeft_eq]
    omega
  rw [BitVec.extractLsb'_toNat, e, Nat.shiftRight_eq_div_pow]
  omega

/-- The form of an aligned read and of an aligned write. -/
theorem form_read (off : BitVec 9) (h : off.extractLsb' 0 2 = 0) : PacketForm (encodeRead off) := ⟨rfl, h, fun _ => rfl⟩

theorem form_write (off : BitVec 9) (v : Word) (h : off.extractLsb' 0 2 = 0) : PacketForm (encodeWrite off v) :=
  ⟨rfl, h, nofun⟩

/-- The form of an event word. -/
theorem form_event (k a : Byte) (v : Word) (ts : BitVec 64) (hk : k = 0x01 ∨ k = 0x02 ∨ k = 0x03) :
    PacketForm (encodeEvent k a v ts) := by
  refine ⟨rsv0_event k a, ?_⟩
  rw [show evtKind _ = k from kind_event k a]
  exact hk

/-- The form of a reserved access at a word of its range. -/
theorem form_reserved (w : Bool) (off : BitVec 9) (v : Word) (ho : off.extractLsb' 0 2 = 0) (h : (w || v == 0) = true) :
    PacketForm (encodeReserved w off v) := by
  refine ⟨rfl, ho, fun hw => ?_⟩
  change w = false at hw
  subst hw
  simpa [encodeReserved] using h

namespace EncodingForm

theorem noteOn (note : BitVec 7) (vel : Word) (ts : BitVec 64) : Statement (.noteOn note vel ts) := fun _ => form_event _ _ _ _ (by decide)
theorem noteOff (note : BitVec 7) (ts : BitVec 64) : Statement (.noteOff note ts) := fun _ => form_event _ _ _ _ (by decide)
theorem ccAttackSamples (v : Word) (ts : BitVec 64) : Statement (.ccAttackSamples v ts) := fun _ => form_event _ _ _ _ (by decide)
theorem ccDecaySamples (v : Word) (ts : BitVec 64) : Statement (.ccDecaySamples v ts) := fun _ => form_event _ _ _ _ (by decide)
theorem ccSustainLevel (v : Word) (ts : BitVec 64) : Statement (.ccSustainLevel v ts) := fun _ => form_event _ _ _ _ (by decide)
theorem ccReleaseSamples (v : Word) (ts : BitVec 64) : Statement (.ccReleaseSamples v ts) := fun _ => form_event _ _ _ _ (by decide)
theorem ccCutoffHz (v : Word) (ts : BitVec 64) : Statement (.ccCutoffHz v ts) := fun _ => form_event _ _ _ _ (by decide)
theorem ccFilterEnable (v : Word) (ts : BitVec 64) : Statement (.ccFilterEnable v ts) := fun _ => form_event _ _ _ _ (by decide)
theorem ccHeadroom (v : Word) (ts : BitVec 64) : Statement (.ccHeadroom v ts) := fun _ => form_event _ _ _ _ (by decide)
theorem ccSoftclipEnable (v : Word) (ts : BitVec 64) : Statement (.ccSoftclipEnable v ts) := fun _ => form_event _ _ _ _ (by decide)
theorem ccPhaseReset (v : Word) (ts : BitVec 64) : Statement (.ccPhaseReset v ts) := fun _ => form_event _ _ _ _ (by decide)
theorem ccRetrigMode (v : Word) (ts : BitVec 64) : Statement (.ccRetrigMode v ts) := fun _ => form_event _ _ _ _ (by decide)
theorem rdId : Statement .rdId := fun _ => form_read _ (by decide)
theorem wrId (v : Word) : Statement (.wrId v) := fun _ => form_write _ v (by decide)
theorem rdVersion : Statement .rdVersion := fun _ => form_read _ (by decide)
theorem wrVersion (v : Word) : Statement (.wrVersion v) := fun _ => form_write _ v (by decide)
theorem rdConfig0 : Statement .rdConfig0 := fun _ => form_read _ (by decide)
theorem wrConfig0 (v : Word) : Statement (.wrConfig0 v) := fun _ => form_write _ v (by decide)
theorem rdConfig1 : Statement .rdConfig1 := fun _ => form_read _ (by decide)
theorem wrConfig1 (v : Word) : Statement (.wrConfig1 v) := fun _ => form_write _ v (by decide)
theorem rdStatus : Statement .rdStatus := fun _ => form_read _ (by decide)
theorem wrStatus (v : Word) : Statement (.wrStatus v) := fun _ => form_write _ v (by decide)
theorem rdActiveVoices : Statement .rdActiveVoices := fun _ => form_read _ (by decide)
theorem wrActiveVoices (v : Word) : Statement (.wrActiveVoices v) := fun _ => form_write _ v (by decide)
theorem rdFifoCount : Statement .rdFifoCount := fun _ => form_read _ (by decide)
theorem wrFifoCount (v : Word) : Statement (.wrFifoCount v) := fun _ => form_write _ v (by decide)
theorem rdOvfCount : Statement .rdOvfCount := fun _ => form_read _ (by decide)
theorem wrOvfCount (v : Word) : Statement (.wrOvfCount v) := fun _ => form_write _ v (by decide)
theorem rdPushResult : Statement .rdPushResult := fun _ => form_read _ (by decide)
theorem wrPushResult (v : Word) : Statement (.wrPushResult v) := fun _ => form_write _ v (by decide)
theorem rdBadEvtCount : Statement .rdBadEvtCount := fun _ => form_read _ (by decide)
theorem wrBadEvtCount (v : Word) : Statement (.wrBadEvtCount v) := fun _ => form_write _ v (by decide)
theorem rdCfgErrCount : Statement .rdCfgErrCount := fun _ => form_read _ (by decide)
theorem wrCfgErrCount (v : Word) : Statement (.wrCfgErrCount v) := fun _ => form_write _ v (by decide)
theorem rdCsrErrCount : Statement .rdCsrErrCount := fun _ => form_read _ (by decide)
theorem wrCsrErrCount (v : Word) : Statement (.wrCsrErrCount v) := fun _ => form_write _ v (by decide)
theorem rdLastErr : Statement .rdLastErr := fun _ => form_read _ (by decide)
theorem wrLastErr (v : Word) : Statement (.wrLastErr v) := fun _ => form_write _ v (by decide)
theorem rdStealCount : Statement .rdStealCount := fun _ => form_read _ (by decide)
theorem wrStealCount (v : Word) : Statement (.wrStealCount v) := fun _ => form_write _ v (by decide)
theorem rdBlockCount : Statement .rdBlockCount := fun _ => form_read _ (by decide)
theorem wrBlockCount (v : Word) : Statement (.wrBlockCount v) := fun _ => form_write _ v (by decide)
theorem rdVoiceStatus : Statement .rdVoiceStatus := fun _ => form_read _ (by decide)
theorem wrVoiceStatus (v : Word) : Statement (.wrVoiceStatus v) := fun _ => form_write _ v (by decide)
theorem rdVoiceLevel : Statement .rdVoiceLevel := fun _ => form_read _ (by decide)
theorem wrVoiceLevel (v : Word) : Statement (.wrVoiceLevel v) := fun _ => form_write _ v (by decide)
theorem rdVoicePhase : Statement .rdVoicePhase := fun _ => form_read _ (by decide)
theorem wrVoicePhase (v : Word) : Statement (.wrVoicePhase v) := fun _ => form_write _ v (by decide)
theorem rdVoiceInc : Statement .rdVoiceInc := fun _ => form_read _ (by decide)
theorem wrVoiceInc (v : Word) : Statement (.wrVoiceInc v) := fun _ => form_write _ v (by decide)
theorem rdVoiceY1 : Statement .rdVoiceY1 := fun _ => form_read _ (by decide)
theorem wrVoiceY1 (v : Word) : Statement (.wrVoiceY1 v) := fun _ => form_write _ v (by decide)
theorem rdVoiceVel : Statement .rdVoiceVel := fun _ => form_read _ (by decide)
theorem wrVoiceVel (v : Word) : Statement (.wrVoiceVel v) := fun _ => form_write _ v (by decide)
theorem rdVoiceRelcnt : Statement .rdVoiceRelcnt := fun _ => form_read _ (by decide)
theorem wrVoiceRelcnt (v : Word) : Statement (.wrVoiceRelcnt v) := fun _ => form_write _ v (by decide)
theorem rdVoiceReldec : Statement .rdVoiceReldec := fun _ => form_read _ (by decide)
theorem wrVoiceReldec (v : Word) : Statement (.wrVoiceReldec v) := fun _ => form_write _ v (by decide)
theorem rdVoiceSeqLo : Statement .rdVoiceSeqLo := fun _ => form_read _ (by decide)
theorem wrVoiceSeqLo (v : Word) : Statement (.wrVoiceSeqLo v) := fun _ => form_write _ v (by decide)
theorem rdVoiceSeqHi : Statement .rdVoiceSeqHi := fun _ => form_read _ (by decide)
theorem wrVoiceSeqHi (v : Word) : Statement (.wrVoiceSeqHi v) := fun _ => form_write _ v (by decide)
theorem rdTrigSeqLo : Statement .rdTrigSeqLo := fun _ => form_read _ (by decide)
theorem wrTrigSeqLo (v : Word) : Statement (.wrTrigSeqLo v) := fun _ => form_write _ v (by decide)
theorem rdTrigSeqHi : Statement .rdTrigSeqHi := fun _ => form_read _ (by decide)
theorem wrTrigSeqHi (v : Word) : Statement (.wrTrigSeqHi v) := fun _ => form_write _ v (by decide)
theorem rdParam1 : Statement .rdParam1 := fun _ => form_read _ (by decide)
theorem wrParam1 (v : Word) : Statement (.wrParam1 v) := fun _ => form_write _ v (by decide)
theorem rdParam2 : Statement .rdParam2 := fun _ => form_read _ (by decide)
theorem wrParam2 (v : Word) : Statement (.wrParam2 v) := fun _ => form_write _ v (by decide)
theorem rdParam3 : Statement .rdParam3 := fun _ => form_read _ (by decide)
theorem wrParam3 (v : Word) : Statement (.wrParam3 v) := fun _ => form_write _ v (by decide)
theorem rdParam4 : Statement .rdParam4 := fun _ => form_read _ (by decide)
theorem wrParam4 (v : Word) : Statement (.wrParam4 v) := fun _ => form_write _ v (by decide)
theorem rdParam5 : Statement .rdParam5 := fun _ => form_read _ (by decide)
theorem wrParam5 (v : Word) : Statement (.wrParam5 v) := fun _ => form_write _ v (by decide)
theorem rdParam6 : Statement .rdParam6 := fun _ => form_read _ (by decide)
theorem wrParam6 (v : Word) : Statement (.wrParam6 v) := fun _ => form_write _ v (by decide)
theorem rdParam7 : Statement .rdParam7 := fun _ => form_read _ (by decide)
theorem wrParam7 (v : Word) : Statement (.wrParam7 v) := fun _ => form_write _ v (by decide)
theorem rdParam8 : Statement .rdParam8 := fun _ => form_read _ (by decide)
theorem wrParam8 (v : Word) : Statement (.wrParam8 v) := fun _ => form_write _ v (by decide)
theorem rdParam9 : Statement .rdParam9 := fun _ => form_read _ (by decide)
theorem wrParam9 (v : Word) : Statement (.wrParam9 v) := fun _ => form_write _ v (by decide)
theorem rdParam10 : Statement .rdParam10 := fun _ => form_read _ (by decide)
theorem wrParam10 (v : Word) : Statement (.wrParam10 v) := fun _ => form_write _ v (by decide)
theorem rdCoef : Statement .rdCoef := fun _ => form_read _ (by decide)
theorem wrCoef (v : Word) : Statement (.wrCoef v) := fun _ => form_write _ v (by decide)
theorem rdAttackInc : Statement .rdAttackInc := fun _ => form_read _ (by decide)
theorem wrAttackInc (v : Word) : Statement (.wrAttackInc v) := fun _ => form_write _ v (by decide)
theorem rdDecayDec : Statement .rdDecayDec := fun _ => form_read _ (by decide)
theorem wrDecayDec (v : Word) : Statement (.wrDecayDec v) := fun _ => form_write _ v (by decide)
theorem rdCtrl : Statement .rdCtrl := fun _ => form_read _ (by decide)
theorem wrCtrl (v : Word) : Statement (.wrCtrl v) := fun _ => form_write _ v (by decide)
theorem rdEvtW0 : Statement .rdEvtW0 := fun _ => form_read _ (by decide)
theorem wrEvtW0 (v : Word) : Statement (.wrEvtW0 v) := fun _ => form_write _ v (by decide)
theorem rdEvtW1 : Statement .rdEvtW1 := fun _ => form_read _ (by decide)
theorem wrEvtW1 (v : Word) : Statement (.wrEvtW1 v) := fun _ => form_write _ v (by decide)
theorem rdEvtW2 : Statement .rdEvtW2 := fun _ => form_read _ (by decide)
theorem wrEvtW2 (v : Word) : Statement (.wrEvtW2 v) := fun _ => form_write _ v (by decide)
theorem rdEvtW3 : Statement .rdEvtW3 := fun _ => form_read _ (by decide)
theorem wrEvtW3 (v : Word) : Statement (.wrEvtW3 v) := fun _ => form_write _ v (by decide)
theorem rdRender : Statement .rdRender := fun _ => form_read _ (by decide)
theorem wrRender (v : Word) : Statement (.wrRender v) := fun _ => form_write _ v (by decide)
theorem rdOutBase : Statement .rdOutBase := fun _ => form_read _ (by decide)
theorem wrOutBase (v : Word) : Statement (.wrOutBase v) := fun _ => form_write _ v (by decide)
theorem rdFrames : Statement .rdFrames := fun _ => form_read _ (by decide)
theorem wrFrames (v : Word) : Statement (.wrFrames v) := fun _ => form_write _ v (by decide)
theorem rdChannels : Statement .rdChannels := fun _ => form_read _ (by decide)
theorem wrChannels (v : Word) : Statement (.wrChannels v) := fun _ => form_write _ v (by decide)
theorem rdIrqStatus : Statement .rdIrqStatus := fun _ => form_read _ (by decide)
theorem wrIrqStatus (v : Word) : Statement (.wrIrqStatus v) := fun _ => form_write _ v (by decide)
theorem rdIrqEnable : Statement .rdIrqEnable := fun _ => form_read _ (by decide)
theorem wrIrqEnable (v : Word) : Statement (.wrIrqEnable v) := fun _ => form_write _ v (by decide)
theorem rdCfgFs : Statement .rdCfgFs := fun _ => form_read _ (by decide)
theorem wrCfgFs (v : Word) : Statement (.wrCfgFs v) := fun _ => form_write _ v (by decide)
theorem rdWtAddr : Statement .rdWtAddr := fun _ => form_read _ (by decide)
theorem wrWtAddr (v : Word) : Statement (.wrWtAddr v) := fun _ => form_write _ v (by decide)
theorem rdWtData : Statement .rdWtData := fun _ => form_read _ (by decide)
theorem wrWtData (v : Word) : Statement (.wrWtData v) := fun _ => form_write _ v (by decide)
theorem rdVoiceSel : Statement .rdVoiceSel := fun _ => form_read _ (by decide)
theorem wrVoiceSel (v : Word) : Statement (.wrVoiceSel v) := fun _ => form_write _ v (by decide)
theorem rsv068 (w : Bool) (k : BitVec 1) (v : Word) : Statement (.rsv068 w k v) := form_reserved w _ v BitVec.extractLsb'_append_eq_right
theorem rsv07C (w : Bool) (v : Word) : Statement (.rsv07C w v) := form_reserved w _ v (by decide)
theorem rsv0AC (w : Bool) (v : Word) : Statement (.rsv0AC w v) := form_reserved w _ v (by decide)
theorem rsv0B8 (w : Bool) (k : BitVec 1) (v : Word) : Statement (.rsv0B8 w k v) := form_reserved w _ v BitVec.extractLsb'_append_eq_right
theorem rsv0C0 (w : Bool) (k : BitVec 4) (v : Word) : Statement (.rsv0C0 w k v) := form_reserved w _ v BitVec.extractLsb'_append_eq_right
theorem rsv100 (w : Bool) (v : Word) : Statement (.rsv100 w v) := form_reserved w _ v (by decide)
theorem rsv12C (w : Bool) (v : Word) : Statement (.rsv12C w v) := form_reserved w _ v (by decide)
theorem rsv130 (w : Bool) (k : BitVec 2) (v : Word) : Statement (.rsv130 w k v) := form_reserved w _ v BitVec.extractLsb'_append_eq_right
theorem rsv14C (w : Bool) (v : Word) : Statement (.rsv14C w v) := form_reserved w _ v (by decide)
theorem rsv150 (w : Bool) (k : BitVec 2) (v : Word) : Statement (.rsv150 w k v) := form_reserved w _ v BitVec.extractLsb'_append_eq_right
theorem rsv160 (w : Bool) (k : BitVec 3) (v : Word) : Statement (.rsv160 w k v) := form_reserved w _ v BitVec.extractLsb'_append_eq_right
theorem rsv180 (w : Bool) (k : BitVec 5) (v : Word) : Statement (.rsv180 w k v) := form_reserved w _ v BitVec.extractLsb'_append_eq_right
theorem drainStep : Statement .drainStep := fun _ => Or.inl rfl
theorem renderStep : Statement .renderStep := fun _ => Or.inr rfl

end EncodingForm

end Sys2Proof.Laws
end

