-- ==== Sys2Proof/Laws/Decode.lean ====
section
/-! SUPPORT. What the decoder answers on the encoder's words, a lemma for each form: the fields of an event word read
back (30_encoding.md R100, R105), a control change, an aligned access of a register (R110). -/

namespace Sys2Proof.Laws

/-- `ARG` of an event word. -/
theorem arg_event (k a : Byte) : evtArg (k ++ a ++ (0 : BitVec 16)) = a := by
  unfold evtArg
  apply BitVec.eq_of_toNat_eq
  have ha := a.isLt
  have e : (k ++ a ++ (0 : BitVec 16)).toNat = k.toNat * 2 ^ 24 + a.toNat * 2 ^ 16 := by
    rw [BitVec.toNat_append, BitVec.toNat_append, ← Nat.shiftLeft_add_eq_or_of_lt ha,
      ← Nat.shiftLeft_add_eq_or_of_lt (by simp)]
    rw [show BitVec.toNat (0 : BitVec 16) = 0 from rfl, Nat.shiftLeft_eq, Nat.shiftLeft_eq]
    omega
  rw [BitVec.extractLsb'_toNat, e, Nat.shiftRight_eq_div_pow]
  omega

/-- The two halves of a timestamp put together again (R105). -/
theorem timestamp_halves (ts : BitVec 64) : (ts.extractLsb' 32 32 ++ ts.extractLsb' 0 32 : BitVec 64) = ts := by
  rw [BitVec.extractLsb'_append_extractLsb'_eq_extractLsb' (by omega)]
  exact BitVec.extractLsb'_eq_self

/-- A note number is a byte below 128. -/
theorem note_byte (note : BitVec 7) :
    ((0 : BitVec 1) ++ note).getLsbD 7 = false ∧ ((0 : BitVec 1) ++ note : Byte).extractLsb' 0 7 = note := by
  revert note; decide

/-- An event word of the encoder decodes as its kind, argument and value say. -/
theorem decode_event (k a : Byte) (v : Word) (ts : BitVec 64) :
    decode (encodeEvent k a v ts) = eventInstr ts (decodeEvent (k ++ a ++ (0 : BitVec 16)) v) := by
  rw [encodeEvent, decode, evtTimestamp, timestamp_halves]

/-- A control change of a legal id (R107). -/
theorem decode_cc (id : Byte) (v : Word) (ts : BitVec 64) (i : Instr) (h : ccInstr id v ts = some i) :
    decode (encodeEvent 0x03 id v ts) = .instr i := by
  rw [decode_event]
  unfold decodeEvent
  rw [kind_event, rsv0_event, arg_event]
  simp [eventInstr, h]

/-- An aligned 32-bit write of a register. -/
theorem decode_write {off : BitVec 9} {f : Word → Instr} (ha : off.extractLsb' 0 2 = 0)
    (h : atOffset off.toNat (rwWrites ++ roWrites) = some f) (v : Word) :
    decode (.access { write := true, off := off, width := 4, data := v }) = .instr (f v) := by
  simp [decode, decodeAccess, ha, h]

/-- An aligned 32-bit read of a register, whatever its data. -/
theorem decode_read {off : BitVec 9} {i : Instr} (ha : off.extractLsb' 0 2 = 0)
    (h : atOffset off.toNat (rwReads ++ roReads) = some i) (v : Word) :
    decode (.access { write := false, off := off, width := 4, data := v }) = .instr i := by
  simp [decode, decodeAccess, ha, h]

/-- An aligned 32-bit access of an offset in no register table. -/
theorem decode_reserved {off : BitVec 9} (w : Bool) (ha : off.extractLsb' 0 2 = 0)
    (hw : atOffset off.toNat (rwWrites ++ roWrites) = none) (hr : atOffset off.toNat (rwReads ++ roReads) = none)
    (v : Word) :
    decode (.access { write := w, off := off, width := 4, data := v }) =
      .instr (reservedInstr w off (if w then v else 0)) := by
  cases w <;> simp [decode, decodeAccess, ha, hw, hr]

end Sys2Proof.Laws
end

