-- ==== Sys2Proof/Laws/Engine.lean ====
section
/-! SUPPORT. What an event, a drain, a tick, a frame and a block can do, once for each: the proofs about the engine's
steps cite these. -/

namespace Sys2Proof.Machine

variable {s t : State}

/-! ### Events and the drain -/

/-- A decoded note-on has a legal velocity (30_encoding.md R106). -/
theorem decodeEvent_noteOn {w0 w1 : Word} {n : BitVec 7} {vel : Word} (h : decodeEvent w0 w1 = .noteOn n vel) :
    isUnit32 vel = true := by
  unfold decodeEvent at h
  (repeat' split at h) <;> first | (cases h; assumption) | cases h

/-- An event applied is an effect. -/
theorem applyEvent_effect (e : EvtWord) (s : State) : Effect s (applyEvent e s) := by
  unfold applyEvent
  split
  · rename_i n vel h; exact Effect.noteOn n vel (decodeEvent_noteOn h)
  · exact Effect.noteOff _
  · exact Effect.cc _ _
  · exact Effect.err _ _

/-- What every event keeps, a drain's events keep. -/
theorem applyEvents_ind {P : State → Prop} (hP : ∀ e s, P s → P (applyEvent e s)) :
    ∀ (es : List EvtWord) (s : State), P s → P (applyEvents es s)
  | [], _, h => h
  | e :: es, s, h => applyEvents_ind hP es _ (hP e s h)

/-- A note-on changes the voices, the trigger counter and the steal counter alone (45_voice_manager.md R200). -/
theorem vmNoteOn_eq (n : BitVec 7) (vel : Word) (s : State) :
    vmNoteOn n vel s =
      { s with voices := (vmNoteOn n vel s).voices, trigSeq := s.trigSeq + 1,
               stealCount := (vmNoteOn n vel s).stealCount } := by
  unfold vmNoteOn chooseVoice
  dsimp only
  (repeat' split) <;> rfl

/-- A control change changes the parameters, or records an error (46_event_intake.md R240). -/
theorem setParam_cases (id : Byte) (l : Bool) (f : ParamRegs → ParamRegs) (s : State) :
    (l = true ∧ setParam id l f s = { s with p := f s.p }) ∨ (l = false ∧ setParam id l f s = raiseError .ccBadValue id s) := by
  cases l
  · exact Or.inr ⟨rfl, rfl⟩
  · exact Or.inl ⟨rfl, rfl⟩

theorem applyCC_cases (id : Byte) (v : Word) (s : State) :
    (∃ q, applyCC id v s = { s with p := q }) ∨ ∃ c, applyCC id v s = raiseError c id s := by
  have key : ∀ (k : Byte) (l : Bool) (f : ParamRegs → ParamRegs), k = id →
      (∃ q, setParam k l f s = { s with p := q }) ∨ ∃ c, setParam k l f s = raiseError c id s := by
    intro k l f hk
    subst hk
    rcases setParam_cases k l f s with ⟨_, h⟩ | ⟨_, h⟩
    · exact Or.inl ⟨_, h⟩
    · exact Or.inr ⟨_, h⟩
  unfold applyCC
  (repeat' split) <;> first | exact key _ _ _ (by symm; assumption) | exact Or.inr ⟨_, rfl⟩

/-- The state an event, a drain's events or a reclaim may change (47_render_engine.md R271, "State written"). -/
def DrainFrame (s t : State) : Prop :=
  t = { s with voices := t.voices, p := t.p, trigSeq := t.trigSeq, stealCount := t.stealCount, lastErr := t.lastErr,
               badEvtCount := t.badEvtCount, cfgErrCount := t.cfgErrCount, irqPend := t.irqPend } ∧
    ∀ b, s.irqPend.getLsbD b = true → t.irqPend.getLsbD b = true

theorem DrainFrame.refl (s : State) : DrainFrame s s := ⟨rfl, fun _ h => h⟩

theorem DrainFrame.trans {u : State} (h : DrainFrame s t) (h' : DrainFrame t u) : DrainFrame s u := by
  refine ⟨?_, fun b hb => h'.2 b (h.2 b hb)⟩
  rw [h'.1, h.1]

theorem DrainFrame.error {c : ErrCode} (hc : errCategory c ≠ .csrErr) (x : Byte) (s : State) :
    DrainFrame s (raiseError c x s) := by
  refine ⟨?_, fun b hb => ?_⟩
  · cases c <;> first | rfl | exact absurd rfl hc
  · rw [raiseError_eq]
    simp only [BitVec.getLsbD_or, hb, Bool.true_or]

theorem applyEvent_frame (e : EvtWord) (s : State) : DrainFrame s (applyEvent e s) := by
  unfold applyEvent
  split
  · rw [vmNoteOn_eq]; exact ⟨rfl, fun _ h => h⟩
  · exact ⟨rfl, fun _ h => h⟩
  · rename_i id v h
    have key : ∀ (k : Byte) (l : Bool) (f : ParamRegs → ParamRegs), DrainFrame s (setParam k l f s) := by
      intro k l f
      rcases setParam_cases k l f s with ⟨_, h⟩ | ⟨_, h⟩ <;> rw [h]
      · exact ⟨rfl, fun _ h => h⟩
      · exact DrainFrame.error (by decide) _ _
    unfold applyCC
    (repeat' split) <;> first | exact key _ _ _ | exact DrainFrame.error (by decide) _ _
  · rename_i code aux h
    refine DrainFrame.error ?_ _ _
    unfold decodeEvent at h
    (repeat' split at h) <;> cases h <;> decide

/-- An event records no error, a configuration error or a bad-event error, which one being its own and not the state's
(60_exceptions.md R331). -/
theorem applyEvent_errors (e : EvtWord) :
    (∀ s, (applyEvent e s).irqPend = s.irqPend) ∨
      (∀ s, (applyEvent e s).irqPend = s.irqPend ||| irqCfgErr ∧ (applyEvent e s).cfgErrCount = s.cfgErrCount + 1) ∨
      (∀ s, (applyEvent e s).irqPend = s.irqPend ||| irqBadEvt ∧ (applyEvent e s).badEvtCount = s.badEvtCount + 1) := by
  have key : ∀ (k : Byte) (l : Bool) (f : ParamRegs → ParamRegs),
      (∀ s, (setParam k l f s).irqPend = s.irqPend) ∨
        (∀ s, (setParam k l f s).irqPend = s.irqPend ||| irqCfgErr ∧ (setParam k l f s).cfgErrCount = s.cfgErrCount + 1) := by
    intro k l f
    cases l
    · exact Or.inr fun _ => ⟨rfl, rfl⟩
    · exact Or.inl fun _ => rfl
  have cc : ∀ (id : Byte) (v : Word), (∀ s, (applyCC id v s).irqPend = s.irqPend) ∨
      (∀ s, (applyCC id v s).irqPend = s.irqPend ||| irqCfgErr ∧ (applyCC id v s).cfgErrCount = s.cfgErrCount + 1) := by
    intro id v
    have pick : ∀ {f : State → State}, (∀ s, applyCC id v s = f s) →
        ((∀ s, (f s).irqPend = s.irqPend) ∨
          (∀ s, (f s).irqPend = s.irqPend ||| irqCfgErr ∧ (f s).cfgErrCount = s.cfgErrCount + 1)) →
        (∀ s, (applyCC id v s).irqPend = s.irqPend) ∨
          (∀ s, (applyCC id v s).irqPend = s.irqPend ||| irqCfgErr ∧ (applyCC id v s).cfgErrCount = s.cfgErrCount + 1) := by
      intro f hf h
      simpa only [hf] using h
    by_cases h1 : id = 0x01
    · exact pick (f := ccAttackSamples v) (fun s => by unfold applyCC; rw [if_pos h1]) (key _ _ _)
    by_cases h2 : id = 0x02
    · exact pick (f := ccDecaySamples v) (fun s => by unfold applyCC; rw [if_neg h1, if_pos h2]) (key _ _ _)
    by_cases h3 : id = 0x03
    · exact pick (f := ccSustainLevel v) (fun s => by unfold applyCC; rw [if_neg h1, if_neg h2, if_pos h3]) (key _ _ _)
    by_cases h4 : id = 0x04
    · exact pick (f := ccReleaseSamples v) (fun s => by unfold applyCC; rw [if_neg h1, if_neg h2, if_neg h3, if_pos h4]) (key _ _ _)
    by_cases h5 : id = 0x05
    · refine pick (f := ccCutoffHz v) (fun s => by unfold applyCC; rw [if_neg h1, if_neg h2, if_neg h3, if_neg h4, if_pos h5]) ?_
      cases hv : isCutoff v
      · exact Or.inr fun s => by simp only [ccCutoffHz, setParam, hv]; exact ⟨rfl, rfl⟩
      · exact Or.inl fun s => by simp only [ccCutoffHz, setParam, hv]; rfl
    by_cases h6 : id = 0x06
    · exact pick (f := ccFilterEnable v) (fun s => by unfold applyCC; rw [if_neg h1, if_neg h2, if_neg h3, if_neg h4, if_neg h5, if_pos h6]) (key _ _ _)
    by_cases h7 : id = 0x07
    · exact pick (f := ccHeadroom v) (fun s => by unfold applyCC; rw [if_neg h1, if_neg h2, if_neg h3, if_neg h4, if_neg h5, if_neg h6, if_pos h7]) (key _ _ _)
    by_cases h8 : id = 0x08
    · exact pick (f := ccSoftclipEnable v) (fun s => by unfold applyCC; rw [if_neg h1, if_neg h2, if_neg h3, if_neg h4, if_neg h5, if_neg h6, if_neg h7, if_pos h8]) (key _ _ _)
    by_cases h9 : id = 0x09
    · exact pick (f := ccPhaseReset v) (fun s => by unfold applyCC; rw [if_neg h1, if_neg h2, if_neg h3, if_neg h4, if_neg h5, if_neg h6, if_neg h7, if_neg h8, if_pos h9]) (key _ _ _)
    by_cases h10 : id = 0x0A
    · exact pick (f := ccRetrigMode v) (fun s => by unfold applyCC; rw [if_neg h1, if_neg h2, if_neg h3, if_neg h4, if_neg h5, if_neg h6, if_neg h7, if_neg h8, if_neg h9, if_pos h10]) (key _ _ _)
    refine pick (f := raiseError .ccBadId id) (fun s => ?_) (Or.inr fun _ => ⟨rfl, rfl⟩)
    unfold applyCC
    rw [if_neg h1, if_neg h2, if_neg h3, if_neg h4, if_neg h5, if_neg h6, if_neg h7, if_neg h8, if_neg h9, if_neg h10]
  unfold applyEvent
  cases hd : decodeEvent e.w0 e.w1 with
  | noteOn n vel => exact Or.inl fun s => by dsimp only; rw [vmNoteOn_eq]
  | noteOff n => exact Or.inl fun _ => rfl
  | controlChange id v => exact (cc id v).elim Or.inl fun h => Or.inr (Or.inl h)
  | invalid code aux =>
    have hc : errCategory code ≠ .csrErr := by
      unfold decodeEvent at hd
      (repeat' split at hd) <;> cases hd <;> decide
    cases code <;> first
      | exact absurd rfl hc
      | exact Or.inr (Or.inl fun _ => ⟨rfl, rfl⟩)
      | exact Or.inr (Or.inr fun _ => ⟨rfl, rfl⟩)

theorem applyEvents_frame (es : List EvtWord) (s : State) : DrainFrame s (applyEvents es s) :=
  applyEvents_ind (P := DrainFrame s) (fun e u h => h.trans (applyEvent_frame e u)) es s (DrainFrame.refl s)

/-- `DrainStep` empties the FIFO, ends in RENDER, and changes no register but those of R271. -/
theorem drainBlock_frame (s : State) :
    DrainFrame { s with fifo := [], engState := .render } (drainBlock s) := by
  have h := applyEvents_frame s.fifo { s with fifo := [] }
  unfold drainBlock reclaim
  refine ⟨?_, h.2⟩
  rw [h.1]

/-! ### Ticks -/

/-- An envelope tick writes `LEVEL`, `STAGE` and `REL_CNT` alone (42_envelope.md R160). -/
theorem envTick_eq (p : ParamRegs) (v : Voice) :
    envTick p v = { v with level := (envTick p v).level, stage := (envTick p v).stage, relCnt := (envTick p v).relCnt } := by
  unfold envTick
  split
  · rfl
  · unfold attackTick; (repeat' split) <;> rfl
  · unfold decayTick; (repeat' split) <;> rfl
  · rfl
  · unfold releaseTick; split <;> rfl

/-- A filter step writes `Y1` alone, with the output (43_filter.md R181). -/
theorem filtStep_eq (p : ParamRegs) (x : Word) (v : Voice) :
    filtStep p x v = ((filtStep p x v).1, { v with y1 := (filtStep p x v).1 }) := by
  unfold filtStep; split <;> rfl

/-- A voice's sample: the envelope's tick, then the phase and the filter's history (44_voice.md R190). -/
theorem voiceSample_ok {len : Nat} {wt : List WtEntry} {p : ParamRegs} {v v' : Voice} {y : Word}
    (h : voiceSample len wt p v = .ok (y, v')) :
    v' = { envTick p v with phase := nextPhase len v, y1 := y } := by
  unfold voiceSample oscTick at h
  have hph : nextPhase len (envTick p v) = nextPhase len v := by rw [envTick_eq]; rfl
  split at h
  · rename_i o v1 h1
    split at h1
    · cases h1
      injection h with h
      rw [filtStep_eq] at h
      obtain ⟨hy, hv⟩ := Prod.mk.inj h
      rw [← hv, hy, hph]
    · cases h1
  · cases h

/-- What one frame does to the voices: a free voice stays, an active one is ticked once (47_render_engine.md R274). -/
def Ticked (len : Nat) (wt : List WtEntry) (p : ParamRegs) (v v' : Voice) : Prop :=
  (v.active = false ∧ v' = v) ∨ (v.active = true ∧ ∃ y, voiceSample len wt p v = .ok (y, v'))

theorem mixVoices_ok {len : Nat} {wt : List WtEntry} {p : ParamRegs} :
    ∀ {vs vs' : List Voice} {acc sum : Word}, mixVoices len wt p vs acc = .ok (sum, vs') →
      List.Forall₂ (Ticked len wt p) vs vs'
  | [], _, _, _, h => by cases h; exact List.Forall₂.nil
  | v :: vs, _, acc, _, h => by
    unfold mixVoices at h
    split at h
    · rename_i hv
      split at h
      · cases h
      · rename_i y v1 h1
        split at h
        · cases h
        · rename_i sum1 vs1 h2
          cases h
          exact List.Forall₂.cons (Or.inr ⟨hv, y, h1⟩) (mixVoices_ok h2)
    · rename_i hv
      split at h
      · cases h
      · rename_i sum1 vs1 h2
        cases h
        exact List.Forall₂.cons (Or.inl ⟨by simpa using hv, rfl⟩) (mixVoices_ok h2)

/-- The voices of two lists are summed one list after the other; the first fault ends it (47_render_engine.md R273). -/
theorem mixVoices_append {len : Nat} {wt : List WtEntry} {p : ParamRegs} : ∀ (vs ws : List Voice) (acc : Word),
    mixVoices len wt p (vs ++ ws) acc = match mixVoices len wt p vs acc with
      | .error f => .error f
      | .ok (sum, vs') => match mixVoices len wt p ws sum with
        | .error f => .error f
        | .ok (sum', ws') => .ok (sum', vs' ++ ws')
  | [], ws, acc => by
    simp only [List.nil_append, mixVoices]
    cases mixVoices len wt p ws acc <;> rfl
  | v :: vs, ws, acc => by
    simp only [List.cons_append, mixVoices]
    split
    · cases voiceSample len wt p v with
      | error f => rfl
      | ok x =>
        dsimp only
        rw [mixVoices_append vs ws]
        cases mixVoices len wt p vs (add32 acc x.1) with
        | error f => rfl
        | ok z => dsimp only; cases mixVoices len wt p ws z.1 <;> rfl
    · rw [mixVoices_append vs ws]
      cases mixVoices len wt p vs acc with
      | error f => rfl
      | ok z => dsimp only; cases mixVoices len wt p ws z.1 <;> rfl

theorem mixFrame_ok {m : Word} (h : mixFrame s = .ok (m, t)) :
    ∃ vs', t = { s with voices := vs' } ∧ List.Forall₂ (Ticked s.par.tableLen s.wt s.p) s.voices vs' := by
  unfold mixFrame at h
  split at h
  · rename_i sum vs hm
    cases h
    exact ⟨vs, rfl, mixVoices_ok hm⟩
  · cases h

/-- What every tick keeps of each voice, a frame keeps of all. -/
theorem forall_ticked {P : Voice → Prop} {len : Nat} {wt : List WtEntry} {p : ParamRegs}
    (hP : ∀ v v' y, P v → voiceSample len wt p v = .ok (y, v') → P v') :
    ∀ {vs vs' : List Voice}, List.Forall₂ (Ticked len wt p) vs vs' → (∀ v ∈ vs, P v) → ∀ v ∈ vs', P v
  | _, _, .nil, _, _, hv => by cases hv
  | _, _, .cons h hs, hall, x, hx => by
    rcases List.mem_cons.1 hx with rfl | hx
    · rcases h with ⟨_, rfl⟩ | ⟨_, y, hy⟩
      · exact hall _ List.mem_cons_self
      · exact hP _ x y (hall _ List.mem_cons_self) hy
    · exact forall_ticked hP hs (fun u hu => hall u (List.mem_cons_of_mem _ hu)) x hx

/-- A block's frames change the voices, host memory and the free values taken (47_render_engine.md R272). -/
theorem renderFrames_cases : ∀ {n f : Nat} {s u : State}, renderFrames n f s = .ok u →
    ∃ vs mem' d, u = { s with voices := vs, mem := mem', draws := d }
  | 0, _, s, _, h => by cases h; exact ⟨s.voices, s.mem, s.draws, rfl⟩
  | n + 1, f, s, u, h => by
    unfold renderFrames at h
    split at h
    · cases h
    · rename_i m s1 h1
      obtain ⟨vs1, e1, _⟩ := mixFrame_ok h1
      obtain ⟨m2, d2, e2⟩ := writeChannels_cases m f s1.blkChannels.toNat 0 s1
      obtain ⟨vs3, m3, d3, e3⟩ := renderFrames_cases h
      exact ⟨vs3, m3, d3, by rw [e3, e2, e1]⟩

/-- What every frame keeps, a block's frames keep. -/
theorem renderFrames_ind {P : State → Prop}
    (hP : ∀ s t m f, P s → mixFrame s = .ok (m, t) → P (writeChannels m f t.blkChannels.toNat 0 t)) :
    ∀ {n f : Nat} {s u : State}, renderFrames n f s = .ok u → P s → P u
  | 0, _, _, _, h, hs => by cases h; exact hs
  | n + 1, f, s, u, h, hs => by
    unfold renderFrames at h
    split at h
    · cases h
    · rename_i m s1 h1
      exact renderFrames_ind hP h (hP s s1 m f hs h1)

/-- A block's frames keep the canonical form of host memory. -/
theorem renderFrames_wf {n f : Nat} {u : State} (h : renderFrames n f s = .ok u) (hm : Memory.wf s.mem) : Memory.wf u.mem := by
  refine renderFrames_ind (P := fun s => Memory.wf s.mem) (fun s t m f hs ht => ?_) h hm
  obtain ⟨vs, e, _⟩ := mixFrame_ok ht
  exact writeChannels_wf _ _ _ _ _ (by rw [e]; exact hs)

end Sys2Proof.Machine
end

