-- ==== Sys2Proof/Laws/Float.lean ====
section
/-! SUPPORT. What the binary32 operations do (00_scope.md R9): the rounding is monotone and exact on binary32
values, and the operations keep signs and bounds. Later proofs cite these and do not unfold the arithmetic. -/

namespace Sys2Proof.Machine

/-! ### Rounding -/

theorem roundNearest_le_succ (n d : Nat) : roundNearest n d ≤ n / d + 1 := by
  unfold roundNearest; split <;> omega

theorem le_roundNearest (n d : Nat) : n / d ≤ roundNearest n d := by
  unfold roundNearest; split <;> omega

/-- Rounding an exact multiple changes nothing. -/
theorem roundNearest_mul (k d : Nat) (hd : 0 < d) : roundNearest (k * d) d = k := by
  have h1 : k * d / d = k := Nat.mul_div_cancel k hd
  have h2 : k * d % d = 0 := Nat.mul_mod_left k d
  unfold roundNearest
  rw [h1, h2, if_neg]
  omega

/-- Rounding is monotone in the fraction. -/
theorem roundNearest_mono {n d n' d' : Nat} (hd : 0 < d) (hd' : 0 < d') (h : n * d' ≤ n' * d) :
    roundNearest n d ≤ roundNearest n' d' := by
  have e1 : d * (n / d) + n % d = n := Nat.div_add_mod n d
  have e2 : d' * (n' / d') + n' % d' = n' := Nat.div_add_mod n' d'
  have l1 : n % d < d := Nat.mod_lt _ hd
  have l2 : n' % d' < d' := Nat.mod_lt _ hd'
  have hq : n / d ≤ n' / d' := by
    rw [Nat.le_div_iff_mul_le hd']
    refine Nat.le_of_mul_le_mul_right (c := d) ?_ hd
    calc n / d * d' * d = n / d * d * d' := by ring
      _ ≤ n * d' := Nat.mul_le_mul_right _ (Nat.div_mul_le_self n d)
      _ ≤ n' * d := h
  rcases Nat.lt_or_ge (n / d) (n' / d') with hlt | hge
  · calc roundNearest n d ≤ n / d + 1 := roundNearest_le_succ n d
      _ ≤ n' / d' := hlt
      _ ≤ roundNearest n' d' := le_roundNearest n' d'
  · have heq : n / d = n' / d' := Nat.le_antisymm hq hge
    have hr : n % d * d' ≤ n' % d' * d := by
      generalize hr0 : n % d = r at *
      generalize hr1 : n' % d' = r' at *
      generalize hq0 : n / d = q at *
      generalize hq1 : n' / d' = q' at *
      subst heq
      rw [← e1, ← e2] at h
      have : d * q * d' + r * d' ≤ d' * q * d + r' * d := by
        calc d * q * d' + r * d' = (d * q + r) * d' := by ring
          _ ≤ (d' * q + r') * d := h
          _ = d' * q * d + r' * d := by ring
      have e3 : d * q * d' = d' * q * d := by ring
      omega
    unfold roundNearest
    rw [heq]
    by_cases hc : d < 2 * (n % d) ∨ (2 * (n % d) = d ∧ n' / d' % 2 = 1)
    · have hc' : d' < 2 * (n' % d') ∨ (2 * (n' % d') = d' ∧ n' / d' % 2 = 1) := by
        have hge2 : d ≤ 2 * (n % d) := by omega
        have hge3 : d * d' ≤ 2 * (n' % d') * d := by
          calc d * d' ≤ 2 * (n % d) * d' := Nat.mul_le_mul_right _ hge2
            _ = 2 * (n % d * d') := by ring
            _ ≤ 2 * (n' % d' * d) := Nat.mul_le_mul_left _ hr
            _ = 2 * (n' % d') * d := by ring
        have hge4 : d' ≤ 2 * (n' % d') := by
          refine Nat.le_of_mul_le_mul_right (c := d) ?_ hd
          rw [Nat.mul_comm d' d]; exact hge3
        rcases Nat.lt_or_ge d' (2 * (n' % d')) with h5 | h5
        · exact Or.inl h5
        · refine Or.inr ⟨by omega, ?_⟩
          rcases hc with h6 | h6
          · exfalso
            have h7 : d * d' < 2 * (n' % d') * d := by
              calc d * d' < 2 * (n % d) * d' := Nat.mul_lt_mul_of_pos_right h6 hd'
                _ = 2 * (n % d * d') := by ring
                _ ≤ 2 * (n' % d' * d) := Nat.mul_le_mul_left _ hr
                _ = 2 * (n' % d') * d := by ring
            have h8 : 2 * (n' % d') = d' := by omega
            rw [h8, Nat.mul_comm d' d] at h7
            exact Nat.lt_irrefl _ h7
          · exact h6.2
      rw [if_pos hc, if_pos hc']
    · rw [if_neg hc]; split <;> omega

theorem roundUnits_le (n d : Nat) : roundUnits n d ≤ 0x7F800000 := Nat.min_le_right _ _

/-- The exponent part of `roundUnits`. -/
theorem roundUnits_eq (n d : Nat) : roundUnits n d = min ((Nat.log2 (n / d) - 23) * 2 ^ 23 + roundNearest n (d * 2 ^ (Nat.log2 (n / d) - 23))) 0x7F800000 := rfl

/-- `roundUnits` is monotone in the fraction (10_state.md R22, "the monotonicity of roundTiesToEven"). -/
theorem roundUnits_mono {n d n' d' : Nat} (hd : 0 < d) (hd' : 0 < d') (h : n * d' ≤ n' * d) :
    roundUnits n d ≤ roundUnits n' d' := by
  have hq : n / d ≤ n' / d' := by
    rw [Nat.le_div_iff_mul_le hd']
    refine Nat.le_of_mul_le_mul_right (c := d) ?_ hd
    calc n / d * d' * d = n / d * d * d' := by ring
      _ ≤ n * d' := Nat.mul_le_mul_right _ (Nat.div_mul_le_self n d)
      _ ≤ n' * d := h
  have hlog : Nat.log2 (n / d) ≤ Nat.log2 (n' / d') := by
    rw [Nat.log2_eq_log_two, Nat.log2_eq_log_two]
    exact Nat.log_mono_right hq
  unfold roundUnits
  refine min_le_min_right _ ?_
  generalize he : Nat.log2 (n / d) - 23 = e
  generalize he' : Nat.log2 (n' / d') - 23 = e'
  have hee : e ≤ e' := by omega
  rcases Nat.eq_or_lt_of_le hee with heq | hlt
  · subst heq
    refine Nat.add_le_add_left (roundNearest_mono (Nat.mul_pos hd (Nat.two_pow_pos e)) (Nat.mul_pos hd' (Nat.two_pow_pos e)) ?_) _
    calc n * (d' * 2 ^ e) = n * d' * 2 ^ e := by ring
      _ ≤ n' * d * 2 ^ e := Nat.mul_le_mul_right _ h
      _ = n' * (d * 2 ^ e) := by ring
  · -- the smaller fraction rounds to at most 2^24 of its units, the larger to at least 2^23 of its own
    have hs : roundNearest n (d * 2 ^ e) ≤ 2 ^ 24 := by
      have hb : n / (d * 2 ^ e) < 2 ^ 24 := by
        rw [← Nat.div_div_eq_div_mul]
        rw [Nat.div_lt_iff_lt_mul (Nat.two_pow_pos e)]
        have : n / d < 2 ^ (Nat.log2 (n / d) + 1) := Nat.lt_log2_self
        refine Nat.lt_of_lt_of_le this ?_
        rw [← pow_add]
        exact Nat.pow_le_pow_right (by norm_num) (by omega)
      have := roundNearest_le_succ n (d * 2 ^ e)
      omega
    have hl : 2 ^ 23 ≤ roundNearest n' (d' * 2 ^ e') := by
      refine Nat.le_trans ?_ (le_roundNearest _ _)
      rw [← Nat.div_div_eq_div_mul, Nat.le_div_iff_mul_le (Nat.two_pow_pos e')]
      have hne : n' / d' ≠ 0 := by
        intro h0
        rw [h0] at he'
        simp at he'
        omega
      refine Nat.le_trans ?_ (Nat.log2_self_le hne)
      rw [← pow_add]
      exact Nat.pow_le_pow_right (by norm_num) (by omega)
    have : e * 2 ^ 23 + 2 ^ 24 ≤ e' * 2 ^ 23 + 2 ^ 23 := by omega
    omega

/-- The magnitude, in units, of the finite value whose pattern (bits 30 to 0) is `k`. -/
def magBits (k : Nat) : Nat :=
  if k / 2 ^ 23 = 0 then k % 2 ^ 23 else (2 ^ 23 + k % 2 ^ 23) * 2 ^ (k / 2 ^ 23 - 1)

/-- A finite binary32 magnitude rounds to itself. -/
theorem roundUnits_magBits {k : Nat} (hk : k < 0x7F800000) : roundUnits (magBits k) 1 = k := by
  have hdm : 2 ^ 23 * (k / 2 ^ 23) + k % 2 ^ 23 = k := Nat.div_add_mod k _
  have hm : k % 2 ^ 23 < 2 ^ 23 := Nat.mod_lt _ (by norm_num)
  have key : ∀ e m : Nat, roundNearest (m * 2 ^ e) (1 * 2 ^ e) = m := by
    intro e m
    rw [Nat.one_mul]
    exact roundNearest_mul m _ (Nat.two_pow_pos e)
  unfold roundUnits magBits
  rw [Nat.div_one]
  by_cases h0 : k / 2 ^ 23 = 0
  · rw [if_pos h0]
    have hl : Nat.log2 (k % 2 ^ 23) - 23 = 0 := by
      by_cases hz : k % 2 ^ 23 = 0
      · rw [hz]; rfl
      · have : Nat.log2 (k % 2 ^ 23) < 23 := (Nat.log2_lt hz).2 hm
        omega
    rw [hl]
    have := key 0 (k % 2 ^ 23)
    simp only [pow_zero, Nat.mul_one] at this
    simp only [pow_zero, Nat.mul_one, Nat.zero_mul, Nat.zero_add, this]
    omega
  · rw [if_neg h0]
    have hl : Nat.log2 ((2 ^ 23 + k % 2 ^ 23) * 2 ^ (k / 2 ^ 23 - 1)) - 23 = k / 2 ^ 23 - 1 := by
      have : Nat.log2 ((2 ^ 23 + k % 2 ^ 23) * 2 ^ (k / 2 ^ 23 - 1)) = 23 + (k / 2 ^ 23 - 1) := by
        rw [Nat.log2_eq_iff (by positivity)]
        constructor
        · rw [pow_add]; exact Nat.mul_le_mul_right _ (by omega)
        · rw [show 23 + (k / 2 ^ 23 - 1) + 1 = 24 + (k / 2 ^ 23 - 1) by omega, pow_add]
          exact Nat.mul_lt_mul_of_pos_right (by omega) (Nat.two_pow_pos _)
      omega
    rw [hl, key]
    have : (k / 2 ^ 23 - 1) * 2 ^ 23 + (2 ^ 23 + k % 2 ^ 23) = k := by
      have : 1 ≤ k / 2 ^ 23 := by omega
      obtain ⟨j, hj⟩ : ∃ j, k / 2 ^ 23 = j + 1 := ⟨k / 2 ^ 23 - 1, by omega⟩
      rw [hj] at hdm ⊢
      simp only [Nat.add_sub_cancel]
      omega
    rw [this]
    omega


/-! ### Patterns -/

/-- Bits 30 to 0 of a word. -/
def bits31 (x : Word) : Nat := x.toNat % 2 ^ 31

theorem bits31_lt (x : Word) : bits31 x < 2 ^ 31 := Nat.mod_lt _ (by norm_num)

theorem toNat_eq_bits31 (x : Word) : x.toNat = bits31 x + if signOf x then 2 ^ 31 else 0 := by
  have h := x.isLt
  unfold bits31 signOf
  by_cases hs : 2 ^ 31 ≤ x.toNat
  · simp only [hs, decide_true, if_true]; omega
  · simp only [hs, decide_false, if_false, Bool.false_eq_true]; omega

theorem expField_eq (x : Word) : expField x = bits31 x / 2 ^ 23 := by
  have h := x.isLt
  unfold expField bits31; omega

theorem fracField_eq (x : Word) : fracField x = bits31 x % 2 ^ 23 := by unfold fracField bits31; omega

theorem magOf_eq (x : Word) : magOf x = magBits (bits31 x) := by
  unfold magOf magBits; rw [expField_eq, fracField_eq]

theorem isNaN32_iff (x : Word) : isNaN32 x = true ↔ 0x7F800000 < bits31 x := by
  have h := bits31_lt x
  unfold isNaN32; rw [expField_eq, fracField_eq, Bool.and_eq_true, decide_eq_true_iff, decide_eq_true_iff]; omega

theorem isInf32_iff (x : Word) : isInf32 x = true ↔ bits31 x = 0x7F800000 := by
  have h := bits31_lt x
  unfold isInf32; rw [expField_eq, fracField_eq, Bool.and_eq_true, decide_eq_true_iff, decide_eq_true_iff]; omega

theorem isFinite32_iff (x : Word) : isFinite32 x = true ↔ bits31 x < 0x7F800000 := by
  have h := bits31_lt x
  unfold isFinite32; rw [expField_eq, decide_eq_true_iff]; omega

theorem isNaN32_of_finite {x : Word} (h : isFinite32 x = true) : isNaN32 x = false := by
  rw [isFinite32_iff] at h
  rw [← Bool.not_eq_true, isNaN32_iff]; omega

theorem isInf32_of_finite {x : Word} (h : isFinite32 x = true) : isInf32 x = false := by
  rw [isFinite32_iff] at h
  rw [← Bool.not_eq_true, isInf32_iff]; omega

theorem pack32_toNat {b : Nat} (hb : b < 2 ^ 31) (neg : Bool) :
    (pack32 neg b).toNat = b + if neg then 2 ^ 31 else 0 := by
  unfold pack32
  rw [BitVec.toNat_ofNat, Nat.mod_eq_of_lt]
  split <;> omega

theorem bits31_pack32 {b : Nat} (hb : b < 2 ^ 31) (neg : Bool) : bits31 (pack32 neg b) = b := by
  unfold bits31; rw [pack32_toNat hb]; split <;> omega

theorem signOf_pack32 {b : Nat} (hb : b < 2 ^ 31) (neg : Bool) : signOf (pack32 neg b) = neg := by
  unfold signOf; rw [pack32_toNat hb]
  cases neg
  · rw [if_neg Bool.false_ne_true]; exact decide_eq_false (by omega)
  · rw [if_pos rfl]; exact decide_eq_true (by omega)

/-- A rounded result is never a NaN. -/
theorem isNaN32_pack_round (neg : Bool) (n d : Nat) : isNaN32 (pack32 neg (roundUnits n d)) = false := by
  have h := roundUnits_le n d
  rw [← Bool.not_eq_true, isNaN32_iff, bits31_pack32 (by omega)]; omega

/-- Patterns and magnitudes have the same order. -/
theorem magBits_lt {k k' : Nat} (h : k < k') : magBits k < magBits k' := by
  have hk : 2 ^ 23 * (k / 2 ^ 23) + k % 2 ^ 23 = k := Nat.div_add_mod k _
  have hk' : 2 ^ 23 * (k' / 2 ^ 23) + k' % 2 ^ 23 = k' := Nat.div_add_mod k' _
  have hm : k % 2 ^ 23 < 2 ^ 23 := Nat.mod_lt _ (by norm_num)
  have hm' : k' % 2 ^ 23 < 2 ^ 23 := Nat.mod_lt _ (by norm_num)
  unfold magBits
  generalize k / 2 ^ 23 = q at *
  generalize k' / 2 ^ 23 = q' at *
  generalize k % 2 ^ 23 = m at *
  generalize k' % 2 ^ 23 = m' at *
  have hq : q ≤ q' := by omega
  by_cases h0' : q' = 0
  · have h0 : q = 0 := by omega
    rw [if_pos h0, if_pos h0']; omega
  · rw [if_neg h0']
    have hpos : 1 ≤ 2 ^ (q' - 1) := Nat.one_le_two_pow
    by_cases h0 : q = 0
    · rw [if_pos h0]
      calc m < 2 ^ 23 + m' := by omega
        _ = (2 ^ 23 + m') * 1 := by ring
        _ ≤ (2 ^ 23 + m') * 2 ^ (q' - 1) := Nat.mul_le_mul_left _ hpos
    · rw [if_neg h0]
      rcases Nat.eq_or_lt_of_le hq with he | hl
      · subst he
        exact Nat.mul_lt_mul_of_pos_right (by omega) (by omega)
      · calc (2 ^ 23 + m) * 2 ^ (q - 1) < (2 * 2 ^ 23) * 2 ^ (q - 1) :=
              Nat.mul_lt_mul_of_pos_right (by omega) (Nat.two_pow_pos _)
          _ = 2 ^ 23 * 2 ^ (q - 1 + 1) := by rw [pow_succ]; ring
          _ ≤ 2 ^ 23 * 2 ^ (q' - 1) := Nat.mul_le_mul_left _ (Nat.pow_le_pow_right (by norm_num) (by omega))
          _ ≤ (2 ^ 23 + m') * 2 ^ (q' - 1) := Nat.mul_le_mul_right _ (by omega)

theorem magBits_le_iff {k k' : Nat} : magBits k ≤ magBits k' ↔ k ≤ k' := by
  constructor
  · intro h; by_contra hc; exact absurd (magBits_lt (Nat.lt_of_not_le hc)) (by omega)
  · intro h
    rcases Nat.eq_or_lt_of_le h with rfl | hl
    · exact Nat.le_refl _
    · exact Nat.le_of_lt (magBits_lt hl)

theorem magBits_zero : magBits 0 = 0 := rfl

theorem magBits_one : magBits 0x3F800000 = 2 ^ 149 := by unfold magBits; norm_num

/-- Rounding a whole number of units to a value at most (at least) the pattern `k`. -/
theorem roundUnits_le_of_le {n d k : Nat} (hd : 0 < d) (hk : k < 0x7F800000) (h : n ≤ magBits k * d) :
    roundUnits n d ≤ k := by
  rw [← roundUnits_magBits hk]
  exact roundUnits_mono hd Nat.one_pos (by rw [Nat.mul_one]; exact h)

theorem le_roundUnits_of_le {n d k : Nat} (hd : 0 < d) (hk : k < 0x7F800000) (h : magBits k * d ≤ n) :
    k ≤ roundUnits n d := by
  conv_lhs => rw [← roundUnits_magBits hk]
  exact roundUnits_mono Nat.one_pos hd (by rw [Nat.mul_one]; exact h)

theorem roundUnits_zero (d : Nat) (hd : 0 < d) : roundUnits 0 d = 0 :=
  Nat.le_zero.1 (roundUnits_le_of_le hd (by norm_num) (by simp))

/-! ### Comparisons -/

theorem orderKey_eq (x : Word) : orderKey x = if signOf x then -(bits31 x : Int) else (bits31 x : Int) := rfl

theorem le32_iff (a b : Word) :
    le32 a b = true ↔ isNaN32 a = false ∧ isNaN32 b = false ∧ orderKey a ≤ orderKey b := by
  unfold le32
  rw [Bool.and_eq_true, Bool.and_eq_true, Bool.not_eq_true', Bool.not_eq_true', decide_eq_true_iff, and_assoc]

theorem lt32_iff (a b : Word) :
    lt32 a b = true ↔ isNaN32 a = false ∧ isNaN32 b = false ∧ orderKey a < orderKey b := by
  unfold lt32
  rw [Bool.and_eq_true, Bool.and_eq_true, Bool.not_eq_true', Bool.not_eq_true', decide_eq_true_iff, and_assoc]

theorem le32_refl {a : Word} (h : isNaN32 a = false) : le32 a a = true :=
  (le32_iff a a).2 ⟨h, h, Int.le_refl _⟩

theorem le32_trans {a b c : Word} (h : le32 a b = true) (h' : le32 b c = true) : le32 a c = true := by
  rw [le32_iff] at *
  exact ⟨h.1, h'.2.1, Int.le_trans h.2.2 h'.2.2⟩

/-- Of two values that are no NaN, one is at most the other. -/
theorem le32_total {a b : Word} (ha : isNaN32 a = false) (hb : isNaN32 b = false) (h : le32 a b = false) :
    lt32 b a = true := by
  rw [lt32_iff]
  refine ⟨hb, ha, ?_⟩
  by_contra hc
  rw [← Bool.not_eq_true, le32_iff] at h
  exact h ⟨ha, hb, Int.not_lt.1 hc⟩

theorem le32_of_lt32 {a b : Word} (h : lt32 a b = true) : le32 a b = true := by
  rw [lt32_iff] at h
  rw [le32_iff]
  exact ⟨h.1, h.2.1, Int.le_of_lt h.2.2⟩

theorem lt32_eq_not_le32 {a b : Word} (ha : isNaN32 a = false) (hb : isNaN32 b = false) : lt32 a b = !le32 b a := by
  unfold lt32 le32
  rw [ha, hb]
  simp only [Bool.not_false, Bool.true_and]
  rw [← decide_not]
  exact decide_eq_decide.2 Int.not_le.symm

/-- The comparison is the one of the values, for finite values. -/
theorem le32_iff_valOf {a b : Word} (ha : isFinite32 a = true) (hb : isFinite32 b = true) :
    le32 a b = true ↔ valOf a ≤ valOf b := by
  rw [le32_iff, orderKey_eq, orderKey_eq]
  unfold valOf
  rw [magOf_eq, magOf_eq]
  have key := @magBits_le_iff (bits31 a) (bits31 b)
  have key' := @magBits_le_iff (bits31 b) (bits31 a)
  have za := @magBits_le_iff (bits31 a) 0
  have zb := @magBits_le_iff (bits31 b) 0
  rw [magBits_zero] at za zb
  simp only [isNaN32_of_finite ha, isNaN32_of_finite hb, true_and]
  cases signOf a <;> cases signOf b <;> simp only [if_true, if_false, Bool.false_eq_true] <;> omega

/-! ### The operations round monotonically -/

/-- An upper bound of the exact value is an upper bound of the rounded one. -/
theorem le32_pack_round {neg : Bool} {n d : Nat} {c : Word} (hd : 0 < d) (hc : isFinite32 c = true)
    (h : (if neg then -(n : Int) else (n : Int)) ≤ valOf c * d) : le32 (pack32 neg (roundUnits n d)) c = true := by
  have hr := roundUnits_le n d
  rw [le32_iff, orderKey_eq, orderKey_eq, bits31_pack32 (by omega), signOf_pack32 (by omega)]
  refine ⟨isNaN32_pack_round _ _ _, isNaN32_of_finite hc, ?_⟩
  have hb := (isFinite32_iff c).1 hc
  unfold valOf at h
  rw [magOf_eq] at h
  cases neg <;> cases hs : signOf c <;> simp only [hs, if_true, if_false, Bool.false_eq_true] at h ⊢
  · have : n ≤ magBits (bits31 c) * d := by exact_mod_cast h
    have := roundUnits_le_of_le hd hb this
    omega
  · have h1 : (n : Int) + ((magBits (bits31 c) * d : Nat) : Int) ≤ 0 := by push_cast; linarith
    have hn : n = 0 := by omega
    have hm : magBits (bits31 c) * d = 0 := by omega
    have hm0 : magBits (bits31 c) ≤ magBits 0 := by
      rw [magBits_zero]
      rcases Nat.mul_eq_zero.1 hm with h2 | h2 <;> omega
    have := magBits_le_iff.1 hm0
    rw [hn, roundUnits_zero d hd]; omega
  · omega
  · have : magBits (bits31 c) * d ≤ n := by
      have : ((magBits (bits31 c) * d : Nat) : Int) ≤ n := by push_cast; linarith
      exact_mod_cast this
    have := le_roundUnits_of_le hd hb this
    omega

/-- A lower bound of the exact value is a lower bound of the rounded one. -/
theorem pack_round_le32 {neg : Bool} {n d : Nat} {c : Word} (hd : 0 < d) (hc : isFinite32 c = true)
    (h : valOf c * d ≤ (if neg then -(n : Int) else (n : Int))) : le32 c (pack32 neg (roundUnits n d)) = true := by
  have hr := roundUnits_le n d
  rw [le32_iff, orderKey_eq, orderKey_eq, bits31_pack32 (by omega), signOf_pack32 (by omega)]
  refine ⟨isNaN32_of_finite hc, isNaN32_pack_round _ _ _, ?_⟩
  have hb := (isFinite32_iff c).1 hc
  unfold valOf at h
  rw [magOf_eq] at h
  cases neg <;> cases hs : signOf c <;> simp only [hs, if_true, if_false, Bool.false_eq_true] at h ⊢
  · have : magBits (bits31 c) * d ≤ n := by exact_mod_cast h
    have := le_roundUnits_of_le hd hb this
    omega
  · omega
  · have h1 : ((magBits (bits31 c) * d : Nat) : Int) + (n : Int) ≤ 0 := by push_cast; linarith
    have hn : n = 0 := by omega
    have hm : magBits (bits31 c) * d = 0 := by omega
    have hm0 : magBits (bits31 c) ≤ magBits 0 := by
      rw [magBits_zero]
      rcases Nat.mul_eq_zero.1 hm with h2 | h2 <;> omega
    have := magBits_le_iff.1 hm0
    rw [hn, roundUnits_zero d hd]; omega
  · have : n ≤ magBits (bits31 c) * d := by
      have : (n : Int) ≤ ((magBits (bits31 c) * d : Nat) : Int) := by push_cast; linarith
      exact_mod_cast this
    have := roundUnits_le_of_le hd hb this
    omega

/-- The sum of finite values, as a rounding of the exact sum. -/
theorem add32_finite {a b : Word} (ha : isFinite32 a = true) (hb : isFinite32 b = true) :
    ∃ neg n, add32 a b = pack32 neg (roundUnits n 1) ∧ (if neg then -(n : Int) else (n : Int)) = valOf a + valOf b := by
  unfold add32
  simp only [isNaN32_of_finite ha, isNaN32_of_finite hb, isInf32_of_finite ha, isInf32_of_finite hb, Bool.or_false,
    Bool.false_eq_true, if_false]
  by_cases hz : valOf a + valOf b = 0
  · rw [if_pos hz]
    refine ⟨signOf a && signOf b, 0, ?_, ?_⟩
    · rw [roundUnits_zero 1 Nat.one_pos]
    · rw [hz]; split <;> rfl
  · rw [if_neg hz]
    refine ⟨_, _, rfl, ?_⟩
    by_cases hn : valOf a + valOf b < 0
    · simp only [hn, decide_true, if_true]; omega
    · simp only [hn, decide_false, if_false, Bool.false_eq_true]; omega

theorem add32_le {a b c : Word} (ha : isFinite32 a = true) (hb : isFinite32 b = true) (hc : isFinite32 c = true)
    (h : valOf a + valOf b ≤ valOf c) : le32 (add32 a b) c = true := by
  obtain ⟨neg, n, e, hv⟩ := add32_finite ha hb
  rw [e]
  exact le32_pack_round Nat.one_pos hc (by rw [hv]; simpa using h)

theorem le_add32 {a b c : Word} (ha : isFinite32 a = true) (hb : isFinite32 b = true) (hc : isFinite32 c = true)
    (h : valOf c ≤ valOf a + valOf b) : le32 c (add32 a b) = true := by
  obtain ⟨neg, n, e, hv⟩ := add32_finite ha hb
  rw [e]
  exact pack_round_le32 Nat.one_pos hc (by rw [hv]; simpa using h)

theorem bits31_neg32 (x : Word) : bits31 (neg32 x) = bits31 x := by
  have e : bits31 (neg32 x) = (BitVec.extractLsb' 0 31 (neg32 x)).toNat := by
    unfold bits31; simp
  have e' : bits31 x = (BitVec.extractLsb' 0 31 x).toNat := by unfold bits31; simp
  rw [e, e']
  congr 1
  unfold neg32
  ext i hi
  simp only [BitVec.getElem_extractLsb', Nat.zero_add, BitVec.getLsbD_xor]
  have : (0x80000000 : BitVec 32).getLsbD i = false := by
    interval_cases i <;> rfl
  rw [this, Bool.xor_false]

theorem signOf_eq_msb (x : Word) : signOf x = x.getLsbD 31 := by
  have h := x.isLt
  unfold signOf
  rw [BitVec.getLsbD, Nat.testBit_eq_decide_div_mod_eq]
  exact decide_eq_decide.2 (by omega)

theorem signOf_neg32 (x : Word) : signOf (neg32 x) = !signOf x := by
  rw [signOf_eq_msb, signOf_eq_msb]
  unfold neg32
  rw [BitVec.getLsbD_xor]
  have : (0x80000000 : BitVec 32).getLsbD 31 = true := rfl
  rw [this, Bool.xor_true]

theorem valOf_neg32 (x : Word) : valOf (neg32 x) = -valOf x := by
  unfold valOf
  rw [magOf_eq, magOf_eq, bits31_neg32, signOf_neg32]
  cases signOf x <;> simp

theorem isFinite32_neg32 (x : Word) : isFinite32 (neg32 x) = isFinite32 x := by
  rw [Bool.eq_iff_iff, isFinite32_iff, isFinite32_iff, bits31_neg32]

theorem sub32_le {a b c : Word} (ha : isFinite32 a = true) (hb : isFinite32 b = true) (hc : isFinite32 c = true)
    (h : valOf a - valOf b ≤ valOf c) : le32 (sub32 a b) c = true :=
  add32_le ha (by rw [isFinite32_neg32]; exact hb) hc (by rw [valOf_neg32]; exact h)

theorem le_sub32 {a b c : Word} (ha : isFinite32 a = true) (hb : isFinite32 b = true) (hc : isFinite32 c = true)
    (h : valOf c ≤ valOf a - valOf b) : le32 c (sub32 a b) = true :=
  le_add32 ha (by rw [isFinite32_neg32]; exact hb) hc (by rw [valOf_neg32]; exact h)

theorem signed_mul (a b : Word) :
    (if (signOf a != signOf b) then -((magOf a * magOf b : Nat) : Int) else ((magOf a * magOf b : Nat) : Int)) =
      valOf a * valOf b := by
  unfold valOf
  cases signOf a <;> cases signOf b <;> simp

theorem mul32_finite {a b : Word} (ha : isFinite32 a = true) (hb : isFinite32 b = true) :
    mul32 a b = pack32 (signOf a != signOf b) (roundUnits (magOf a * magOf b) (2 ^ 149)) := by
  unfold mul32
  simp only [isNaN32_of_finite ha, isNaN32_of_finite hb, isInf32_of_finite ha, isInf32_of_finite hb, Bool.or_false,
    Bool.false_eq_true, if_false]

theorem mul32_le {a b c : Word} (ha : isFinite32 a = true) (hb : isFinite32 b = true) (hc : isFinite32 c = true)
    (h : valOf a * valOf b ≤ valOf c * 2 ^ 149) : le32 (mul32 a b) c = true := by
  rw [mul32_finite ha hb]
  refine le32_pack_round (Nat.two_pow_pos _) hc ?_
  rw [signed_mul]; push_cast; exact h

theorem le_mul32 {a b c : Word} (ha : isFinite32 a = true) (hb : isFinite32 b = true) (hc : isFinite32 c = true)
    (h : valOf c * 2 ^ 149 ≤ valOf a * valOf b) : le32 c (mul32 a b) = true := by
  rw [mul32_finite ha hb]
  refine pack_round_le32 (Nat.two_pow_pos _) hc ?_
  rw [signed_mul]; push_cast; exact h

theorem div32_finite {a b : Word} (ha : isFinite32 a = true) (hb : isFinite32 b = true) (hz : magOf b ≠ 0) :
    div32 a b = pack32 (signOf a != signOf b) (roundUnits (magOf a * 2 ^ 149) (magOf b)) := by
  unfold div32
  simp only [isNaN32_of_finite ha, isNaN32_of_finite hb, isInf32_of_finite ha, isInf32_of_finite hb, Bool.or_false,
    Bool.false_eq_true, if_false, if_neg hz]

/-- Division by a positive value. -/
theorem div32_le {a b c : Word} (ha : isFinite32 a = true) (hb : isFinite32 b = true) (hc : isFinite32 c = true)
    (hp : 0 < valOf b) (h : valOf a * 2 ^ 149 ≤ valOf c * valOf b) : le32 (div32 a b) c = true := by
  unfold valOf at hp
  cases hs : signOf b <;> simp only [hs, if_true, if_false, Bool.false_eq_true] at hp
  · have hz : magOf b ≠ 0 := by omega
    rw [div32_finite ha hb hz]
    refine le32_pack_round (by omega) hc ?_
    unfold valOf at h ⊢
    cases hsa : signOf a <;> simp [hs, hsa] at h ⊢ <;> exact h
  · omega

theorem le_div32 {a b c : Word} (ha : isFinite32 a = true) (hb : isFinite32 b = true) (hc : isFinite32 c = true)
    (hp : 0 < valOf b) (h : valOf c * valOf b ≤ valOf a * 2 ^ 149) : le32 c (div32 a b) = true := by
  unfold valOf at hp
  cases hs : signOf b <;> simp only [hs, if_true, if_false, Bool.false_eq_true] at hp
  · have hz : magOf b ≠ 0 := by omega
    rw [div32_finite ha hb hz]
    refine pack_round_le32 (by omega) hc ?_
    unfold valOf at h ⊢
    cases hsa : signOf a <;> simp [hs, hsa] at h ⊢ <;> exact h
  · omega


/-! ### Ranges -/

theorem finite_of_le32 {a r b : Word} (ha : isFinite32 a = true) (hb : isFinite32 b = true) (h : le32 a r = true)
    (h' : le32 r b = true) : isFinite32 r = true := by
  rw [isFinite32_iff] at *
  rw [le32_iff, orderKey_eq, orderKey_eq] at h h'
  have h1 := h.2.2
  have h2 := h'.2.2
  cases hs : signOf r <;> simp only [hs, if_true, if_false, Bool.false_eq_true] at h1 h2
  · split at h2 <;> omega
  · split at h1 <;> omega

theorem isFinite32_zero : isFinite32 zero32 = true := by decide
theorem isFinite32_one : isFinite32 one32 = true := by decide
theorem isFinite32_negOne : isFinite32 negOne32 = true := by decide
theorem valOf_zero : valOf zero32 = 0 := by decide
theorem valOf_one : valOf one32 = 2 ^ 149 := by decide +kernel
theorem valOf_negOne : valOf negOne32 = -2 ^ 149 := by decide +kernel

theorem le32_zero_iff {x : Word} (h : isFinite32 x = true) : le32 zero32 x = true ↔ 0 ≤ valOf x := by
  rw [le32_iff_valOf isFinite32_zero h, valOf_zero]

/-- In [0, 1] as a value. -/
theorem isUnit32_iff (v : Word) : isUnit32 v = true ↔ isFinite32 v = true ∧ 0 ≤ valOf v ∧ valOf v ≤ 2 ^ 149 := by
  unfold isUnit32
  rw [Bool.and_eq_true]
  constructor
  · rintro ⟨h, h'⟩
    have hf := finite_of_le32 isFinite32_zero isFinite32_one h h'
    rw [le32_zero_iff hf] at h
    rw [le32_iff_valOf hf isFinite32_one, valOf_one] at h'
    exact ⟨hf, h, h'⟩
  · rintro ⟨hf, h, h'⟩
    rw [le32_zero_iff hf, le32_iff_valOf hf isFinite32_one, valOf_one]
    exact ⟨h, h'⟩

theorem isNonneg32_iff (v : Word) : isNonneg32 v = true ↔ isFinite32 v = true ∧ 0 ≤ valOf v := by
  unfold isNonneg32
  rw [Bool.and_eq_true]
  exact ⟨fun h => ⟨h.1, (le32_zero_iff h.1).1 h.2⟩, fun h => ⟨h.1, (le32_zero_iff h.1).2 h.2⟩⟩

/-- A finite value ≥ 0 has the value of its magnitude. -/
theorem valOf_nonneg {x : Word} (h : 0 ≤ valOf x) : valOf x = magOf x := by
  unfold valOf at *
  split at h
  · rename_i hs; rw [if_pos hs]; omega
  · rename_i hs; rw [if_neg hs]

/-! ### Exact results -/

/-- A product `m * 2^e` with `m < 2^24` in the finite range is the magnitude of a binary32. -/
theorem exists_magBits {m e : Nat} (hm : m < 2 ^ 24) (hb : m * 2 ^ e < 2 ^ 277) :
    ∃ k, k < 0x7F800000 ∧ magBits k = m * 2 ^ e := by
  by_cases hs : m * 2 ^ e < 2 ^ 23
  · refine ⟨m * 2 ^ e, by omega, ?_⟩
    unfold magBits
    rw [Nat.div_eq_of_lt hs, Nat.mod_eq_of_lt hs, if_pos rfl]
  · have hs' := Nat.le_of_not_lt hs
    have hm0 : m ≠ 0 := by rintro rfl; simp at hs
    -- the exponent that brings m to 24 bits
    obtain ⟨j, hj, hj2⟩ : ∃ j, 2 ^ 23 ≤ m * 2 ^ j ∧ m * 2 ^ j < 2 ^ 24 := by
      refine ⟨23 - Nat.log2 m, ?_⟩
      have h1 : 2 ^ Nat.log2 m ≤ m := Nat.log2_self_le hm0
      have h2 : m < 2 ^ (Nat.log2 m + 1) := Nat.lt_log2_self
      have h3 : Nat.log2 m < 24 := (Nat.log2_lt hm0).2 hm
      constructor
      · calc 2 ^ 23 = 2 ^ Nat.log2 m * 2 ^ (23 - Nat.log2 m) := by rw [← pow_add]; congr 1; omega
          _ ≤ m * 2 ^ (23 - Nat.log2 m) := Nat.mul_le_mul_right _ h1
      · calc m * 2 ^ (23 - Nat.log2 m) < 2 ^ (Nat.log2 m + 1) * 2 ^ (23 - Nat.log2 m) :=
              Nat.mul_lt_mul_of_pos_right h2 (Nat.two_pow_pos _)
          _ = 2 ^ 24 := by rw [← pow_add]; congr 1; omega
    have hje : j ≤ e := by
      by_contra hc
      have h4 : e + 1 ≤ j := by omega
      have h5 : m * 2 ^ e * 2 ≤ m * 2 ^ j := by
        rw [Nat.mul_assoc, ← pow_succ]
        exact Nat.mul_le_mul_left _ (Nat.pow_le_pow_right (by norm_num) h4)
      omega
    have hsplit : m * 2 ^ e = m * 2 ^ j * 2 ^ (e - j) := by
      rw [Nat.mul_assoc, ← pow_add]; congr 2; omega
    have he : e - j < 254 := by
      by_contra hc
      have h6 : 2 ^ 277 ≤ m * 2 ^ e := by
        rw [hsplit]
        calc 2 ^ 277 = 2 ^ 23 * 2 ^ 254 := pow_add 2 23 254
          _ ≤ m * 2 ^ j * 2 ^ (e - j) := Nat.mul_le_mul hj (Nat.pow_le_pow_right (by norm_num) (by omega))
      omega
    refine ⟨(e - j + 1) * 2 ^ 23 + (m * 2 ^ j - 2 ^ 23), by omega, ?_⟩
    unfold magBits
    have hq : ((e - j + 1) * 2 ^ 23 + (m * 2 ^ j - 2 ^ 23)) / 2 ^ 23 = e - j + 1 := by omega
    have hr : ((e - j + 1) * 2 ^ 23 + (m * 2 ^ j - 2 ^ 23)) % 2 ^ 23 = m * 2 ^ j - 2 ^ 23 := by omega
    have hm' : 2 ^ 23 + (m * 2 ^ j - 2 ^ 23) = m * 2 ^ j := by omega
    rw [hq, hr, if_neg (Nat.succ_ne_zero _), hm', Nat.add_sub_cancel, hsplit]

/-- Every finite magnitude is `m * 2^e` with `m < 2^24`, and below `2^277`. -/
theorem magBits_form {k : Nat} (hk : k < 0x7F800000) :
    ∃ m e, m < 2 ^ 24 ∧ e ≤ 253 ∧ magBits k = m * 2 ^ e := by
  have hm : k % 2 ^ 23 < 2 ^ 23 := Nat.mod_lt _ (by norm_num)
  unfold magBits
  by_cases h0 : k / 2 ^ 23 = 0
  · rw [if_pos h0]; exact ⟨k % 2 ^ 23, 0, by omega, by omega, by simp⟩
  · rw [if_neg h0]
    refine ⟨2 ^ 23 + k % 2 ^ 23, k / 2 ^ 23 - 1, by omega, by omega, rfl⟩

theorem magBits_lt_top {k : Nat} (hk : k < 0x7F800000) : magBits k < 2 ^ 277 := by
  obtain ⟨m, e, hm, he, h⟩ := magBits_form hk
  rw [h]
  rw [show 277 = 24 + 253 from rfl, pow_add]
  exact lt_of_lt_of_le (Nat.mul_lt_mul_of_pos_right hm (Nat.two_pow_pos _))
    (Nat.mul_le_mul_left _ (Nat.pow_le_pow_right (by norm_num) he))

/-- The remainder of a finite magnitude by a power of two is a finite magnitude (00_scope.md R9, "exactly
representable"). -/
theorem exists_magBits_mod {k p : Nat} (hk : k < 0x7F800000) :
    ∃ k', k' < 0x7F800000 ∧ magBits k' = magBits k % 2 ^ p := by
  obtain ⟨m, e, hm, he, h⟩ := magBits_form hk
  have htop := magBits_lt_top hk
  by_cases hp : p ≤ e
  · refine ⟨0, by norm_num, ?_⟩
    rw [h, magBits_zero]
    have : (2 : Nat) ^ p ∣ m * 2 ^ e := Dvd.dvd.mul_left (pow_dvd_pow 2 hp) m
    exact (Nat.mod_eq_zero_of_dvd this).symm
  · have e1 : m * 2 ^ e % 2 ^ p = m % 2 ^ (p - e) * 2 ^ e := by
      have : (2 : Nat) ^ p = 2 ^ (p - e) * 2 ^ e := by rw [← pow_add]; congr 1; omega
      rw [this, Nat.mul_mod_mul_right]
    have hle : m % 2 ^ (p - e) ≤ m := Nat.mod_le _ _
    rw [h, e1]
    refine exists_magBits (by omega) ?_
    rw [h] at htop
    exact Nat.lt_of_le_of_lt (Nat.mul_le_mul_right _ hle) htop

/-- `wrapL` of a finite value ≥ 0 (00_scope.md R9): its magnitude is the remainder by L, exactly. -/
theorem wrapL_spec {j : Nat} {x : Word} (hx : isNonneg32 x = true) :
    isNonneg32 (wrapL (2 ^ j) x) = true ∧ magOf (wrapL (2 ^ j) x) = magOf x % (2 ^ j * 2 ^ 149) := by
  have hf := (isFinite32_iff x).1 ((isNonneg32_iff x).1 hx).1
  obtain ⟨k, hk, hv⟩ := exists_magBits_mod (k := bits31 x) (p := j + 149) hf
  have hw : wrapL (2 ^ j) x = pack32 false k := by
    unfold wrapL
    rw [if_pos hx, magOf_eq, ← pow_add, ← hv, roundUnits_magBits hk]
  have hb : bits31 (wrapL (2 ^ j) x) = k := by rw [hw, bits31_pack32 (by omega)]
  have hs : signOf (wrapL (2 ^ j) x) = false := by rw [hw, signOf_pack32 (by omega)]
  have hm : magOf (wrapL (2 ^ j) x) = magBits k := by rw [magOf_eq, hb]
  refine ⟨?_, by rw [hm, hv, magOf_eq, pow_add]⟩
  rw [isNonneg32_iff, isFinite32_iff, hb]
  refine ⟨hk, ?_⟩
  unfold valOf
  rw [hs, if_neg Bool.false_ne_true]; omega

/-! ### The precomputed values -/

/-- A converted whole number is finite and ≥ 0, and ≥ 1.0 unless it is 0. -/
theorem u2f_spec (u : Word) : isNonneg32 (u2f u) = true ∧ (u ≠ 0 → 2 ^ 149 ≤ valOf (u2f u)) := by
  have hu := u.isLt
  have hk : roundUnits (u.toNat * 2 ^ 149) 1 ≤ 0x4F800000 := by
    refine roundUnits_le_of_le Nat.one_pos (by norm_num) ?_
    have : magBits 0x4F800000 = 2 ^ 32 * 2 ^ 149 := by unfold magBits; norm_num
    rw [this, Nat.mul_one]
    exact Nat.mul_le_mul_right _ (by omega)
  have hb : bits31 (u2f u) = roundUnits (u.toNat * 2 ^ 149) 1 := bits31_pack32 (by omega) _
  have hs : signOf (u2f u) = false := signOf_pack32 (by omega) _
  have hv : valOf (u2f u) = magOf (u2f u) := by unfold valOf; rw [hs, if_neg Bool.false_ne_true]
  refine ⟨?_, fun hz => ?_⟩
  · rw [isNonneg32_iff, isFinite32_iff, hb, hv]; omega
  · have h1 : 1 ≤ u.toNat := by
      by_contra hc
      exact hz (BitVec.eq_of_toNat_eq (by simp; omega))
    have : 0x3F800000 ≤ roundUnits (u.toNat * 2 ^ 149) 1 := by
      refine le_roundUnits_of_le Nat.one_pos (by norm_num) ?_
      rw [magBits_one, Nat.mul_one]
      calc 2 ^ 149 = 1 * 2 ^ 149 := (Nat.one_mul _).symm
        _ ≤ u.toNat * 2 ^ 149 := Nat.mul_le_mul_right _ h1
    have := magBits_le_iff.2 this
    rw [magBits_one] at this
    rw [hv, magOf_eq, hb]
    exact_mod_cast this

/-- A ratio of a value in [0, 1] to a whole number other than 0 is in [0, 1]. -/
theorem div_u2f_unit {x u : Word} (hx : isUnit32 x = true) (hu : u ≠ 0) : isUnit32 (div32 x (u2f u)) = true := by
  obtain ⟨hf, h0, h1⟩ := (isUnit32_iff x).1 hx
  obtain ⟨hn, hge⟩ := u2f_spec u
  have hge := hge hu
  have hfu := ((isNonneg32_iff _).1 hn).1
  have hpos : 0 < valOf (u2f u) := lt_of_lt_of_le (by norm_num) hge
  unfold isUnit32
  rw [Bool.and_eq_true]
  constructor
  · refine le_div32 hf hfu isFinite32_zero hpos ?_
    rw [valOf_zero, Int.zero_mul]
    exact Int.mul_nonneg h0 (by norm_num)
  · refine div32_le hf hfu isFinite32_one hpos ?_
    rw [valOf_one]
    calc valOf x * 2 ^ 149 ≤ 2 ^ 149 * 2 ^ 149 := Int.mul_le_mul_of_nonneg_right h1 (by norm_num)
      _ ≤ 2 ^ 149 * valOf (u2f u) := Int.mul_le_mul_of_nonneg_left hge (by norm_num)

/-- The release decrement of a level in [0, 1] (42_envelope.md R166) is in [0, 1]. -/
theorem relDec_unit {x r : Word} (hx : isUnit32 x = true) :
    isUnit32 (if r = 0 then zero32 else div32 x (u2f r)) = true := by
  split
  · decide
  · rename_i h; exact div_u2f_unit hx h

theorem isUnit32_zero : isUnit32 zero32 = true := by decide
theorem isUnit32_one : isUnit32 one32 = true := by decide

theorem isNonneg32_of_unit {x : Word} (h : isUnit32 x = true) : isNonneg32 x = true := by
  rw [isUnit32_iff] at h; rw [isNonneg32_iff]; exact ⟨h.1, h.2.1⟩

/-- `ATTACK_INC` (10_state.md R27) is in [0, 1]. -/
theorem attackIncOf_unit (a : Word) : isUnit32 (attackIncOf a) = true := by
  unfold attackIncOf
  split
  · decide
  · rename_i h; exact div_u2f_unit isUnit32_one h

/-- `1.0 - S` of a sustain level is in [0, 1]. -/
theorem sub_one_unit {s : Word} (hs : isUnit32 s = true) : isUnit32 (sub32 one32 s) = true := by
  obtain ⟨hf, h0, h1⟩ := (isUnit32_iff s).1 hs
  unfold isUnit32
  rw [Bool.and_eq_true]
  constructor
  · exact le_sub32 isFinite32_one hf isFinite32_zero (by rw [valOf_one, valOf_zero]; omega)
  · exact sub32_le isFinite32_one hf isFinite32_one (by rw [valOf_one]; omega)

/-- `DECAY_DEC` (10_state.md R27) is in [0, 1]. -/
theorem decayDecOf_unit {d s : Word} (hs : isUnit32 s = true) : isUnit32 (decayDecOf d s) = true := by
  unfold decayDecOf
  split
  · decide
  · rename_i h; exact div_u2f_unit (sub_one_unit hs) h

end Sys2Proof.Machine
end

