-- ==== Sys2Proof/Laws/Pool.lean ====
section
/-! SUPPORT. What each operation on the voice pool can do, and what each does to a voice as the pool keeps it (`VoiceOk`):
the lemmas an invariant over the voices is proved with. -/

namespace Sys2Proof.Machine

variable {s t u : State}

/-! ### Lists of voices -/

theorem forall_modify {P : Voice → Prop} {vs : List Voice} {i : Nat} {f : Voice → Voice} (h : ∀ v ∈ vs, P v)
    (hf : ∀ v, P v → P (f v)) : ∀ v ∈ vs.modify i f, P v := by
  intro v hv
  obtain ⟨j, hj⟩ := List.mem_iff_getElem?.1 hv
  rw [List.getElem?_modify] at hj
  cases hj' : vs[j]? with
  | none => rw [hj'] at hj; simp at hj
  | some w =>
    rw [hj'] at hj
    have hw : P w := h w (List.mem_iff_getElem?.2 ⟨j, hj'⟩)
    simp at hj
    subst hj
    split
    · exact hf w hw
    · exact hw

theorem modify_modify {vs : List Voice} {i : Nat} {f g : Voice → Voice} :
    (vs.modify i g).modify i f = vs.modify i fun v => f (g v) := by
  apply List.ext_getElem?
  intro j
  simp only [List.getElem?_modify]
  cases vs[j]? with
  | none => rfl
  | some v => by_cases h : i = j <;> simp [h]

theorem modify_eq_set {vs : List Voice} {i : Nat} {f : Voice → Voice} {v : Voice} (h : vs[i]? = some v) :
    vs.modify i f = vs.set i (f v) := by
  apply List.ext_getElem?
  intro j
  rw [List.getElem?_modify, List.getElem?_set]
  by_cases hij : i = j
  · subst hij
    obtain ⟨hl, hv⟩ := List.getElem?_eq_some_iff.1 h
    simp [hl, hv]
  · simp [hij]

/-- What every tick keeps of each voice, a block's frames keep of all; the number of voices stays. -/
theorem renderFrames_voices {P : Params → List WtEntry → ParamRegs → Voice → Prop}
    (hP : ∀ par wt p v v', Ticked par.tableLen wt p v v' → P par wt p v → P par wt p v') {n f : Nat}
    (h : renderFrames n f s = .ok u) (hs : ∀ v ∈ s.voices, P s.par s.wt s.p v) :
    (∀ v ∈ u.voices, P s.par s.wt s.p v) ∧ u.voices.length = s.voices.length := by
  have key : (∀ v ∈ u.voices, P u.par u.wt u.p v) ∧ u.voices.length = s.voices.length := by
    refine renderFrames_ind
      (P := fun u => (∀ v ∈ u.voices, P u.par u.wt u.p v) ∧ u.voices.length = s.voices.length) ?_ h ⟨hs, rfl⟩
    intro s1 t m f hs1 ht
    obtain ⟨vs, e, h2⟩ := mixFrame_ok ht
    obtain ⟨m', d', e2⟩ := writeChannels_cases m f t.blkChannels.toNat 0 t
    rw [e2, e]
    have hlen : vs.length = s.voices.length := h2.length_eq ▸ hs1.2
    refine ⟨fun v hv => ?_, hlen⟩
    obtain ⟨j, hj⟩ := List.mem_iff_getElem?.1 hv
    have hjl : j < vs.length := (List.getElem?_eq_some_iff.1 hj).1
    have hj1 : j < s1.voices.length := by rw [h2.length_eq]; exact hjl
    have hx := List.forall₂_iff_get.1 h2 |>.2 j hj1 hjl
    have hv' : vs.get ⟨j, hjl⟩ = v := by
      have := (List.getElem?_eq_some_iff.1 hj).2
      simpa using this
    rw [hv'] at hx
    exact hP _ _ _ _ _ hx (hs1.1 _ (List.get_mem _ _))
  obtain ⟨vs, m, d, e⟩ := renderFrames_cases h
  rw [e] at key ⊢
  exact key

/-! ### What the manager's operations do to the voices -/

/-- A note-on changes one voice: it is prepared (kept, its history cleared, or released) and assigned
(45_voice_manager.md R200). -/
theorem vmNoteOn_voices (n : BitVec 7) (vel : Word) (s : State) :
    ∃ i g, (vmNoteOn n vel s).voices =
        s.voices.modify i (fun v => assignVoice s.par.tableLen s.fs s.p n vel (s.trigSeq + 1) (g v)) ∧
      (g = id ∨ g = (fun v => { v with y1 := zero32 }) ∨ g = releaseVoice s.p.releaseSamples) := by
  unfold vmNoteOn chooseVoice assign
  dsimp only
  split
  · rename_i i h; exact ⟨i, id, rfl, Or.inl rfl⟩
  · split
    · rename_i i h; exact ⟨i, _, modify_modify, Or.inr (Or.inl rfl)⟩
    · exact ⟨_, _, modify_modify, Or.inr (Or.inr rfl)⟩

theorem vmNoteOn_par (n : BitVec 7) (vel : Word) (s : State) : (vmNoteOn n vel s).par = s.par := by rw [vmNoteOn_eq]

theorem applyCC_voices (id : Byte) (v : Word) (s : State) : (applyCC id v s).voices = s.voices := by
  rcases applyCC_cases id v s with ⟨q, e⟩ | ⟨c, e⟩ <;> rw [e]
  exact raiseError_voices _ _ _

theorem applyCC_par (id : Byte) (v : Word) (s : State) : (applyCC id v s).par = s.par := by
  rcases applyCC_cases id v s with ⟨q, e⟩ | ⟨c, e⟩ <;> rw [e]
  exact raiseError_par _ _ _

theorem applyEvent_par (e : EvtWord) (s : State) : (applyEvent e s).par = s.par := by rw [(applyEvent_frame e s).1]

/-- A release leaves every field but the stage and the two release fields (42_envelope.md R166). -/
theorem releaseVoice_eq (r : Word) (v : Voice) :
    releaseVoice r v = { v with stage := (releaseVoice r v).stage, relCnt := (releaseVoice r v).relCnt,
                                relDec := (releaseVoice r v).relDec } := by
  unfold releaseVoice; split <;> rfl

/-! ### A voice as the pool keeps it -/

theorem VoiceOk.reset : VoiceOk Voice.reset := ⟨fun _ => rfl, fun _ => rfl, fun _ => rfl⟩

theorem VoiceOk.withInc {v : Voice} (h : VoiceOk v) (x : Word) : VoiceOk { v with inc := x } := h

theorem VoiceOk.release {v : Voice} (ha : v.active = true) (h : VoiceOk v) (r : Word) : VoiceOk (releaseVoice r v) := by
  unfold releaseVoice
  split
  · exact h
  · exact h
  all_goals exact ⟨by simp [ha], by simp, by simp⟩

theorem VoiceOk.assign (len : Nat) (fs : Word) (p : ParamRegs) (n : BitVec 7) (vel : Word) (seq : BitVec 64) (v : Voice) :
    VoiceOk (assignVoice len fs p n vel seq v) := by
  unfold assignVoice triggerVoice; exact ⟨by simp, by simp, by simp⟩

theorem VoiceOk.envTick {v : Voice} (ha : v.active = true) (h : VoiceOk v) (p : ParamRegs) : VoiceOk (envTick p v) := by
  obtain ⟨h1, h2, h3⟩ := h
  unfold Machine.envTick
  split <;> rename_i hs
  · exact ⟨fun _ => hs, fun _ => rfl, fun _ => h3 (by rw [hs]; decide)⟩
  · have h4 := h3 (by rw [hs]; decide)
    unfold attackTick; (repeat' split) <;> refine ⟨by simp [ha], by simp [hs], by simp [hs, h4]⟩
  · have h4 := h3 (by rw [hs]; decide)
    unfold decayTick; (repeat' split) <;> refine ⟨by simp [ha], by simp [hs], by simp [hs, h4]⟩
  · have h4 := h3 (by rw [hs]; decide)
    unfold sustainTick; refine ⟨by simp [ha], by simp [hs], by simp [hs, h4]⟩
  · unfold releaseTick; split
    · exact ⟨fun _ => rfl, fun _ => rfl, fun _ => rfl⟩
    · exact ⟨by simp [ha], by simp [hs], by simp [hs]⟩

theorem VoiceOk.ticked {len : Nat} {wt : List WtEntry} {p : ParamRegs} {v v' : Voice} (h : Ticked len wt p v v')
    (hv : VoiceOk v) : VoiceOk v' := by
  rcases h with ⟨_, rfl⟩ | ⟨ha, y, hy⟩
  · exact hv
  · rw [voiceSample_ok hy]; exact hv.envTick ha p

/-- A reclaim writes `ACTIVE` alone, and only to 0 (45_voice_manager.md R208). -/
theorem reclaimVoice_eq (v : Voice) : reclaimVoice v = { v with active := (reclaimVoice v).active } := by
  unfold reclaimVoice; split <;> rfl

theorem reclaimVoice_active {v : Voice} (h : (reclaimVoice v).active = true) : v.active = true := by
  unfold reclaimVoice at h
  split at h
  · cases h
  · exact h

theorem VoiceOk.reclaim {v : Voice} (h : VoiceOk v) : VoiceOk (reclaimVoice v) := by
  unfold reclaimVoice isFinished
  split
  · rename_i hc
    simp only [Bool.and_eq_true, decide_eq_true_eq] at hc
    exact ⟨fun _ => hc.2, h.2.1, h.2.2⟩
  · exact h

/-! ### Trigger stamps -/

/-- An event keeps every stamp in 1..`TRIG_SEQ` and triggers at most once (45_voice_manager.md R209), with room for `b`
events more before `TRIG_SEQ` wraps. -/
theorem SeqInv.applyEvent (e : EvtWord) {s : State} {b : Nat} (hb : s.trigSeq.toNat + (b + 1) < 2 ^ 64) (h : SeqInv s) :
    SeqInv (applyEvent e s) ∧ (applyEvent e s).trigSeq.toNat + b < 2 ^ 64 := by
  unfold Machine.applyEvent
  split
  · rename_i n vel _
    have h1 : (s.trigSeq + 1).toNat = s.trigSeq.toNat + 1 := by
      rw [BitVec.toNat_add]; simp; omega
    have ht : (vmNoteOn n vel s).trigSeq = s.trigSeq + 1 := by rw [vmNoteOn_eq]
    refine ⟨?_, by rw [ht, h1]; omega⟩
    obtain ⟨i, g, hv, hg⟩ := vmNoteOn_voices n vel s
    unfold SeqInv
    rw [hv, ht, h1]
    refine forall_modify (P := fun v : Voice => v.active = true → 1 ≤ v.seq.toNat ∧ v.seq.toNat ≤ s.trigSeq.toNat + 1) ?_ ?_
    · intro v hv ha; have := h v hv ha; omega
    · intro v _ _
      have : (assignVoice s.par.tableLen s.fs s.p n vel (s.trigSeq + 1) (g v)).seq = s.trigSeq + 1 := rfl
      rw [this, h1]; omega
  · refine ⟨?_, by simp only [vmNoteOff]; omega⟩
    intro v hv ha
    simp only [vmNoteOff, List.mem_map] at hv ⊢
    obtain ⟨u, hu, rfl⟩ := hv
    split at ha
    · rw [releaseVoice_eq] at ha ⊢; rw [if_pos (by assumption)]; exact h u hu ha
    · rw [if_neg (by assumption)]; exact h u hu ha
  · rename_i id v _
    have : (applyCC id v s).trigSeq = s.trigSeq := by
      rcases applyCC_cases id v s with ⟨q, e⟩ | ⟨c, e⟩ <;> rw [e]; simp
    refine ⟨?_, by rw [this]; omega⟩
    unfold SeqInv; rw [applyCC_voices, this]; exact h
  · unfold SeqInv; simp; exact ⟨h, by omega⟩

theorem SeqInv.applyEvents : ∀ (es : List EvtWord) (s : State), s.trigSeq.toNat + es.length < 2 ^ 64 → SeqInv s →
    SeqInv (applyEvents es s)
  | [], _, _, h => h
  | e :: es, s, hb, h => by
    obtain ⟨h1, h2⟩ := SeqInv.applyEvent e (b := es.length) (by simpa using hb) h
    exact SeqInv.applyEvents es _ h2 h1

/-- A drain keeps every stamp in 1..`TRIG_SEQ` until `TRIG_SEQ` wraps (R209). -/
theorem SeqInv.drain {s : State} (hb : s.trigSeq.toNat + s.fifo.length < 2 ^ 64) (h : SeqInv s) : SeqInv (drainBlock s) := by
  intro v hv ha
  simp only [drainBlock, reclaim, List.mem_map] at hv
  obtain ⟨u, hu, rfl⟩ := hv
  rw [reclaimVoice_eq]
  exact SeqInv.applyEvents s.fifo { s with fifo := [] } hb h u hu (reclaimVoice_active ha)

end Sys2Proof.Machine
end

