-- ==== Sys2Proof/Laws/Level.lean ====
section
/-! SUPPORT. Levels stay levels (42_envelope.md R172): one tick, one release, one sum and one difference. -/

namespace Sys2Proof.Machine

/-- A level: in [0, 1] and not -0.0. -/
theorem isLevel_iff (v : Word) : isLevel v = true ↔ isUnit32 v = true ∧ v ≠ 0x80000000 := by
  unfold isLevel; rw [Bool.and_eq_true, bne_iff_ne]

/-- A value in (0, 1] is a level. -/
theorem level_of_pos {v : Word} (h : isUnit32 v = true) (h' : 0 < valOf v) : isLevel v = true := by
  rw [isLevel_iff]; refine ⟨h, ?_⟩
  rintro rfl
  revert h'; decide

theorem level_zero : isLevel zero32 = true := by decide
theorem level_one : isLevel one32 = true := by decide

/-- An attack step that stays below 1.0 (R162) gives a level. -/
theorem attack_level {l i : Word} (hl : isLevel l = true) (hi : isUnit32 i = true)
    (h : le32 one32 (add32 l i) = false) : isLevel (add32 l i) = true := by
  have hl0 := (isLevel_iff l).1 hl
  obtain ⟨lf, l0, l1⟩ := (isUnit32_iff l).1 hl0.1
  obtain ⟨jf, j0, j1⟩ := (isUnit32_iff i).1 hi
  have hlow : le32 zero32 (add32 l i) = true := le_add32 lf jf isFinite32_zero (by rw [valOf_zero]; omega)
  have hnan : isNaN32 (add32 l i) = false := ((le32_iff _ _).1 hlow).2.1
  have hup : le32 (add32 l i) one32 = true := le32_of_lt32 (le32_total (by decide) hnan h)
  have hu : isUnit32 (add32 l i) = true := by unfold isUnit32; rw [hlow, hup]; rfl
  rw [isLevel_iff]; refine ⟨hu, ?_⟩
  intro hm
  have hfin := ((isUnit32_iff _).1 hu).1
  have hle : le32 l (add32 l i) = true := le_add32 lf jf lf (by omega)
  rw [hm] at hle
  have hl2 : valOf l ≤ valOf (0x80000000 : Word) := (le32_iff_valOf lf (by decide)).1 hle
  have : valOf (0x80000000 : Word) = 0 := by decide
  have hlz : valOf l = 0 := by omega
  have hnn := valOf_nonneg l0
  have hmag : magOf l = 0 := by omega
  have hs : signOf l = false := by
    by_contra hc
    have hsl : signOf l = true := by simpa using hc
    apply hl0.2
    have := toNat_eq_bits31 l
    rw [hsl, if_pos rfl] at this
    rw [magOf_eq] at hmag
    have hb : bits31 l ≤ 0 := magBits_le_iff.1 (by rw [hmag, magBits_zero])
    apply BitVec.eq_of_toNat_eq
    rw [this]; simp; omega
  have hle2 : le32 i (add32 l i) = true := le_add32 lf jf jf (by omega)
  rw [hm] at hle2
  have hi2 := (le32_iff_valOf jf (by decide)).1 hle2
  have hiz : valOf i = 0 := by omega
  have : add32 l i = pack32 (signOf l && signOf i) 0 := by
    unfold add32
    simp only [isNaN32_of_finite lf, isNaN32_of_finite jf, isInf32_of_finite lf, isInf32_of_finite jf, Bool.or_false,
    Bool.false_eq_true, if_false]
    rw [if_pos (by omega)]
  rw [this, hs, Bool.false_and] at hm
  revert hm; decide

/-- A step down that stays above a bound in [0, 1] (R163, R165) gives a level. -/
theorem sub_level {l d s : Word} (hl : isLevel l = true) (hd : isNonneg32 d = true) (hs : isUnit32 s = true)
    (h : le32 (sub32 l d) s = false) : isLevel (sub32 l d) = true := by
  have hl0 := (isLevel_iff l).1 hl
  obtain ⟨lf, l0, l1⟩ := (isUnit32_iff l).1 hl0.1
  obtain ⟨df, d0⟩ := (isNonneg32_iff d).1 hd
  obtain ⟨sf, s0, s1⟩ := (isUnit32_iff s).1 hs
  have hup : le32 (sub32 l d) one32 = true := sub32_le lf df isFinite32_one (by rw [valOf_one]; omega)
  have hnan : isNaN32 (sub32 l d) = false := ((le32_iff _ _).1 hup).1
  have hlt : lt32 s (sub32 l d) = true := le32_total hnan (isNaN32_of_finite sf) h
  have hlow : le32 zero32 (sub32 l d) = true := le32_trans ((le32_zero_iff sf).2 s0) (le32_of_lt32 hlt)
  have hu : isUnit32 (sub32 l d) = true := by unfold isUnit32; rw [hlow, hup]; rfl
  have hf := ((isUnit32_iff _).1 hu).1
  refine level_of_pos hu ?_
  rw [lt32_eq_not_le32 (isNaN32_of_finite sf) hnan, Bool.not_eq_true'] at hlt
  have : ¬ valOf (sub32 l d) ≤ valOf s := by
    intro hc; rw [(le32_iff_valOf hf sf).2 hc] at hlt; cases hlt
  omega

/-- A voice's level, velocity and decrement in their ranges. -/
def LevelOk (v : Voice) : Prop := isLevel v.level = true ∧ isUnit32 v.vel = true ∧ isNonneg32 v.relDec = true
/-- The sustain level and the derived registers as they should be. -/
def ParamLevelOk (p : ParamRegs) : Prop := isLevel p.sustainLevel = true ∧ p.attackInc = attackIncOf p.attackSamples ∧
    p.decayDec = decayDecOf p.decaySamples p.sustainLevel

/-- An envelope tick keeps a voice's ranges (R172). -/
theorem LevelOk.envTick {p : ParamRegs} {v : Voice} (hp : ParamLevelOk p) (hv : LevelOk v) :
    LevelOk (envTick p v) := by
  obtain ⟨h1, h2, h3⟩ := hv
  obtain ⟨p1, p2, p3⟩ := hp
  have pu := ((isLevel_iff _).1 p1).1
  refine ⟨?_, by rw [envTick_eq]; exact h2, by rw [envTick_eq]; exact h3⟩
  unfold Machine.envTick
  split
  · exact level_zero
  · unfold attackTick
    split
    · exact level_one
    · split
      · exact level_one
      · rename_i h; exact attack_level h1 (by rw [p2]; exact attackIncOf_unit _) (by simpa using h)
  · unfold decayTick
    split
    · exact p1
    · split
      · exact p1
      · rename_i h; exact sub_level h1 (by rw [p3]; exact isNonneg32_of_unit (decayDecOf_unit pu)) pu (by simpa using h)
  · exact p1
  · unfold releaseTick
    split
    · exact level_zero
    · rename_i h
      rw [not_or] at h
      exact sub_level h1 h3 isUnit32_zero (by simpa using h.2)

/-- A release keeps a voice's ranges. -/
theorem LevelOk.release {r} {v : Voice} (h : LevelOk v) : LevelOk (releaseVoice r v) := by
  unfold releaseVoice
  split
  · exact h
  · exact h
  all_goals exact ⟨h.1, h.2.1, isNonneg32_of_unit (relDec_unit ((isLevel_iff _).1 h.1).1)⟩


/-- The increment does not matter. -/
theorem LevelOk.withInc {v : Voice} (h : LevelOk v) (x : Word) : LevelOk { v with inc := x } := h

/-- The invariant, voice by voice. -/
theorem levelInv_iff (s : State) : LevelInv s ↔ ParamLevelOk s.p ∧ ∀ v ∈ s.voices, LevelOk v := by
  unfold LevelInv LevelOk ParamLevelOk; tauto

end Sys2Proof.Machine
end

