-- ==== Sys2Proof/Laws/Filter.lean ====
section
/-! SUPPORT. Samples stay in [-1, 1] (10_state.md R22, 40_wavetable.md R131, 43_filter.md R185): the interpolator and the
low-pass are one expression, `a + c*(b - a)` with c in [0, 1], whose three roundings cannot leave the interval. -/

namespace Sys2Proof.Machine

/-! ### How far one rounding moves a value of at most 2.0 -/

/-- Rounding to a whole number moves a fraction by at most a half. -/
theorem roundNearest_err (n : Nat) {d : Nat} (hd : 0 < d) :
    2 * (roundNearest n d * d) ≤ 2 * n + d ∧ 2 * n ≤ 2 * (roundNearest n d * d) + d := by
  have h : d * (n / d) + n % d = n := Nat.div_add_mod n d
  unfold roundNearest
  split
  · rename_i hc
    have hl : n % d < d := Nat.mod_lt _ hd
    have e : (n / d + 1) * d = d * (n / d) + d := by ring
    rw [e]; omega
  · rename_i hc
    have e : n / d * d = d * (n / d) := Nat.mul_comm _ _
    rw [e]; omega

/-- The magnitude of a pattern in exponent and whole significand. -/
theorem magBits_of {e r : Nat} (h : 2 ^ 23 ≤ r) (h' : r ≤ 2 ^ 24) : magBits (e * 2 ^ 23 + r) = r * 2 ^ e := by
  unfold magBits
  rcases Nat.lt_or_eq_of_le h' with hr | rfl
  · have h1 : (e * 2 ^ 23 + r) / 2 ^ 23 = e + 1 := by omega
    have h2 : (e * 2 ^ 23 + r) % 2 ^ 23 = r - 2 ^ 23 := by omega
    rw [h1, h2, if_neg (by omega), Nat.add_sub_cancel, Nat.add_sub_cancel' h]
  · have h1 : (e * 2 ^ 23 + 2 ^ 24) / 2 ^ 23 = e + 2 := by omega
    have h2 : (e * 2 ^ 23 + 2 ^ 24) % 2 ^ 23 = 0 := by omega
    rw [h1, h2, if_neg (by omega), show e + 2 - 1 = e + 1 from rfl, pow_succ]; ring

/-- A magnitude of at most 2.0 is moved by at most 2^-24. -/
theorem roundUnits_err {n : Nat} (hn : n ≤ 2 ^ 150) :
    magBits (roundUnits n 1) ≤ n + 2 ^ 125 ∧ n ≤ magBits (roundUnits n 1) + 2 ^ 125 := by
  rcases Nat.lt_or_eq_of_le hn with hlt | rfl
  · by_cases hs : n < 2 ^ 23
    · have hk : magBits n = n := by unfold magBits; rw [if_pos (by omega)]; omega
      have : roundUnits n 1 = n := by
        conv_lhs => rw [← hk]
        exact roundUnits_magBits (by omega)
      rw [this, hk]; omega
    · have hl : 23 ≤ Nat.log2 n := (Nat.le_log2 (by omega)).2 (by omega)
      have hl' : Nat.log2 n < 150 := (Nat.log2_lt (by omega)).2 hlt
      obtain ⟨e, he⟩ : ∃ e, Nat.log2 n = 23 + e := ⟨Nat.log2 n - 23, by omega⟩
      have hlo : 2 ^ 23 * 2 ^ e ≤ n := by rw [← pow_add, ← he]; exact Nat.log2_self_le (by omega)
      have hhi : n < 2 ^ 24 * 2 ^ e := by
        rw [← pow_add, show 24 + e = Nat.log2 n + 1 by omega]; exact Nat.lt_log2_self
      have hp : 0 < 2 ^ e := Nat.two_pow_pos e
      have r1 : 2 ^ 23 ≤ roundNearest n (2 ^ e) :=
        le_trans ((Nat.le_div_iff_mul_le hp).2 hlo) (le_roundNearest _ _)
      have r2 : roundNearest n (2 ^ e) ≤ 2 ^ 24 :=
        le_trans (roundNearest_le_succ _ _) (Nat.succ_le_of_lt ((Nat.div_lt_iff_lt_mul hp).2 hhi))
      have hr : roundUnits n 1 = e * 2 ^ 23 + roundNearest n (2 ^ e) := by
        rw [roundUnits_eq, Nat.div_one, he, Nat.add_sub_cancel_left, Nat.one_mul, Nat.min_eq_left]
        have : e ≤ 126 := by omega
        omega
      rw [hr, magBits_of r1 r2]
      obtain ⟨e1, e2⟩ := roundNearest_err n hp
      have hpow : 2 ^ e ≤ 2 ^ 126 := Nat.pow_le_pow_right (by norm_num) (by omega)
      have : (2 : Nat) ^ 126 = 2 * 2 ^ 125 := by norm_num
      omega
  · have hk : magBits 0x40000000 = 2 ^ 150 := by unfold magBits; norm_num
    rw [← hk, roundUnits_magBits (by norm_num), hk]; omega

/-- The value of a packed rounding. -/
theorem valOf_pack_round {neg : Bool} {n : Nat} (hn : n ≤ 2 ^ 150) :
    isFinite32 (pack32 neg (roundUnits n 1)) = true ∧
      valOf (pack32 neg (roundUnits n 1)) =
        if neg then -(magBits (roundUnits n 1) : Int) else (magBits (roundUnits n 1) : Int) := by
  have hk : magBits 0x40000000 = 2 ^ 150 := by unfold magBits; norm_num
  have hr : roundUnits n 1 ≤ 0x40000000 := roundUnits_le_of_le Nat.one_pos (by norm_num) (by rw [hk]; omega)
  refine ⟨(isFinite32_iff _).2 (by rw [bits31_pack32 (by omega)]; omega), ?_⟩
  unfold valOf
  rw [magOf_eq, bits31_pack32 (by omega), signOf_pack32 (by omega)]

/-- A difference of at most 2.0 is rounded by at most 2^-24. -/
theorem sub32_err {a b : Word} (ha : isFinite32 a = true) (hb : isFinite32 b = true)
    (h : valOf a - valOf b ≤ 2 ^ 150) (h' : -2 ^ 150 ≤ valOf a - valOf b) :
    isFinite32 (sub32 a b) = true ∧ valOf (sub32 a b) ≤ valOf a - valOf b + 2 ^ 125 ∧
      valOf a - valOf b ≤ valOf (sub32 a b) + 2 ^ 125 := by
  obtain ⟨neg, n, e, hv⟩ := add32_finite ha ((isFinite32_neg32 b).trans hb)
  rw [valOf_neg32, ← sub_eq_add_neg] at hv
  have hn : n ≤ 2 ^ 150 := by
    have : (n : Int) ≤ 2 ^ 150 := by cases neg <;> simp at hv <;> omega
    exact_mod_cast this
  obtain ⟨hf, hval⟩ := valOf_pack_round (neg := neg) hn
  obtain ⟨e1, e2⟩ := roundUnits_err hn
  have e1' : (magBits (roundUnits n 1) : Int) ≤ n + 2 ^ 125 := by exact_mod_cast e1
  have e2' : (n : Int) ≤ magBits (roundUnits n 1) + 2 ^ 125 := by exact_mod_cast e2
  unfold sub32
  rw [e]
  refine ⟨hf, ?_⟩
  rw [hval]
  cases neg <;> simp only [Bool.false_eq_true, if_false, if_true] at hv ⊢ <;> constructor <;> linarith

/-! ### A sum that is past 1.0 by at most 2^-24 rounds to 1.0 -/

/-- Half a unit in the last place above 1.0 ties to the even 1.0. -/
theorem roundUnits_near_one {n : Nat} (h : n ≤ 2 ^ 149 + 2 ^ 125) : roundUnits n 1 ≤ 0x3F800000 := by
  have : roundUnits (2 ^ 149 + 2 ^ 125) 1 = 0x3F800000 := by decide +kernel
  rw [← this]
  exact roundUnits_mono Nat.one_pos Nat.one_pos (by omega)

/-- In [-1, 1], as a value. -/
theorem isTableValue_iff (v : Word) :
    isTableValue v = true ↔ isFinite32 v = true ∧ -2 ^ 149 ≤ valOf v ∧ valOf v ≤ 2 ^ 149 := by
  unfold isTableValue
  rw [Bool.and_eq_true]
  constructor
  · rintro ⟨h, h'⟩
    have hf := finite_of_le32 isFinite32_negOne isFinite32_one h h'
    rw [le32_iff_valOf isFinite32_negOne hf, valOf_negOne] at h
    rw [le32_iff_valOf hf isFinite32_one, valOf_one] at h'
    exact ⟨hf, h, h'⟩
  · rintro ⟨hf, h, h'⟩
    rw [le32_iff_valOf isFinite32_negOne hf, valOf_negOne, le32_iff_valOf hf isFinite32_one, valOf_one]
    exact ⟨h, h'⟩

theorem isTableValue_pack {neg : Bool} {n d : Nat} (h : roundUnits n d ≤ 0x3F800000) :
    isTableValue (pack32 neg (roundUnits n d)) = true := by
  rw [isTableValue_iff]
  have hm : magBits (roundUnits n d) ≤ 2 ^ 149 := by rw [← magBits_one]; exact magBits_le_iff.2 h
  refine ⟨(isFinite32_iff _).2 (by rw [bits31_pack32 (by omega)]; omega), ?_⟩
  unfold valOf
  rw [magOf_eq, bits31_pack32 (by omega), signOf_pack32 (by omega)]
  have hm' : (magBits (roundUnits n d) : Int) ≤ 2 ^ 149 := by exact_mod_cast hm
  cases neg <;> simp only [Bool.false_eq_true, if_false, if_true] <;> constructor <;> linarith [Int.natCast_nonneg (magBits (roundUnits n d))]

theorem isUnit32_pack {n d : Nat} (h : roundUnits n d ≤ 0x3F800000) : isUnit32 (pack32 false (roundUnits n d)) = true := by
  obtain ⟨hf, _, h1⟩ := (isTableValue_iff _).1 (isTableValue_pack (neg := false) h)
  rw [isUnit32_iff]
  refine ⟨hf, ?_, h1⟩
  unfold valOf
  rw [signOf_pack32 (by omega), if_neg Bool.false_ne_true]
  exact Int.natCast_nonneg _

theorem add32_near_one {a b : Word} (ha : isFinite32 a = true) (hb : isFinite32 b = true)
    (h : valOf a + valOf b ≤ 2 ^ 149 + 2 ^ 125) (h' : -(2 ^ 149 + 2 ^ 125) ≤ valOf a + valOf b) :
    isTableValue (add32 a b) = true := by
  obtain ⟨neg, n, e, hv⟩ := add32_finite ha hb
  rw [e]
  refine isTableValue_pack (roundUnits_near_one ?_)
  have : (n : Int) ≤ 2 ^ 149 + 2 ^ 125 := by cases neg <;> simp at hv <;> omega
  exact_mod_cast this

/-! ### The low-pass and the interpolator -/

/-- `a + c*(b - a)` of values in [-1, 1] with c in [0, 1] is in [-1, 1] (43_filter.md R185). -/
theorem lowPass_bound {c a b : Word} (hc : isUnit32 c = true) (ha : isTableValue a = true) (hb : isTableValue b = true) :
    isTableValue (lowPass c a b) = true := by
  obtain ⟨cf, c0, c1⟩ := (isUnit32_iff c).1 hc
  obtain ⟨af, a0, a1⟩ := (isTableValue_iff a).1 ha
  obtain ⟨bf, b0, b1⟩ := (isTableValue_iff b).1 hb
  have two : (2 : Int) ^ 150 = 2 * 2 ^ 149 := by norm_num
  obtain ⟨df, d1, d2⟩ := sub32_err bf af (by linarith) (by linarith)
  unfold lowPass
  generalize sub32 b a = d at *
  have zf : isFinite32 (0 : Word) = true := by decide
  have z0 : valOf (0 : Word) = 0 := by decide
  rcases le_total 0 (valOf d) with hd | hd
  · have p0 : le32 0 (mul32 c d) = true := le_mul32 cf df zf (by rw [z0, zero_mul]; exact mul_nonneg c0 hd)
    have p1 : le32 (mul32 c d) d = true :=
      mul32_le cf df df (by rw [mul_comm]; exact mul_le_mul_of_nonneg_left c1 hd)
    have pf := finite_of_le32 zf df p0 p1
    have q0 := (le32_iff_valOf zf pf).1 p0
    have q1 := (le32_iff_valOf pf df).1 p1
    rw [z0] at q0
    exact add32_near_one af pf (by linarith) (by linarith [show (0 : Int) ≤ 2 ^ 125 by norm_num])
  · have p0 : le32 (mul32 c d) 0 = true :=
      mul32_le cf df zf (by rw [z0, zero_mul]; exact mul_nonpos_of_nonneg_of_nonpos c0 hd)
    have p1 : le32 d (mul32 c d) = true :=
      le_mul32 cf df df (by rw [mul_comm (valOf c)]; exact mul_le_mul_of_nonpos_left c1 hd)
    have pf := finite_of_le32 df zf p1 p0
    have q0 := (le32_iff_valOf pf zf).1 p0
    have q1 := (le32_iff_valOf df pf).1 p1
    rw [z0] at q0
    exact add32_near_one af pf (by linarith [show (0 : Int) ≤ 2 ^ 125 by norm_num]) (by linarith)

/-- A fraction is in [0, 1]. -/
theorem frac32_unit (x : Word) : isUnit32 (frac32 x) = true := by
  have hr : roundUnits (magOf x % 2 ^ 149) 1 ≤ 0x3F800000 :=
    roundUnits_le_of_le Nat.one_pos (by norm_num) (by rw [magBits_one]; have := Nat.mod_lt (magOf x) (Nat.two_pow_pos 149); omega)
  exact isUnit32_pack hr

theorem tableAt_bound {wt : List WtEntry} {k : Nat} {t : Word} (hw : ∀ e ∈ wt, e.written = true → isTableValue e.value = true)
    (h : tableAt wt k = some t) : isTableValue t = true := by
  unfold tableAt at h
  split at h
  · rename_i e he
    split at h
    · rename_i hwr; cases h; exact hw e (List.mem_of_getElem? he) hwr
    · cases h
  · cases h

/-- The interpolator's value is in [-1, 1] (40_wavetable.md R131). -/
theorem wtSample_bound {len : Nat} {wt : List WtEntry} {ph o : Word}
    (hw : ∀ e ∈ wt, e.written = true → isTableValue e.value = true) (h : wtSample len wt ph = .ok o) :
    isTableValue o = true := by
  unfold wtSample at h
  dsimp only at h
  split at h
  · rename_i t0 t1 h0 h1
    cases h
    exact lowPass_bound (frac32_unit _) (tableAt_bound hw h0) (tableAt_bound hw h1)
  · cases h

/-- A product of a value in [0, 1] and one in [-1, 1] is in [-1, 1]. -/
theorem mul32_bound {a b : Word} (ha : isUnit32 a = true) (hb : isTableValue b = true) : isTableValue (mul32 a b) = true := by
  obtain ⟨af, a0, a1⟩ := (isUnit32_iff a).1 ha
  obtain ⟨bf, b0, b1⟩ := (isTableValue_iff b).1 hb
  unfold isTableValue
  rw [Bool.and_eq_true]
  refine ⟨le_mul32 af bf isFinite32_negOne ?_, mul32_le af bf isFinite32_one ?_⟩
  · rw [valOf_negOne]; nlinarith
  · rw [valOf_one]; nlinarith

theorem mul32_unit {a b : Word} (ha : isUnit32 a = true) (hb : isUnit32 b = true) : isUnit32 (mul32 a b) = true := by
  obtain ⟨af, a0, a1⟩ := (isUnit32_iff a).1 ha
  obtain ⟨bf, b0, b1⟩ := (isUnit32_iff b).1 hb
  unfold isUnit32
  rw [Bool.and_eq_true]
  refine ⟨le_mul32 af bf isFinite32_zero ?_, mul32_le af bf isFinite32_one ?_⟩
  · rw [valOf_zero, zero_mul]; exact mul_nonneg a0 b0
  · rw [valOf_one]; nlinarith

/-- A voice's tick keeps its filter history in [-1, 1] (10_state.md R22). -/
theorem voiceSample_y1 {len : Nat} {wt : List WtEntry} {p : ParamRegs} {v v' : Voice} {y : Word}
    (hw : ∀ e ∈ wt, e.written = true → isTableValue e.value = true) (hp : ParamLevelOk p) (hc : isUnit32 p.coef = true)
    (hl : LevelOk v) (hy : isTableValue v.y1 = true) (h : voiceSample len wt p v = .ok (y, v')) : isTableValue v'.y1 = true := by
  have he := hl.envTick hp
  have e1 := ((isLevel_iff _).1 he.1).1
  have hy' : (envTick p v).y1 = v.y1 := by rw [envTick_eq]
  unfold voiceSample oscTick at h
  split at h
  · rename_i o v1 h1
    split at h1
    · rename_i o' ho
      cases h1
      injection h with h
      rw [filtStep_eq] at h
      obtain ⟨_, hv⟩ := Prod.mk.inj h
      rw [← hv]
      have hx : isTableValue (mul32 (mul32 (envTick p v).level (envTick p v).vel) o) = true :=
        mul32_bound (mul32_unit e1 he.2.1) (wtSample_bound hw ho)
      unfold filtStep
      split
      · exact lowPass_bound hc (by rw [hy']; exact hy) hx
      · exact hx
    · cases h1
  · cases h

/-! ### The coefficient -/

/-- `COEF` of a legal cutoff and rate is in [0, 1] (43_filter.md R180). -/
theorem coefFn_unit {fc fs : Word} (hc : isCutoff fc = true) (hs : isSampleRate fs = true) : isUnit32 (coefFn fc fs) = true := by
  have key : ∀ n, n ≤ coefScale → isUnit32 (pack32 false (roundUnits (n * 2 ^ 149) coefScale)) = true := by
    intro n hn
    have hpos : 0 < coefScale := by decide +kernel
    have hr : roundUnits (n * 2 ^ 149) coefScale ≤ 0x3F800000 := by
      refine roundUnits_le_of_le hpos (by norm_num) ?_
      rw [magBits_one, Nat.mul_comm (2 ^ 149)]; exact Nat.mul_le_mul_right _ hn
    exact isUnit32_pack hr
  unfold isCutoff at hc
  unfold isSampleRate at hs
  rw [Bool.and_eq_true] at hc hs
  have hs' : lt32 zero32 fs = true := by
    have := (le32_iff _ _).1 hs.2
    rw [lt32_iff]
    refine ⟨by decide, this.2.1, lt_of_lt_of_le (by decide) this.2.2⟩
  unfold coefFn
  rw [hc.1, hc.2, hs.1, hs']
  simp only [Bool.and_self, Bool.not_true, Bool.false_eq_true, if_false]
  split
  · exact isUnit32_one
  · (repeat' split) <;> exact key _ (by omega)

/-! ### What the operations keep of `FilterInv` -/

/-- The reset headroom of a legal instance, u2f(N_VOICES), is legal (10_state.md R26). -/
theorem isHeadroom_reset {par : Params} (h : par.legal = true) : isHeadroom (u2f (BitVec.ofNat 32 par.nVoices)) = true := by
  have hn : BitVec.ofNat 32 par.nVoices ≠ 0 := by
    intro hc
    have := congrArg BitVec.toNat hc
    simp [Params.legal] at h
    simp at this
    omega
  obtain ⟨h1, h2⟩ := u2f_spec (BitVec.ofNat 32 par.nVoices)
  have hf := ((isNonneg32_iff _).1 h1).1
  unfold isHeadroom
  rw [hf, (le32_iff_valOf isFinite32_one hf).2 (by rw [valOf_one]; exact h2 hn)]; rfl

/-- The invariant holds after power-on reset of a legal instance (70_reset_and_hazards.md R360). -/
theorem FilterInv.resetOf {par : Params} (h : par.legal = true) : FilterInv (State.resetOf par) := by
  refine ⟨h, (by decide : isCutoff 0x447A0000 = true), (by decide : isSampleRate 0x473B8000 = true), isHeadroom_reset h,
    (by decide : isUnit32 0x3DFB471D = true), ?_⟩
  · intro v hv; rw [List.eq_of_mem_replicate hv]; decide

/-- An error keeps it. -/
theorem FilterInv.raiseError {s : State} (h : FilterInv s) (c x) : FilterInv (Machine.raiseError c x s) := by
  unfold FilterInv; simp; exact h

/-- A control change keeps it (46_event_intake.md R240). -/
theorem FilterInv.applyCC {s : State} (h : FilterInv s) (id v) : FilterInv (Machine.applyCC id v s) := by
  have key : ∀ (k : Byte) (l : Bool) (f : ParamRegs → ParamRegs),
      (l = true → isCutoff (f s.p).cutoffHz = true ∧ isHeadroom (f s.p).headroom = true ∧
        isUnit32 (f s.p).coef = true) → FilterInv (setParam k l f s) := by
    intro k l f hf
    rcases setParam_cases k l f s with ⟨hl, e⟩ | ⟨_, e⟩ <;> rw [e]
    · obtain ⟨h1, h2, h3⟩ := hf hl
      exact ⟨h.1, h1, h.2.2.1, h2, h3, h.2.2.2.2.2⟩
    · exact FilterInv.raiseError h _ _
  have same : isCutoff s.p.cutoffHz = true ∧ isHeadroom s.p.headroom = true ∧ isUnit32 s.p.coef = true :=
    ⟨h.2.1, h.2.2.2.1, h.2.2.2.2.1⟩
  unfold Machine.applyCC
  (repeat' split)
  · exact key _ _ _ fun _ => same
  · exact key _ _ _ fun _ => same
  · exact key _ _ _ fun _ => same
  · exact key _ _ _ fun _ => same
  · exact key _ _ _ fun hl => ⟨hl, h.2.2.2.1, coefFn_unit hl h.2.2.1⟩
  · exact key _ _ _ fun _ => same
  · exact key _ _ _ fun hl => ⟨h.2.1, hl, h.2.2.2.2.1⟩
  · exact key _ _ _ fun _ => same
  · exact key _ _ _ fun _ => same
  · exact key _ _ _ fun _ => same
  · exact FilterInv.raiseError h _ _

/-- A note-on keeps it: a history is kept or cleared (43_filter.md R184). -/
theorem FilterInv.vmNoteOn {s : State} (h : FilterInv s) (n vel) : FilterInv (Machine.vmNoteOn n vel s) := by
  obtain ⟨i, g, hv, hg⟩ := vmNoteOn_voices n vel s
  have hv' : ∀ v ∈ (Machine.vmNoteOn n vel s).voices, isTableValue v.y1 = true := by
    rw [hv]
    refine forall_modify (P := fun v : Voice => isTableValue v.y1 = true) h.2.2.2.2.2 ?_
    intro v hy
    show isTableValue (g v).y1 = true
    rcases hg with rfl | rfl | rfl
    · exact hy
    · exact (by decide : isTableValue zero32 = true)
    · rw [releaseVoice_eq]; exact hy
  rw [vmNoteOn_eq]
  exact ⟨h.1, h.2.1, h.2.2.1, h.2.2.2.1, h.2.2.2.2.1, hv'⟩

/-- A note-off keeps it. -/
theorem FilterInv.vmNoteOff {s : State} (h : FilterInv s) (n) : FilterInv (Machine.vmNoteOff n s) := by
  refine ⟨h.1, h.2.1, h.2.2.1, h.2.2.2.1, h.2.2.2.2.1, ?_⟩
  intro v hv
  simp only [Machine.vmNoteOff, List.mem_map] at hv
  obtain ⟨u, hu, rfl⟩ := hv
  split
  · rw [releaseVoice_eq]; exact h.2.2.2.2.2 u hu
  · exact h.2.2.2.2.2 u hu

/-- An event keeps it. -/
theorem FilterInv.applyEvent {s : State} (e) (h : FilterInv s) : FilterInv (Machine.applyEvent e s) := by
  unfold Machine.applyEvent
  split
  · exact FilterInv.vmNoteOn h _ _
  · exact FilterInv.vmNoteOff h _
  · exact FilterInv.applyCC h _ _
  · exact FilterInv.raiseError h _ _

end Sys2Proof.Machine
end

