-- ==== Sys2Proof/Laws/Phase.lean ====
section
/-! SUPPORT. A phase stays in the table and an increment stays bounded (10_state.md R22, R29; 41_oscillator.md R141,
R142). -/

namespace Sys2Proof.Machine

/-- A finite value at least 0 and at most a bound, from two comparisons. -/
theorem nonneg_of_le {x b : Word} (hb : isFinite32 b = true) (h0 : le32 zero32 x = true) (h1 : le32 x b = true) :
    isNonneg32 x = true ∧ valOf x ≤ valOf b := by
  have hf := finite_of_le32 isFinite32_zero hb h0 h1
  exact ⟨(isNonneg32_iff x).2 ⟨hf, (le32_zero_iff hf).1 h0⟩, (le32_iff_valOf hf hb).1 h1⟩

/-- 2^30 as a binary32. -/
theorem valOf_two30 : valOf (0x4E800000 : Word) = 2 ^ 30 * 2 ^ 149 := by decide +kernel

/-- Every entry of the ROM is finite, at least 0 and at most 2^14 (R143). -/
theorem noteFreq_bound : ∀ n : BitVec 7, isFinite32 (noteFreq n) = true ∧ 0 ≤ valOf (noteFreq n) ∧
    valOf (noteFreq n) ≤ 2 ^ 14 * 2 ^ 149 := by decide +kernel

/-- A table length at most 2^16 converts to at most 2^16. -/
theorem u2f_len {j : Nat} (hj : j ≤ 16) : isFinite32 (u2f (BitVec.ofNat 32 (2 ^ j))) = true ∧
    0 ≤ valOf (u2f (BitVec.ofNat 32 (2 ^ j))) ∧ valOf (u2f (BitVec.ofNat 32 (2 ^ j))) ≤ 2 ^ 16 * 2 ^ 149 := by
  revert j; decide +kernel

/-- The increment of a note at a legal rate (R142). -/
theorem incFor_bound {j : Nat} (hj : j ≤ 16) {fs : Word} (hfs : isSampleRate fs = true) (n : BitVec 7) :
    isNonneg32 (incFor (2 ^ j) fs n) = true ∧ magOf (incFor (2 ^ j) fs n) ≤ 2 ^ 30 * 2 ^ 149 := by
  obtain ⟨lf, l0, l1⟩ := u2f_len hj
  obtain ⟨nf, n0, n1⟩ := noteFreq_bound n
  unfold isSampleRate at hfs
  rw [Bool.and_eq_true] at hfs
  have hone : 2 ^ 149 ≤ valOf fs := by rw [← valOf_one]; exact (le32_iff_valOf isFinite32_one hfs.1).1 hfs.2
  have hb : isFinite32 (0x4E800000 : Word) = true := by decide
  have hm : isNonneg32 (mul32 (u2f (BitVec.ofNat 32 (2 ^ j))) (noteFreq n)) = true ∧
      valOf (mul32 (u2f (BitVec.ofNat 32 (2 ^ j))) (noteFreq n)) ≤ valOf (0x4E800000 : Word) := by
    refine nonneg_of_le hb (le_mul32 lf nf isFinite32_zero ?_) (mul32_le lf nf hb ?_)
    · rw [valOf_zero]; nlinarith
    · rw [valOf_two30]
      calc _ ≤ (2 ^ 16 * 2 ^ 149) * (2 ^ 14 * 2 ^ 149 : Int) := mul_le_mul l1 n1 n0 (by positivity)
        _ = _ := by norm_num
  obtain ⟨mf, m0⟩ := (isNonneg32_iff _).1 hm.1
  have hd : isNonneg32 (incFor (2 ^ j) fs n) = true ∧ valOf (incFor (2 ^ j) fs n) ≤ valOf (0x4E800000 : Word) := by
    refine nonneg_of_le hb (le_div32 mf hfs.1 isFinite32_zero (by omega) ?_) (div32_le mf hfs.1 hb (by omega) ?_)
    · rw [valOf_zero]; nlinarith
    · have hm2 := hm.2
      rw [valOf_two30] at hm2 ⊢
      exact mul_le_mul hm2 hone (by positivity) (by positivity)
  refine ⟨hd.1, ?_⟩
  have h2 := hd.2
  rw [valOf_two30, valOf_nonneg ((isNonneg32_iff _).1 hd.1).2] at h2
  exact_mod_cast h2

/-- A phase of a table of 2^j entries, advanced by a bounded increment and wrapped, is a phase (R141). -/
theorem nextPhase_bound {j : Nat} (hj : j ≤ 16) {x y : Word} (hx : isPhase (2 ^ j) x = true) (hy : isNonneg32 y = true)
    (hb : magOf y ≤ 2 ^ 30 * 2 ^ 149) : isPhase (2 ^ j) (wrapL (2 ^ j) (add32 x y)) = true := by
  unfold isPhase at hx ⊢
  rw [Bool.and_eq_true, decide_eq_true_eq] at hx
  obtain ⟨xf, x0⟩ := (isNonneg32_iff x).1 hx.1
  obtain ⟨yf, y0⟩ := (isNonneg32_iff y).1 hy
  have hj' : (2 : Nat) ^ j ≤ 2 ^ 16 := Nat.pow_le_pow_right (by norm_num) hj
  have hfin : isFinite32 (0x4F000000 : Word) = true := by decide
  have htop : valOf (0x4F000000 : Word) = 2 ^ 31 * 2 ^ 149 := by decide +kernel
  have hs : isNonneg32 (add32 x y) = true := by
    refine (nonneg_of_le hfin (le_add32 xf yf isFinite32_zero (by rw [valOf_zero]; omega)) (add32_le xf yf hfin ?_)).1
    rw [htop, valOf_nonneg x0, valOf_nonneg y0]
    have h1 : magOf x ≤ 2 ^ 16 * 2 ^ 149 := le_trans hx.2.le (Nat.mul_le_mul_right _ hj')
    have : magOf x + magOf y ≤ 2 ^ 31 * 2 ^ 149 := by omega
    exact_mod_cast this
  obtain ⟨hw, hm⟩ := wrapL_spec (j := j) hs
  rw [Bool.and_eq_true, decide_eq_true_eq, hm]
  exact ⟨hw, Nat.mod_lt _ (by positivity)⟩

end Sys2Proof.Machine
end

