-- ==== Sys2Proof/Laws/Select.lean ====
section
/-! SUPPORT. What the three selections of the voice manager answer: the lowest free voice, the lowest active voice of a
note, and the least candidate with the lowest index among equals (45_voice_manager.md R202 to R204). -/

namespace Sys2Proof.Machine

/-- The first index a test accepts. -/
theorem findIdx_some {α : Type} {p : α → Bool} {l : List α} {i : Nat} {x : α} (hx : l[i]? = some x) (hp : p x = true)
    (hb : ∀ j y, j < i → l[j]? = some y → p y = false) : l.findIdx? p = some i := by
  rw [List.findIdx?_eq_some_iff_getElem]
  obtain ⟨h, rfl⟩ := List.getElem?_eq_some_iff.1 hx
  exact ⟨h, hp, fun j hj => by rw [hb j _ hj (List.getElem?_eq_getElem (by omega))]; simp⟩

/-- The lowest free voice (R203). -/
theorem freeIndex_some {vs : List Voice} {i : Nat} {v : Voice} (hv : vs[i]? = some v) (hf : v.active = false)
    (hb : ∀ j u, j < i → vs[j]? = some u → u.active = true) : freeIndex vs = some i :=
  findIdx_some hv (by rw [hf]; rfl) fun j u hj hu => by rw [hb j u hj hu]; rfl

/-- No voice is free. -/
theorem freeIndex_none {vs : List Voice} (h : ∀ u ∈ vs, u.active = true) : freeIndex vs = none := by
  rw [freeIndex, List.findIdx?_eq_none_iff]; intro u hu; rw [h u hu]; rfl

/-- The lowest active voice of a note (R202). -/
theorem retrigSelect_some {n : BitVec 7} {vs : List Voice} {i : Nat} {v : Voice} (hv : vs[i]? = some v)
    (ha : v.active = true) (hn : v.note = n) (hb : ∀ j u, j < i → vs[j]? = some u → ¬(u.active = true ∧ u.note = n)) :
    retrigSelect n vs = some i :=
  findIdx_some hv (by rw [ha, hn]; simp) fun j u hj hu => by
    have := hb j u hj hu
    simpa using this

/-- No active voice has the note. -/
theorem retrigSelect_none {n : BitVec 7} {vs : List Voice} (h : ∀ u ∈ vs, u.active = true → u.note ≠ n) :
    retrigSelect n vs = none := by
  rw [retrigSelect, List.findIdx?_eq_none_iff]; intro u hu
  have := h u hu
  cases ha : u.active <;> simp_all

/-- What the best candidate of a list is, for an order given by a key. -/
def LeastOf (κ : Voice → Int) (cand : Voice → Bool) (l : List Voice) : Option (Nat × Voice) → Prop
  | none => ∀ u ∈ l, cand u = false
  | some (i, v) => l[i]? = some v ∧ cand v = true ∧
      ∀ j u, l[j]? = some u → cand u = true → κ v ≤ κ u ∧ (j < i → κ v < κ u)

/-- The best candidate is one voice. -/
theorem leastOf_unique {κ : Voice → Int} {cand : Voice → Bool} {l : List Voice} {i j : Nat} {v u : Voice}
    (h : LeastOf κ cand l (some (i, v))) (h' : LeastOf κ cand l (some (j, u))) : i = j ∧ v = u := by
  obtain ⟨a1, a2, a3⟩ := h
  obtain ⟨b1, b2, b3⟩ := h'
  have x := a3 j u b1 b2
  have y := b3 i v a1 a2
  have : i = j := by
    rcases Nat.lt_trichotomy i j with h | h | h
    · have := y.2 h; omega
    · exact h
    · have := x.2 h; omega
  subst this
  rw [a1] at b1; cases b1; exact ⟨rfl, rfl⟩

variable {κ : Voice → Int} {less : Voice → Voice → Bool} {cand : Voice → Bool}

theorem pickLeast_spec_from : ∀ (vs pre : List Voice) (best : Option (Nat × Voice)),
    (∀ a ∈ pre ++ vs, ∀ b ∈ pre ++ vs, cand a = true → cand b = true → less a b = decide (κ a < κ b)) →
    LeastOf κ cand pre best → LeastOf κ cand (pre ++ vs) (pickLeast less cand vs pre.length best)
  | [], pre, best, _, hb => by rw [List.append_nil]; exact hb
  | v :: vs, pre, best, hl, hb => by
    have hv : v ∈ pre ++ v :: vs := by simp
    have hpre : ∀ {a}, a ∈ pre → a ∈ pre ++ v :: vs := fun h => List.mem_append_left _ h
    have key : LeastOf κ cand (pre ++ [v])
        (if cand v && (match (generalizing := false) best with | none => true | some b => less v b.2) then
          some (pre.length, v) else best) := by
      have lookup : ∀ j u, (pre ++ [v])[j]? = some u → pre[j]? = some u ∨ (j = pre.length ∧ u = v) := by
        intro j u hu
        rw [List.getElem?_append] at hu
        split at hu
        · exact .inl hu
        · rename_i hj
          rcases Nat.eq_zero_or_pos (j - pre.length) with h0 | h0
          · rw [h0] at hu; simp at hu; exact .inr ⟨by omega, hu.symm⟩
          · rw [List.getElem?_eq_none (by simp; omega)] at hu; cases hu
      cases best with
      | none =>
        cases hc : cand v with
        | false =>
          simp only [Bool.false_and, Bool.false_eq_true, if_false]
          intro u hu
          rcases List.mem_append.1 hu with h | h
          · exact hb u h
          · simp at h; rw [h]; exact hc
        | true =>
          simp only [Bool.and_true, if_true]
          refine ⟨by simp, hc, fun j u hu hcu => ?_⟩
          rcases lookup j u hu with h | ⟨rfl, rfl⟩
          · rw [hb u (List.mem_of_getElem? h)] at hcu; cases hcu
          · exact ⟨Int.le_refl _, fun h => absurd h (Nat.lt_irrefl _)⟩
      | some b =>
        obtain ⟨i, w⟩ := b
        obtain ⟨h1, h2, h3⟩ := hb
        have hwm : w ∈ pre := List.mem_of_getElem? h1
        have hi : i < pre.length := (List.getElem?_eq_some_iff.1 h1).1
        cases hc : cand v with
        | false =>
          simp only [Bool.false_and, Bool.false_eq_true, if_false]
          refine ⟨by rw [List.getElem?_append_left hi]; exact h1, h2, fun j u hu hcu => ?_⟩
          rcases lookup j u hu with h | ⟨rfl, rfl⟩
          · exact h3 j u h hcu
          · rw [hc] at hcu; cases hcu
        | true =>
          simp only [Bool.true_and]
          rw [hl v hv w (hpre hwm) hc h2]
          by_cases hk : κ v < κ w
          · rw [if_pos (by simpa using hk)]
            refine ⟨by simp, hc, fun j u hu hcu => ?_⟩
            rcases lookup j u hu with h | ⟨rfl, rfl⟩
            · have := (h3 j u h hcu).1
              exact ⟨by omega, fun _ => by omega⟩
            · exact ⟨Int.le_refl _, fun h => absurd h (Nat.lt_irrefl _)⟩
          · rw [if_neg (by simpa using hk)]
            refine ⟨by rw [List.getElem?_append_left hi]; exact h1, h2, fun j u hu hcu => ?_⟩
            rcases lookup j u hu with h | ⟨rfl, rfl⟩
            · exact h3 j u h hcu
            · exact ⟨by omega, fun h => absurd h (by omega)⟩
    have := pickLeast_spec_from vs (pre ++ [v]) _ (by rw [List.append_assoc]; exact hl) key
    rw [List.append_assoc, List.length_append] at this
    exact this

/-- What `pickLeast` answers on a whole list. -/
theorem pickLeast_spec {vs : List Voice}
    (hl : ∀ a ∈ vs, ∀ b ∈ vs, cand a = true → cand b = true → less a b = decide (κ a < κ b)) :
    LeastOf κ cand vs (pickLeast less cand vs 0 none) :=
  pickLeast_spec_from vs [] none hl (by intro u hu; cases hu)

/-- Releasing or finished, as a stage. -/
theorem isReleasing_iff (u : Voice) : isReleasing u = true ↔ u.stage = .release ∨ u.stage = .idle := by
  simp [isReleasing]

/-- The victim of R204 where some voice is releasing or finished, all levels being numbers. -/
theorem stealVictim_releasing {vs : List Voice} (hn : ∀ u ∈ vs, isReleasing u = true → isNaN32 u.level = false)
    (h : ∃ u ∈ vs, isReleasing u = true) :
    ∃ v, LeastOf (fun u => orderKey u.level) isReleasing vs (some (stealVictim vs, v)) := by
  have hs := pickLeast_spec (κ := fun u => orderKey u.level) (less := fun a b => lt32 a.level b.level)
    (cand := isReleasing) (vs := vs) (fun a ha b hb ca cb => by simp [lt32, hn a ha ca, hn b hb cb])
  unfold stealVictim
  split
  · rename_i b hb; rw [hb] at hs; exact ⟨b.2, hs⟩
  · rename_i hb
    rw [hb] at hs
    obtain ⟨u, hu, hc⟩ := h
    rw [hs u hu] at hc; cases hc

/-- The victim of R204 where no voice is releasing or finished. -/
theorem stealVictim_oldest {vs : List Voice} (hne : vs ≠ []) (h : ∀ u ∈ vs, isReleasing u = false) :
    ∃ v, LeastOf (fun u => (u.seq.toNat : Int)) (fun _ => true) vs (some (stealVictim vs, v)) := by
  have h0 : ∀ (vs : List Voice) (i : Nat), (∀ u ∈ vs, isReleasing u = false) →
      pickLeast (fun a b => lt32 a.level b.level) isReleasing vs i none = none := by
    intro vs
    induction vs with
    | nil => intro i _; rfl
    | cons v vs ih =>
      intro i hv
      rw [pickLeast, hv v (by simp)]
      exact ih _ fun u hu => hv u (by simp [hu])
  have hs := pickLeast_spec (κ := fun u => (u.seq.toNat : Int)) (less := fun a b => decide (a.seq < b.seq))
    (cand := fun _ => true) (vs := vs) (fun a _ b _ _ _ => by simp [BitVec.lt_def])
  unfold stealVictim
  rw [h0 vs 0 h]
  simp only
  split
  · rename_i b hb; rw [hb] at hs; exact ⟨b.2, hs⟩
  · rename_i hb
    rw [hb] at hs
    obtain ⟨u, hu⟩ := List.exists_mem_of_ne_nil vs hne
    exact absurd (hs u hu) (by simp)

end Sys2Proof.Machine
end

