-- ==== Sys2Proof/Tests/Slice0.lean ====
section
/-! SUPPORT. The model's own tests, each a named theorem the kernel evaluates. Expected results are the spec's: the
encoding tables of 30_encoding.md, the vectors of 95_test_vectors.md and the examples in the rules (the comment of a
test names its source). The witnesses at the end show for every statement with hypotheses a state that meets them. -/

namespace Sys2Proof.Tests

open Sys2Proof.Machine

/-- The next state of an outcome. -/
def after : Host.Outcome State Fault Refusal → Option State
  | .next s => some s
  | .fault _ => none
  | .refused _ => none

/-- The fault of an outcome. -/
def stop : Host.Outcome State Fault Refusal → Option Fault
  | .next _ => none
  | .fault f => some f
  | .refused _ => none

/-- What an error leaves: `LAST_ERR`, the three error counters and `IRQ_PEND`. -/
structure Errors where
  lastErr : BitVec 16
  badEvt : Word
  cfgErr : Word
  csrErr : Word
  irqPend : BitVec 5
deriving DecidableEq, Repr

def errors (s : State) : Errors := ⟨s.lastErr, s.badEvtCount, s.cfgErrCount, s.csrErrCount, s.irqPend⟩

/-- One configuration error, one CSR error, with its `LAST_ERR`. -/
def cfgError (e : BitVec 16) : Errors := ⟨e, 0, 1, 0, 0x04⟩
def csrError (e : BitVec 16) : Errors := ⟨e, 0, 0, 1, 0x10⟩

/-- The table TRI4 of 95_test_vectors.md. -/
def tri4 : List WtEntry := [⟨0, true⟩, ⟨0x3F800000, true⟩, ⟨0, true⟩, ⟨0xBF800000, true⟩]

/-- Reset, with TRI4 loaded and FS 1760 Hz (the configuration steps of program P1). -/
def loaded : State := { State.reset with wt := tri4, fs := 0x44DC0000 }

/-- The same, running. -/
def running : State := { loaded with run := true }

/-- A block about to drain. -/
def draining : State := { running with engState := .drain, blkBase := 0x1000, blkFrames := 1, blkChannels := 2 }

/-- A block about to render. -/
def rendering : State := { draining with engState := .render }

/-- A sounding voice of note 69 at FS 1760 (program P1). -/
def tone : Voice :=
  { Voice.reset with active := true, note := 69, vel := 0x3F800000, inc := 0x3F800000, stage := .sustain,
                     level := 0x3F800000, seq := 1 }

/-- A NOTE_ON of velocity 1.0. -/
def onEvent (n : BitVec 7) : EvtWord := ⟨(0x01 : Byte) ++ ((0 : BitVec 1) ++ n) ++ (0 : BitVec 16), 0x3F800000, 0, 0⟩

/-! ### WellFormed: what each check refuses, and its neighbour -/

theorem test_wf_velocity : (Instr.noteOn 60 0x3F800000 0).wf = true ∧ (Instr.noteOn 60 0x3F800001 0).wf = false ∧
    (Instr.noteOn 60 0x80000000 0).wf = true ∧ (Instr.noteOn 60 0x80000001 0).wf = false ∧
    (Instr.noteOn 60 0x7FC00000 0).wf = false := by decide

theorem test_wf_reserved_read : ([.rsv068 false 1 5, .rsv07C false 5, .rsv0AC false 5, .rsv0B8 false 1 5,
    .rsv0C0 false 9 5, .rsv100 false 5, .rsv12C false 5, .rsv130 false 3 5, .rsv14C false 5, .rsv150 false 3 5,
    .rsv160 false 7 5, .rsv180 false 31 5] : List Instr).all (fun i => !i.wf) = true := by decide

theorem test_wf_reserved_write : ([.rsv068 true 1 5, .rsv07C true 5, .rsv0AC true 5, .rsv0B8 true 1 5,
    .rsv0C0 true 9 5, .rsv100 true 5, .rsv12C true 5, .rsv130 true 3 5, .rsv14C true 5, .rsv150 true 3 5,
    .rsv160 true 7 5, .rsv180 true 31 5] : List Instr).all (fun i => i.wf) = true := by decide

/-! ### Decoding: a word of every row of spec/opcode_table.json (30_encoding.md R100, R101, R110, R112), bit by bit

An event word is W3 W2 W1 W0, an access the data word and the descriptor (bit 31 the direction, bits 8 to 0 the
offset), an engine step two bits. -/

/-- A table entry is what the decoder answers. -/
def reads (x : Nat × Nat × Instr) : Bool := decide (decodeTableWord x.1 x.2.1 = some x.2.2)

theorem test_decode_01 : (([
    (128, 0x80000001000000073F800000013C0000, .noteOn 60 0x3F800000 0x8000000100000007),
    (128, 0x800000010000000700000000023C0000, .noteOff 60 0x8000000100000007),
    (128, 0x8000000100000007000001E003010000, .ccAttackSamples 0x000001E0 0x8000000100000007),
    (128, 0x80000001000000070000000203020000, .ccDecaySamples 0x00000002 0x8000000100000007),
    (128, 0x80000001000000073F00000003030000, .ccSustainLevel 0x3F000000 0x8000000100000007),
    (128, 0x80000001000000070000000403040000, .ccReleaseSamples 0x00000004 0x8000000100000007),
    (128, 0x8000000100000007447A000003050000, .ccCutoffHz 0x447A0000 0x8000000100000007),
    (128, 0x80000001000000070000000103060000, .ccFilterEnable 0x00000001 0x8000000100000007),
    (128, 0x80000001000000074000000003070000, .ccHeadroom 0x40000000 0x8000000100000007),
    (128, 0x80000001000000070000000103080000, .ccSoftclipEnable 0x00000001 0x8000000100000007)] : List (Nat × Nat × Instr)).all reads) = true := by decide

theorem test_decode_02 : (([
    (128, 0x80000001000000070000000103090000, .ccPhaseReset 0x00000001 0x8000000100000007),
    (128, 0x800000010000000700000001030A0000, .ccRetrigMode 0x00000001 0x8000000100000007),
    (32, 0x00000000, .rdId),
    (64, 0xDEADBEEF80000000, .wrId 0xDEADBEEF),
    (32, 0x00000004, .rdVersion),
    (64, 0xDEADBEEF80000004, .wrVersion 0xDEADBEEF),
    (32, 0x00000008, .rdConfig0),
    (64, 0xDEADBEEF80000008, .wrConfig0 0xDEADBEEF),
    (32, 0x0000000C, .rdConfig1),
    (64, 0xDEADBEEF8000000C, .wrConfig1 0xDEADBEEF)] : List (Nat × Nat × Instr)).all reads) = true := by decide

theorem test_decode_03 : (([
    (32, 0x00000014, .rdStatus),
    (64, 0xDEADBEEF80000014, .wrStatus 0xDEADBEEF),
    (32, 0x00000018, .rdActiveVoices),
    (64, 0xDEADBEEF80000018, .wrActiveVoices 0xDEADBEEF),
    (32, 0x0000001C, .rdFifoCount),
    (64, 0xDEADBEEF8000001C, .wrFifoCount 0xDEADBEEF),
    (32, 0x00000020, .rdOvfCount),
    (64, 0xDEADBEEF80000020, .wrOvfCount 0xDEADBEEF),
    (32, 0x00000024, .rdPushResult),
    (64, 0xDEADBEEF80000024, .wrPushResult 0xDEADBEEF)] : List (Nat × Nat × Instr)).all reads) = true := by decide

theorem test_decode_04 : (([
    (32, 0x00000028, .rdBadEvtCount),
    (64, 0xDEADBEEF80000028, .wrBadEvtCount 0xDEADBEEF),
    (32, 0x0000002C, .rdCfgErrCount),
    (64, 0xDEADBEEF8000002C, .wrCfgErrCount 0xDEADBEEF),
    (32, 0x00000030, .rdCsrErrCount),
    (64, 0xDEADBEEF80000030, .wrCsrErrCount 0xDEADBEEF),
    (32, 0x00000034, .rdLastErr),
    (64, 0xDEADBEEF80000034, .wrLastErr 0xDEADBEEF),
    (32, 0x00000038, .rdStealCount),
    (64, 0xDEADBEEF80000038, .wrStealCount 0xDEADBEEF)] : List (Nat × Nat × Instr)).all reads) = true := by decide

theorem test_decode_05 : (([
    (32, 0x0000003C, .rdBlockCount),
    (64, 0xDEADBEEF8000003C, .wrBlockCount 0xDEADBEEF),
    (32, 0x00000084, .rdVoiceStatus),
    (64, 0xDEADBEEF80000084, .wrVoiceStatus 0xDEADBEEF),
    (32, 0x00000088, .rdVoiceLevel),
    (64, 0xDEADBEEF80000088, .wrVoiceLevel 0xDEADBEEF),
    (32, 0x0000008C, .rdVoicePhase),
    (64, 0xDEADBEEF8000008C, .wrVoicePhase 0xDEADBEEF),
    (32, 0x00000090, .rdVoiceInc),
    (64, 0xDEADBEEF80000090, .wrVoiceInc 0xDEADBEEF)] : List (Nat × Nat × Instr)).all reads) = true := by decide

theorem test_decode_06 : (([
    (32, 0x00000094, .rdVoiceY1),
    (64, 0xDEADBEEF80000094, .wrVoiceY1 0xDEADBEEF),
    (32, 0x00000098, .rdVoiceVel),
    (64, 0xDEADBEEF80000098, .wrVoiceVel 0xDEADBEEF),
    (32, 0x0000009C, .rdVoiceRelcnt),
    (64, 0xDEADBEEF8000009C, .wrVoiceRelcnt 0xDEADBEEF),
    (32, 0x000000A0, .rdVoiceReldec),
    (64, 0xDEADBEEF800000A0, .wrVoiceReldec 0xDEADBEEF),
    (32, 0x000000A4, .rdVoiceSeqLo),
    (64, 0xDEADBEEF800000A4, .wrVoiceSeqLo 0xDEADBEEF)] : List (Nat × Nat × Instr)).all reads) = true := by decide

theorem test_decode_07 : (([
    (32, 0x000000A8, .rdVoiceSeqHi),
    (64, 0xDEADBEEF800000A8, .wrVoiceSeqHi 0xDEADBEEF),
    (32, 0x000000B0, .rdTrigSeqLo),
    (64, 0xDEADBEEF800000B0, .wrTrigSeqLo 0xDEADBEEF),
    (32, 0x000000B4, .rdTrigSeqHi),
    (64, 0xDEADBEEF800000B4, .wrTrigSeqHi 0xDEADBEEF),
    (32, 0x00000104, .rdParam1),
    (64, 0xDEADBEEF80000104, .wrParam1 0xDEADBEEF),
    (32, 0x00000108, .rdParam2),
    (64, 0xDEADBEEF80000108, .wrParam2 0xDEADBEEF)] : List (Nat × Nat × Instr)).all reads) = true := by decide

theorem test_decode_08 : (([
    (32, 0x0000010C, .rdParam3),
    (64, 0xDEADBEEF8000010C, .wrParam3 0xDEADBEEF),
    (32, 0x00000110, .rdParam4),
    (64, 0xDEADBEEF80000110, .wrParam4 0xDEADBEEF),
    (32, 0x00000114, .rdParam5),
    (64, 0xDEADBEEF80000114, .wrParam5 0xDEADBEEF),
    (32, 0x00000118, .rdParam6),
    (64, 0xDEADBEEF80000118, .wrParam6 0xDEADBEEF),
    (32, 0x0000011C, .rdParam7),
    (64, 0xDEADBEEF8000011C, .wrParam7 0xDEADBEEF)] : List (Nat × Nat × Instr)).all reads) = true := by decide

theorem test_decode_09 : (([
    (32, 0x00000120, .rdParam8),
    (64, 0xDEADBEEF80000120, .wrParam8 0xDEADBEEF),
    (32, 0x00000124, .rdParam9),
    (64, 0xDEADBEEF80000124, .wrParam9 0xDEADBEEF),
    (32, 0x00000128, .rdParam10),
    (64, 0xDEADBEEF80000128, .wrParam10 0xDEADBEEF),
    (32, 0x00000140, .rdCoef),
    (64, 0xDEADBEEF80000140, .wrCoef 0xDEADBEEF),
    (32, 0x00000144, .rdAttackInc),
    (64, 0xDEADBEEF80000144, .wrAttackInc 0xDEADBEEF)] : List (Nat × Nat × Instr)).all reads) = true := by decide

theorem test_decode_10 : (([
    (32, 0x00000148, .rdDecayDec),
    (64, 0xDEADBEEF80000148, .wrDecayDec 0xDEADBEEF),
    (32, 0x00000010, .rdCtrl),
    (64, 0xDEADBEEF80000010, .wrCtrl 0xDEADBEEF),
    (32, 0x00000040, .rdEvtW0),
    (64, 0xDEADBEEF80000040, .wrEvtW0 0xDEADBEEF),
    (32, 0x00000044, .rdEvtW1),
    (64, 0xDEADBEEF80000044, .wrEvtW1 0xDEADBEEF),
    (32, 0x00000048, .rdEvtW2),
    (64, 0xDEADBEEF80000048, .wrEvtW2 0xDEADBEEF)] : List (Nat × Nat × Instr)).all reads) = true := by decide

theorem test_decode_11 : (([
    (32, 0x0000004C, .rdEvtW3),
    (64, 0xDEADBEEF8000004C, .wrEvtW3 0xDEADBEEF),
    (32, 0x00000050, .rdRender),
    (64, 0xDEADBEEF80000050, .wrRender 0xDEADBEEF),
    (32, 0x00000054, .rdOutBase),
    (64, 0xDEADBEEF80000054, .wrOutBase 0xDEADBEEF),
    (32, 0x00000058, .rdFrames),
    (64, 0xDEADBEEF80000058, .wrFrames 0xDEADBEEF),
    (32, 0x0000005C, .rdChannels),
    (64, 0xDEADBEEF8000005C, .wrChannels 0xDEADBEEF)] : List (Nat × Nat × Instr)).all reads) = true := by decide

theorem test_decode_12 : (([
    (32, 0x00000060, .rdIrqStatus),
    (64, 0xDEADBEEF80000060, .wrIrqStatus 0xDEADBEEF),
    (32, 0x00000064, .rdIrqEnable),
    (64, 0xDEADBEEF80000064, .wrIrqEnable 0xDEADBEEF),
    (32, 0x00000070, .rdCfgFs),
    (64, 0xDEADBEEF80000070, .wrCfgFs 0xDEADBEEF),
    (32, 0x00000074, .rdWtAddr),
    (64, 0xDEADBEEF80000074, .wrWtAddr 0xDEADBEEF),
    (32, 0x00000078, .rdWtData),
    (64, 0xDEADBEEF80000078, .wrWtData 0xDEADBEEF)] : List (Nat × Nat × Instr)).all reads) = true := by decide

theorem test_decode_13 : (([
    (32, 0x00000080, .rdVoiceSel),
    (64, 0xDEADBEEF80000080, .wrVoiceSel 0xDEADBEEF),
    (32, 0x00000068, .rsv068 false 0 0),
    (64, 0xDEADBEEF8000006C, .rsv068 true 1 0xDEADBEEF),
    (32, 0x0000007C, .rsv07C false 0),
    (64, 0xDEADBEEF8000007C, .rsv07C true 0xDEADBEEF),
    (32, 0x000000AC, .rsv0AC false 0),
    (64, 0xDEADBEEF800000AC, .rsv0AC true 0xDEADBEEF),
    (32, 0x000000B8, .rsv0B8 false 0 0),
    (64, 0xDEADBEEF800000BC, .rsv0B8 true 1 0xDEADBEEF)] : List (Nat × Nat × Instr)).all reads) = true := by decide

theorem test_decode_14 : (([
    (32, 0x000000C0, .rsv0C0 false 0 0),
    (64, 0xDEADBEEF800000FC, .rsv0C0 true 15 0xDEADBEEF),
    (32, 0x00000100, .rsv100 false 0),
    (64, 0xDEADBEEF80000100, .rsv100 true 0xDEADBEEF),
    (32, 0x0000012C, .rsv12C false 0),
    (64, 0xDEADBEEF8000012C, .rsv12C true 0xDEADBEEF),
    (32, 0x00000130, .rsv130 false 0 0),
    (64, 0xDEADBEEF8000013C, .rsv130 true 3 0xDEADBEEF),
    (32, 0x0000014C, .rsv14C false 0),
    (64, 0xDEADBEEF8000014C, .rsv14C true 0xDEADBEEF)] : List (Nat × Nat × Instr)).all reads) = true := by decide

theorem test_decode_15 : (([
    (32, 0x00000150, .rsv150 false 0 0),
    (64, 0xDEADBEEF8000015C, .rsv150 true 3 0xDEADBEEF),
    (32, 0x00000160, .rsv160 false 0 0),
    (64, 0xDEADBEEF8000017C, .rsv160 true 7 0xDEADBEEF),
    (32, 0x00000180, .rsv180 false 0 0),
    (64, 0xDEADBEEF800001FC, .rsv180 true 31 0xDEADBEEF),
    (8, 0x1, .drainStep),
    (8, 0x2, .renderStep)] : List (Nat × Nat × Instr)).all reads) = true := by decide

/-- The invalid events V7.4 to V7.11, V7.20, of 95_test_vectors.md. -/
theorem test_decode_invalid : decode (.event ⟨0x05000000, 0, 0, 0⟩) = .reject (.badEvent .evtBadKind 0x05) ∧
    decode (.event ⟨0x013C0001, 0x3F800000, 0, 0⟩) = .reject (.badEvent .evtRsvBits 0x01) ∧
    decode (.event ⟨0x023C0000, 1, 0, 0⟩) = .reject (.badEvent .evtRsvBits 0x02) ∧
    decode (.event ⟨0x01BC0000, 0x3F800000, 0, 0⟩) = .reject (.badEvent .evtBadNote 0xBC) ∧
    decode (.event ⟨0x013C0000, 0x3FC00000, 0, 0⟩) = .reject (.badEvent .evtBadVel 0x3C) ∧
    decode (.event ⟨0x013C0000, 0x7FC00000, 0, 0⟩) = .reject (.badEvent .evtBadVel 0x3C) ∧
    decode (.event ⟨0x053C0001, 0, 0, 0⟩) = .reject (.badEvent .evtBadKind 0x05) ∧
    decode (.event ⟨0x030B0000, 0, 0, 0⟩) = .reject (.badEvent .ccBadId 0x0B) ∧
    decode (.event ⟨0x03000000, 5, 0, 0⟩) = .reject (.badEvent .ccBadId 0x00) := by decide

/-- V7.10: a velocity of -0.0 is legal. -/
theorem test_decode_negative_zero :
    decode (.event ⟨0x013C0000, 0x80000000, 0, 0⟩) = .instr (.noteOn 60 0x80000000 0) := by decide

/-- Engine codes without a step (R112). -/
theorem test_decode_engine : decode (.engine 0) = .reject .noStep ∧ decode (.engine 3) = .reject .badEngState := by decide

/-! ### Arithmetic and the datapath -/

/-- Rounding to nearest even, subnormals, signed zeros, canonical NaN (00_scope.md R9, R10). -/
theorem test_float : add32 0x3F800000 0x33800000 = 0x3F800000 ∧ add32 0x3F800001 0x33800000 = 0x3F800002 ∧
    mul32 0x00800000 0x3F000000 = 0x00400000 ∧ add32 0x80000000 0x80000000 = 0x80000000 ∧
    sub32 0x3F800000 0x3F800000 = 0 ∧ div32 0 0 = 0x7FC00000 ∧ u2f 16777217 = 0x4B800000 := by decide

/-- V1.2, V1.5, V1.6, V1.8: the interpolator on TRI4. -/
theorem test_wtSample : ([(0x3E800000, 0x3E800000), (0x40300000, 0xBF400000), (0x40600000, 0xBF000000),
    (0x40880000, 0x3E800000)] : List (Word × Word)).all (fun x => (wtSample 4 tri4 x.1).toOption == some x.2) = true := by decide

/-- V1.10, V1.11: zeros of either sign in the table. -/
theorem test_wtSample_zeros :
    let wt : List WtEntry := [⟨0x80000000, true⟩, ⟨0x3F800000, true⟩, ⟨0x80000000, true⟩, ⟨0xBF800000, true⟩]
    (wtSample 4 wt 0).toOption = some 0 ∧ (wtSample 4 wt 0x40000000).toOption = some 0x80000000 := by decide

/-- V2.1: the phase after a tick from 3.0 by 1.5 is 0.5. -/
theorem test_nextPhase : nextPhase 4 { Voice.reset with phase := 0x40400000, inc := 0x3FC00000 } = 0x3F000000 := by decide

/-- X2: increments, at L = 4 and 2048. -/
theorem test_incFor : incFor 4 0x473B8000 69 = 0x3D162FC9 ∧ incFor 4 0x473B8000 127 = 0x3F85CD15 ∧
    incFor 2048 0x473B8000 69 = 0x41962FC9 ∧ incFor 4 0x44DC0000 0 = 0x3C9837F1 := by decide

/-- V4: coefficients. -/
theorem test_coefFn : coefFn 0x447A0000 0x473B8000 = 0x3DFB471D ∧ coefFn 0x447A0000 0x44DC0000 = 0x3F78CAC3 ∧
    coefFn 0x469C4000 0x473B8000 = 0x3F6D5336 ∧ coefFn 0x3F800000 0x473B8000 = 0x39093FD2 ∧
    coefFn 0x47098000 0x455C0000 = 0x3F800000 := by decide +kernel

/-- V4.1: two steps of the filter from +0.0. -/
theorem test_filter : lowPass 0x3DFB471D 0 0x3F800000 = 0x3DFB471D ∧
    lowPass 0x3DFB471D 0x3DFB471D 0x3F800000 = 0x3E6BDCD4 := by decide

/-- R181 with `COEF = +0.0` (log 29): a `Y1` of 1.0 stays, one of -0.0 becomes +0.0. -/
theorem test_lowPass_frozen_zero : lowPass 0 0x3F800000 0x3F000000 = 0x3F800000 ∧
    lowPass 0 0x80000000 0x3F800000 = 0 := by decide

/-- R180 gives that coefficient for the least cutoff at the greatest rate. -/
theorem test_coefFn_zero : coefFn 1 0x7F7FFFFF = 0 := by decide +kernel

/-- V8: the soft clip (for its row 0.9 see log 19). -/
theorem test_softClip : softClip 0x3F000000 = 0x3F300000 ∧ softClip 0x3E800000 = 0x3EBC0000 ∧
    softClip 0xC0400000 = 0xBF800000 ∧ softClip 0x80000000 = 0x80000000 := by decide

/-- The parameters of V3.1 and 42_envelope.md R173. -/
def p31 : ParamRegs :=
  { ParamRegs.reset 4 with attackSamples := 4, decaySamples := 2, sustainLevel := 0x3F000000, releaseSamples := 4,
                           attackInc := 0x3E800000, decayDec := 0x3E800000 }

/-- V3.1: the levels and stages of the seven ticks after a trigger. -/
theorem test_envelope : ((List.range 8).map fun k =>
      (((envTick p31)^[k] (triggerVoice Voice.reset)).level, ((envTick p31)^[k] (triggerVoice Voice.reset)).stage)) =
    [(0, .attack), (0x3E800000, .attack), (0x3F000000, .attack), (0x3F400000, .attack), (0x3F800000, .decay),
     (0x3F400000, .decay), (0x3F000000, .sustain), (0x3F000000, .sustain)] := by decide

/-- V3.1: the release from 0.5. -/
theorem test_envelope_release :
    let v := releaseVoice 4 { Voice.reset with stage := .sustain, level := 0x3F000000 }
    v.relCnt = 4 ∧ v.relDec = 0x3E000000 ∧
    ((List.range 6).map fun k => (((envTick p31)^[k] v).level, ((envTick p31)^[k] v).stage)) =
      [(0x3F000000, .release), (0x3EC00000, .release), (0x3E800000, .release), (0x3E000000, .release), (0, .idle),
       (0, .idle)] := by decide

/-- V5.2: a voice of velocity 0.5 at phase 1.0. -/
theorem test_voice : ((voiceSample 4 tri4 loaded.p { tone with vel := 0x3F000000, phase := 0x3F800000 }).toOption.map
    fun x => (x.1, x.2.phase, x.2.y1)) = some (0x3F000000, 0x40000000, 0x3F000000) := by decide

/-- R190 for a velocity of -0.0 (log 28): the table values +1.0 and -1.0 give -0.0 and +0.0. -/
theorem test_voice_negative_zero : ([0x3F800000, 0x40400000] : List Word).map (fun q =>
    (voiceSample 4 tri4 loaded.p { tone with vel := 0x80000000, phase := q }).toOption.map (·.1)) =
      [some 0x80000000, some 0] := by decide

/-! ### Events -/

/-- V6.7: the lowest free voice, its history cleared. -/
theorem test_noteOn_free :
    let s := { running with voices := [tone, { Voice.reset with y1 := 0x3F000000 }, tone, Voice.reset], trigSeq := 2 }
    let o := after (exec (.noteOn 50 0x3F800000 0) s)
    (o.map fun t => (t.voices.map (·.active), t.voices.map (·.note), t.voices.map (·.y1))) =
      some ([true, true, true, false], [69, 50, 69, 0], [0, 0, 0, 0]) ∧
    (o.map fun t => (t.voices.map (·.seq), t.trigSeq, t.stealCount)) = some ([1, 3, 1, 0], 3, 0) := by decide

/-- V6.3: the releasing voice of least level is stolen. -/
theorem test_noteOn_steal :
    let s := { running with voices := [tone, tone, { tone with stage := .release, level := 0x3E99999A },
      { tone with stage := .release, level := 0x3DCCCCCD, relCnt := 3, y1 := 0x3F000000 }] }
    let o := after (exec (.noteOn 70 0x3F800000 0) s)
    (o.map fun t => (t.voices.map (·.note), t.voices.map (·.stage), t.stealCount)) =
      some ([69, 69, 69, 70], [.sustain, .sustain, .release, .attack], 1) ∧
    (o.map fun t => (t.voices.map (·.level), t.voices.map (·.y1))) =
      some ([0x3F800000, 0x3F800000, 0x3E99999A, 0x3DCCCCCD], [0, 0, 0, 0x3F000000]) := by decide

/-- The example of R207: both voices of the note are released, the other is not. -/
theorem test_noteOff :
    let s := { running with voices := [{ tone with note := 60 }, { tone with note := 60 }, { tone with note := 64 },
      { tone with note := 60, stage := .release, relCnt := 9 }], p := p31 }
    ((after (exec (.noteOff 60 0) s)).map fun t => (t.voices.map (·.stage), t.voices.map (·.relCnt))) =
    some ([.release, .release, .sustain, .release], [4, 4, 0, 9]) := by decide

/-- V7.12, V7.13 and the derived registers of V3 (D = 3, S = 0.3). -/
theorem test_cc_counts :
    ((after (exec (.ccAttackSamples 480 7) running)).map fun t => (t.p.attackSamples, t.p.attackInc)) =
      some (480, 0x3B088889) ∧
    ((after (exec (.ccDecaySamples 3 7) { running with p := { running.p with sustainLevel := 0x3E99999A } })).map
      fun t => (t.p.decaySamples, t.p.decayDec)) = some (3, 0x3E6EEEEF) ∧
    ((after (exec (.ccReleaseSamples 4 7) running)).map fun t => t.p.releaseSamples) = some 4 := by decide

/-- V7.13, V7.14 and the sustain level -0.0 of 46_event_intake.md R243. -/
theorem test_cc_sustain :
    ((after (exec (.ccSustainLevel 0x3F000000 0) { running with p := { running.p with decaySamples := 2 } })).map
      fun t => (t.p.sustainLevel, t.p.decayDec)) = some (0x3F000000, 0x3E800000) ∧
    ((after (exec (.ccSustainLevel 0x80000000 0) running)).map fun t => t.p.sustainLevel) = some 0 ∧
    ((after (exec (.ccSustainLevel 0x3FC00000 0) running)).map fun t => (t.p.sustainLevel, errors t)) =
      some (0x3F800000, cfgError 0x0311) := by decide

/-- V7.15, V7.16. -/
theorem test_cc_cutoff :
    ((after (exec (.ccCutoffHz 0x43DC0000 0) State.reset)).map fun t => (t.p.cutoffHz, t.p.coef)) =
      some (0x43DC0000, 0x3D653F58) ∧
    ([0, 0xBF800000, 0x7F800000] : List Word).all (fun v => (after (exec (.ccCutoffHz v 0) State.reset)).map errors ==
      some (cfgError 0x0511)) = true := by decide +kernel

/-- V7.17 and the flags of 46_event_intake.md R246 to R250. -/
theorem test_cc_flags :
    ((after (exec (.ccFilterEnable 1 0) running)).map (·.p.filterEnable)) = some true ∧
    ((after (exec (.ccSoftclipEnable 1 0) running)).map (·.p.softclipEnable)) = some true ∧
    ((after (exec (.ccPhaseReset 1 0) running)).map (·.p.phaseReset)) = some true ∧
    ((after (exec (.ccRetrigMode 1 0) running)).map (·.p.retrigMode)) = some true ∧
    ((after (exec (.ccFilterEnable 2 0) running)).map errors) = some (cfgError 0x0611) ∧
    ((after (exec (.ccFilterEnable 0x3F800000 0) running)).map errors) = some (cfgError 0x0611) ∧
    ((after (exec (.ccSoftclipEnable 2 0) running)).map errors) = some (cfgError 0x0811) ∧
    ((after (exec (.ccPhaseReset 2 0) running)).map errors) = some (cfgError 0x0911) ∧
    ((after (exec (.ccRetrigMode 2 0) running)).map errors) = some (cfgError 0x0A11) := by decide

/-- V7.18, V7.19. -/
theorem test_cc_headroom :
    ((after (exec (.ccHeadroom 0x40000000 0) running)).map (·.p.headroom)) = some 0x40000000 ∧
    ((after (exec (.ccHeadroom 0x3F000000 0) running)).map fun t => (t.p.headroom, errors t)) =
      some (0x40800000, cfgError 0x0711) := by decide

/-! ### CSR accesses -/

/-- V11: what the registers read after power-on, N = 4, L = 4, depth 4. -/
theorem test_reads_reset : ([(.rdId, 0x5253594E), (.rdVersion, 0x00010000), (.rdConfig0, 0x00020004), (.rdConfig1, 4),
    (.rdCtrl, 0), (.rdStatus, 4), (.rdActiveVoices, 0), (.rdFifoCount, 0), (.rdOvfCount, 0), (.rdPushResult, 1),
    (.rdBadEvtCount, 0), (.rdCfgErrCount, 0), (.rdCsrErrCount, 0), (.rdLastErr, 0), (.rdStealCount, 0),
    (.rdBlockCount, 0), (.rdEvtW0, 0), (.rdRender, 0), (.rdOutBase, 0), (.rdFrames, 0), (.rdChannels, 1),
    (.rdIrqStatus, 0), (.rdIrqEnable, 0), (.rdCfgFs, 0x473B8000), (.rdWtAddr, 0), (.rdVoiceSel, 0)] :
    List (Instr × Word)).all (fun x => (after (exec x.1 State.reset)).map (·.rdata) == some x.2) = true := by decide

/-- V11, the rest. -/
theorem test_reads_reset_engine : ([(.rdVoiceStatus, 0), (.rdTrigSeqLo, 0), (.rdTrigSeqHi, 0), (.rdParam1, 0),
    (.rdParam2, 0), (.rdParam3, 0x3F800000), (.rdParam4, 0), (.rdParam5, 0x447A0000), (.rdParam6, 0),
    (.rdParam7, 0x40800000), (.rdParam8, 0), (.rdParam9, 0), (.rdParam10, 0), (.rdCoef, 0x3DFB471D), (.rdAttackInc, 0),
    (.rdDecayDec, 0)] : List (Instr × Word)).all
    (fun x => (after (exec x.1 State.reset)).map (·.rdata) == some x.2) = true := by decide

/-- Every register read from a state of its own values (10_state.md R44 to R72). -/
theorem test_reads_own :
    let s := { running with
      evtW1 := 1, evtW2 := 2, evtW3 := 3, outBase := 4, frames := 5, channels := 6, irqPend := 7, irqEn := 8,
      wtAddr := 3, voiceSel := 1, ovfCount := 11, badEvtCount := 12, cfgErrCount := 13, csrErrCount := 14,
      stealCount := 15, blockCount := 16, activeSnap := 17, lastErr := 0x1234, pushResult := false,
      trigSeq := 0x0000000500000006 }
    ([(.rdEvtW1, 1), (.rdEvtW2, 2), (.rdEvtW3, 3), (.rdOutBase, 4), (.rdFrames, 5), (.rdChannels, 6), (.rdIrqStatus, 7),
      (.rdIrqEnable, 8), (.rdWtAddr, 3), (.rdVoiceSel, 1), (.rdOvfCount, 11), (.rdBadEvtCount, 12), (.rdCfgErrCount, 13),
      (.rdCsrErrCount, 14), (.rdStealCount, 15), (.rdBlockCount, 16), (.rdActiveVoices, 17), (.rdLastErr, 0x1234),
      (.rdPushResult, 0), (.rdTrigSeqLo, 6), (.rdTrigSeqHi, 5), (.rdCtrl, 1), (.rdStatus, 5), (.rdWtData, 0xBF800000)] :
      List (Instr × Word)).all (fun x => (after (exec x.1 s)).map (·.rdata) == some x.2) = true := by decide

/-- The parameters and the voice window from values of their own (10_state.md R68 to R72); V9.28. -/
theorem test_reads_window :
    let v : Voice :=
      { active := true, note := 69, vel := 1, phase := 2, inc := 3, stage := .release, level := 4, relCnt := 5,
        relDec := 6, y1 := 7, seq := 0x0000000900000008 }
    let s := { running with voices := [Voice.reset, v, Voice.reset, Voice.reset], voiceSel := 1, p := p31 }
    ([(.rdVoiceStatus, 0x00004509), (.rdVoiceVel, 1), (.rdVoicePhase, 2), (.rdVoiceInc, 3), (.rdVoiceLevel, 4),
      (.rdVoiceRelcnt, 5), (.rdVoiceReldec, 6), (.rdVoiceY1, 7), (.rdVoiceSeqLo, 8), (.rdVoiceSeqHi, 9), (.rdParam1, 4),
      (.rdParam2, 2), (.rdParam3, 0x3F000000), (.rdParam4, 4), (.rdAttackInc, 0x3E800000), (.rdDecayDec, 0x3E800000)] :
      List (Instr × Word)).all (fun x => (after (exec x.1 s)).map (·.rdata) == some x.2) = true ∧
    (after (exec .rdVoiceLevel { s with voiceSel := 7 })).map (·.rdata) = some 0 := by decide

/-- V9.7 to V9.10: refused accesses. -/
theorem test_refused :
    ((after (exec (.rsv068 false 0 0) { running with rdata := 9 })).map fun t => (t.rdata, errors t)) =
      some (0, csrError 0x1A22) ∧
    ((after (exec (.rsv180 true 31 1) running)).map errors) = some (csrError 0x7F22) ∧
    ((after (exec (.wrParam3 0x3F000000) running)).map fun t => (t.p, errors t)) =
      some (running.p, csrError 0x4321) ∧
    ((after (exec (.wrStatus 0) running)).map errors) = some (csrError 0x0521) := by decide

/-- V9.5, V9.6: bad accesses read 0. -/
theorem test_bad_access : ([⟨false, 0x014, 2, 0⟩, ⟨false, 0x016, 4, 0⟩] : List CsrAccess).all (fun a =>
    (after (step { running with port := [.csr a], rdata := 9 })).map (fun t => (t.rdata, errors t)) ==
      some (0, csrError 0x0520)) = true := by decide

/-- V9.11 to V9.14: guarded writes. -/
theorem test_guarded : ((after (exec (.wrFrames 64) draining)).map fun t => (t.frames, errors t)) =
      some (0, csrError 0x1623) ∧
    ((after (exec (.wrCtrl 0) draining)).map fun t => (t.run, errors t)) = some (true, csrError 0x0423) ∧
    ((after (exec (.wrWtData 0) running)).map errors) = some (csrError 0x1E24) ∧
    ((after (exec (.wrCfgFs 0x473B8000) running)).map errors) = some (csrError 0x1C24) := by decide

/-- V9.15, V9.16 and the example of R306. -/
theorem test_cfgFs :
    ((after (exec (.wrCfgFs 0x44DC0000) State.reset)).map fun t => (t.fs, t.p.coef, t.voices.map (·.inc))) =
      some (0x44DC0000, 0x3F78CAC3, [0x3C9837F1, 0x3C9837F1, 0x3C9837F1, 0x3C9837F1]) ∧
    ([0, 0x3F000000, 0x7F800000, 0x7FC00000] : List Word).all (fun v =>
      (after (exec (.wrCfgFs v) State.reset)).map (fun t => (t.fs, errors t)) ==
        some (0x473B8000, cfgError 0x0012)) = true := by decide +kernel

/-- V9.17, V9.18 and the example of R309: the table port. -/
theorem test_table : ((after (exec (.wrWtAddr 6) State.reset)).map (·.wtAddr)) = some 2 ∧
    ((after (exec (.wrWtData 0x40000000) { loaded with wtAddr := 2 })).map fun t => (t.wt, t.wtAddr, errors t)) =
      some (tri4, 2, cfgError 0x0213) ∧
    ((after (exec (.wrWtData 0xBF800000) { State.reset with wtAddr := 3 })).map fun t => (t.wt[3]?, t.wtAddr)) =
      some (some ⟨0xBF800000, true⟩, 0) := by decide

/-- V9.19 to V9.25: the render command. -/
theorem test_render_command :
    ((after (exec (.wrRender 1) loaded)).map errors) = some (csrError 0x1426) ∧
    ((after (exec (.wrRender 1) { running with outBase := 0x1002 })).map errors) = some (csrError 0x0125) ∧
    ((after (exec (.wrRender 1) { running with channels := 0 })).map errors) = some (csrError 0x0225) ∧
    ((after (exec (.wrRender 1) { running with outBase := 0xFFFFFFF0, frames := 5 })).map errors) =
      some (csrError 0x0325) ∧
    ((after (exec (.wrRender 1) { running with outBase := 0xFFFFFFF0, frames := 4 })).map fun t =>
      (t.engState, t.blkBase, t.blkFrames, t.blkChannels)) = some (.drain, 0xFFFFFFF0, 4, 1) ∧
    ((after (exec (.wrRender 1) draining)).map errors) = some (csrError 0x1423) ∧
    after (exec (.wrRender 0) draining) = some draining := by decide

/-- V9.26 and R361: a soft reset keeps the table. -/
theorem test_softReset : ((after (exec (.wrCtrl 3) { running with fifo := [onEvent 60], irqEn := 1, frames := 9 })).map
    fun t => (t.run, t.wt, t.fs, t.fifo, t.irqEn)) = some (false, tri4, 0x473B8000, [], 0) := by decide

/-- The example of R295, and V9.27. -/
theorem test_ctrl_irq : ((after (exec (.wrCtrl 1) State.reset)).map (·.run)) = some true ∧
    ((after (exec (.wrIrqStatus 1) { running with irqPend := 0x03 })).map (·.irqPend)) = some 0x02 ∧
    ((after (exec (.wrIrqEnable 0xFFFFFFE1) running)).map (·.irqEn)) = some 0x01 ∧
    ((after (exec (.wrVoiceSel 0xFFFF0002) running)).map (·.voiceSel)) = some 2 := by decide

/-- The staging and the operand registers (R299, R301). -/
theorem test_plain_writes : ((after (exec (.wrEvtW1 5) draining)).map (·.evtW1)) = some 5 ∧
    ((after (exec (.wrEvtW2 6) draining)).map (·.evtW2)) = some 6 ∧
    ((after (exec (.wrEvtW3 7) draining)).map (·.evtW3)) = some 7 ∧
    ((after (exec (.wrOutBase 8) running)).map (·.outBase)) = some 8 ∧
    ((after (exec (.wrFrames 9) running)).map (·.frames)) = some 9 ∧
    ((after (exec (.wrChannels 0) running)).map (·.channels)) = some 0 := by decide

/-- V10.3: a push into a full FIFO. -/
theorem test_push_full :
    let s := { draining with fifo := [onEvent 1, onEvent 2, onEvent 3, onEvent 4], evtW1 := 0x3F800000 }
    ((after (exec (.wrEvtW0 0x01050000) s)).map fun t => (t.fifo, t.pushResult, t.ovfCount, t.irqPend)) =
      some ([onEvent 2, onEvent 3, onEvent 4, onEvent 5], false, 1, 0x02) := by decide

/-! ### The engine -/

/-- V6.1: five note-ons in one drain of four voices. -/
theorem test_drain : ((after (exec .drainStep { draining with fifo := [60, 62, 64, 65, 67].map onEvent })).map fun t =>
    (t.voices.map (·.note), t.voices.map (·.seq), t.voices.map (·.active), t.stealCount)) =
      some ([67, 62, 64, 65], [5, 2, 3, 4], [true, true, true, true], 1) := by decide

/-- V6.8: reclaim frees the finished voice alone. -/
theorem test_drain_reclaim : ((after (exec .drainStep { draining with voices := [tone, { tone with stage := .idle, level := 0 },
    { tone with stage := .release }, Voice.reset] })).map fun t => (t.voices.map (·.active), t.engState)) =
      some ([true, false, true, false], .render) := by decide

/-- Program P1's second frame (0x3E800000 is 1.0 / 4.0), written to two channels (V8.5). -/
theorem test_render :
    let o := after (exec .renderStep
      { rendering with voices := [{ tone with phase := 0x3F800000 }, Voice.reset, Voice.reset, Voice.reset] })
    (o.map fun t => (readWord 0x1000 t.mem, readWord 0x1004 t.mem, readByte 0x1003 t.mem)) =
      some (some 0x3E800000, some 0x3E800000, some 0x3E) ∧
    (o.map fun t => (t.engState, t.blockCount, t.activeSnap, t.irqPend)) = some (.idle, 1, 1, 0x01) := by decide

/-- V1.12: the fault. -/
theorem test_render_stops :
    stop (exec .renderStep { rendering with voices := [tone], wt := [] }) = some .uninitTableRead ∧
    stop (exec .renderStep draining) = some .stepNotEnabled := by decide

/-- A block into memory the platform does not admit (the range is 0x1000 to 0x1007, the memory ends at 0x1006). -/
def stuck : State := { rendering with par := { Params.vectors with memory := [⟨0x1000, 7⟩] } }

/-- The stuck engine has no step and its turn passes (20_memory.md R88, 93_implementation_defined.md I8); a host's turn
still runs: STATUS reads RUN, BUSY and FIFO_EMPTY. -/
theorem test_render_stuck : after (exec .renderStep stuck) = some stuck ∧ after (step stuck) = some stuck ∧
    (after (step { stuck with port := [.csr ⟨false, 0x014, 4, 0⟩] })).map (·.rdata) = some 0x07 := by decide

/-- A host in the output range of the stuck block, at a word the platform does not admit: a draw, a race (20_memory.md
R92); past the range, the fault (log 8). -/
theorem test_stuck_memory :
    (after (step { stuck with port := [.memRead 0x401] })).map (·.draws) = some 1 ∧
    (after (step { stuck with port := [.memWrite 0x401 5] })).map (·.raced) = some [0x1004] ∧
    stop (step { stuck with port := [.memRead 0x402] }) = some .hostMemoryAbsent := by decide

/-- R130 where it passes R132's bound (log 26), worked out by hand: 0x3F3FFFE2 and 0x3F3FFFDC are 6 * 2^-24 apart. -/
theorem test_interpolation_rounding :
    let wt : List WtEntry := [⟨0xBE800041, true⟩, ⟨0x3F7FFFEC, true⟩]
    (wtSample 2 wt 0x3F4CCCC6).toOption = some 0x3F3FFFE2 ∧ (wtSample 2 wt 0x3F4CCCC3).toOption = some 0x3F3FFFDC := by
  decide

/-- The `irq` line (60_exceptions.md R335), and `STATUS` at the end of program P1. -/
theorem test_irq : ((after (exec .rdStatus { running with irqPend := 1, irqEn := 1 })).map (·.rdata)) = some 0x15 ∧
    irqLine { running with irqPend := 2, irqEn := 1 } = false := by decide

/-- The window in the host's address map (20_memory.md R81, R82). -/
theorem test_bus : csrOfBus { Params.vectors with csrBase := 0x40000200 } true 0x4000027C 4 5 =
      some { write := true, off := 0x07C, width := 4, data := 5 } ∧
    csrOfBus { Params.vectors with csrBase := 0x40000200 } false 0x40000400 4 5 = none ∧
    byteLane 0x12345678 0 = 0x78 ∧ byteLane 0x12345678 3 = 0x12 := by decide

/-- One step runs an instruction placed where the machine takes it next (log 2). -/
theorem test_withFetchWord :
    (after (step (State.reset.withFetchWord 32 0x00000000))).map (·.rdata) = some 0x5253594E ∧
    (after (step (State.reset.withFetchWord 32 0x03010000))).map (·.p.attackSamples) = some 0 ∧
    (after (step (State.reset.withFetchWord 64 0x0000000180000010))).map (·.run) = some true ∧
    (after (step (State.reset.withFetchWord 8 1))).map (·.engState) = some .render ∧
    (after (step (State.reset.withFetchWord 8 2))).map (·.blockCount) = some 1 := by decide

/-! ### Witnesses: for each statement with hypotheses, a case that meets them, and for each clause one at its edge -/

theorem witness_DecodeEncode : (Instr.noteOn 127 0x3F800000 0xFFFFFFFFFFFFFFFF).wf = true := by decide

theorem witness_EventWordsUnique : decode (.event ⟨0x017F0000, 0x80000000, 1, 2⟩) = .instr (.noteOn 127 0x80000000 0x200000001) := by
  decide

theorem witness_AccessDecoding :
    (({ write := true, off := 0x1FC, width := 4, data := 7 } : CsrAccess).width = 4 ∧ (0x1FC : BitVec 9).extractLsb' 0 2 = 0) ∧
    ({ write := true, off := 0x1FC, width := 3, data := 7 } : CsrAccess).width ≠ 4 ∧ (0x1FF : BitVec 9).extractLsb' 0 2 ≠ 0 := by
  decide

theorem witness_StepRunsDecoded :
    (({ State.reset with port := [.csr ⟨false, 0, 4, 0⟩] } : State).port = .csr ⟨false, 0, 4, 0⟩ :: [] ∧
      decode (.access ⟨false, 0, 4, 0⟩) = .instr .rdId) ∧
    (({ draining with port := [.engine] } : State).port = .engine :: [] ∧
      decode (.engine (engCode draining.engState)) = .instr .drainStep) ∧
    (rendering.port = [] ∧ decode (.engine (engCode rendering.engState)) = .instr .renderStep) ∧
    (({ State.reset with port := [.engine] } : State).port = .engine :: [] ∧ State.reset.engState = .idle ∧
      State.reset.port = []) := by decide

theorem witness_AppliedEventIsExec : decode (.event ⟨0x02000000, 0, 0, 0⟩) = .instr (.noteOff 0 0) := by decide

theorem witness_InvalidEvents :
    (evtKind 0x00000000 ≠ 0x01 ∧ evtKind 0x00000000 ≠ 0x02 ∧ evtKind 0x00000000 ≠ 0x03) ∧
    (evtKind 0x04000000 ≠ 0x01 ∧ evtKind 0x04000000 ≠ 0x02 ∧ evtKind 0x04000000 ≠ 0x03) ∧
    (evtKind 0x03018000 = 0x03 ∧ evtRsv0 0x03018000 ≠ 0) ∧ (evtKind 0x02000000 = 0x02 ∧ (0x80000000 : Word) ≠ 0) ∧
    (evtKind 0x01800000 = 0x01 ∧ evtRsv0 0x01800000 = 0 ∧ (evtArg 0x01800000).getLsbD 7 = true) ∧
    (evtKind 0x017F0000 = 0x01 ∧ evtRsv0 0x017F0000 = 0 ∧ (evtArg 0x017F0000).getLsbD 7 = false ∧ isUnit32 0x3F800001 = false) ∧
    (evtKind 0x03000000 = 0x03 ∧ evtArg 0x03000000 = 0 ∧ evtRsv0 0x03000000 = 0) ∧
    (evtKind 0x030B0000 = 0x03 ∧ (0x0A : Byte) < evtArg 0x030B0000 ∧ evtRsv0 0x030B0000 = 0) := by decide

theorem witness_BadAccess :
    (({ State.reset with port := [.csr ⟨false, 0x1FC, 2, 0⟩] } : State).port = .csr ⟨false, 0x1FC, 2, 0⟩ :: [] ∧ 2 ≠ 4) ∧
    (({ State.reset with port := [.csr ⟨true, 0x001, 4, 0⟩] } : State).port = .csr ⟨true, 0x001, 4, 0⟩ :: [] ∧
      (0x001 : BitVec 9).extractLsb' 0 2 ≠ 0) := by decide

theorem witness_EngineRegisterReads : busy running = false := by decide

theorem witness_VoiceWindowReads : busy running = false ∧
    (({ running with voiceSel := 3 } : State).voiceSel.toNat < running.par.nVoices ∧ running.voices[3]? = some Voice.reset) ∧
    running.par.nVoices ≤ ({ running with voiceSel := 4 } : State).voiceSel.toNat := by decide

theorem witness_BusyReadsAreFree : busy draining = true ∧ busy rendering = true ∧
    (busy { draining with voiceSel := 4 } = true ∧
      draining.par.nVoices ≤ ({ draining with voiceSel := 4 } : State).voiceSel.toNat) := by decide

theorem witness_TableRead : ({ loaded with wtAddr := 3 } : State).wt[3]? = some ⟨0xBF800000, true⟩ ∧
    ({ State.reset with wtAddr := 3 } : State).wt[3]? = some ⟨0, false⟩ := by decide

theorem witness_ReadsHaveNoSideEffect : decode (.access ⟨false, 0x078, 4, 0⟩) = .instr .rdWtData ∧
    decode (.access ⟨false, 0x1FC, 4, 0⟩) = .instr (.rsv180 false 31 0) := by decide

theorem witness_GuardedWritesRefused : busy draining = true ∧ (busy running = false ∧ running.run = true) := by decide

theorem witness_CtrlWrite : busy running = false ∧ (1 : Word).getLsbD 1 = false ∧ (3 : Word).getLsbD 1 = true := by decide

theorem witness_EventPush : ({ running with fifo := [onEvent 1, onEvent 2, onEvent 3] } : State).fifo.length ≠ running.par.fifoDepth ∧
    ({ running with fifo := [onEvent 1, onEvent 2, onEvent 3, onEvent 4] } : State).fifo.length = running.par.fifoDepth := by decide

theorem witness_PlainWrites : busy running = false := by decide

theorem witness_SampleRateWrite : busy loaded = false ∧ loaded.run = false ∧ isSampleRate 0x3F800000 = true ∧
    isSampleRate 0x3F7FFFFF = false ∧ isSampleRate 0x7F7FFFFF = true ∧ isSampleRate 0x7F800000 = false := by decide

theorem witness_TableWrites : busy loaded = false ∧ loaded.run = false ∧ loaded.par.legal = true ∧
    isTableValue 0xBF800000 = true ∧ isTableValue 0xBF800001 = false ∧ isTableValue 0x3F800000 = true ∧
    isTableValue 0x3F800001 = false := by decide

/-- A host about to load TRI4. -/
def loading : State :=
  { State.reset with port := [0, 0x3F800000, 0, 0xBF800000].map fun v => .csr ⟨true, 0x078, 4, v⟩ }

theorem witness_TableLoad : busy loading = false ∧ loading.run = false ∧ ShapeInv loading ∧ loading.wtAddr = 0 ∧
    ([0, 0x3F800000, 0, 0xBF800000] : List Word).length = loading.par.tableLen ∧
    (∀ v ∈ ([0, 0x3F800000, 0, 0xBF800000] : List Word), isTableValue v = true) ∧
    loading.port = ([0, 0x3F800000, 0, 0xBF800000] : List Word).map (fun v => Turn.csr ⟨true, 0x078, 4, v⟩) ++ [] :=
  ⟨by decide, by decide, ⟨by decide, by decide, by decide, by decide⟩, rfl, rfl,
    by simp only [List.forall_mem_cons, List.not_mem_nil, false_imp_iff, implies_true, and_true]; decide, rfl⟩

theorem witness_CcLevels : isUnit32 0x80000000 = true ∧ isUnit32 0x3F800000 = true ∧ isUnit32 0x3F800001 = false ∧
    isCutoff 0x00000001 = true ∧ isCutoff 0x7F7FFFFF = true ∧ isCutoff 0 = false ∧ isHeadroom 0x3F800000 = true ∧
    isHeadroom 0x3F7FFFFF = false := by decide

theorem witness_CcFlags : ((1 : Word) = 0 ∨ (1 : Word) = 1) ∧ ((2 : Word) ≠ 0 ∧ (2 : Word) ≠ 1) := by decide

/-- Voices 0 to 2 sounding, 3 free. -/
def threeSounding : State := { running with voices := [tone, tone, tone, Voice.reset] }

theorem witness_NoteOnFreeVoice :
    (threeSounding.p.retrigMode = true → ∀ u ∈ threeSounding.voices, u.active = true → u.note ≠ 60) ∧
    threeSounding.voices[3]? = some Voice.reset ∧ Voice.reset.active = false ∧
    ∀ j u, j < 3 → threeSounding.voices[j]? = some u → u.active = true := by
  refine ⟨by decide, rfl, rfl, ?_⟩
  intro j u hj hu
  match j, hj with
  | 0, _ => cases hu; rfl
  | 1, _ => cases hu; rfl
  | 2, _ => cases hu; rfl

/-- One voice per note, voice 2 the one of note 60 (V6.5). -/
def retrigState : State :=
  { running with p := { running.p with retrigMode := true }
                 voices := [tone, tone, { tone with note := 60, stage := .release, level := 0x3E800000 }, Voice.reset] }

theorem witness_NoteOnRetrigger : retrigState.p.retrigMode = true ∧
    retrigState.voices[2]? = some { tone with note := 60, stage := .release, level := 0x3E800000 } ∧
    ∀ j u, j < 2 → retrigState.voices[j]? = some u → ¬(u.active = true ∧ u.note = 60) := by
  refine ⟨rfl, rfl, ?_⟩
  intro j u hj hu
  match j, hj with
  | 0, _ => cases hu; decide
  | 1, _ => cases hu; decide

/-- A finished and a releasing voice of level 0 (V6.4). -/
def stealState : State :=
  { running with voices := [tone, { tone with stage := .idle, level := 0 }, { tone with stage := .release, level := 0 }, tone] }

theorem witness_NoteOnSteal : (stealState.p.retrigMode = true → ∀ u ∈ stealState.voices, u.note ≠ 70) ∧
    (∀ u ∈ stealState.voices, u.active = true) ∧
    IsVictim stealState.voices 1 { tone with stage := .idle, level := 0 } := by
  refine ⟨by decide, by decide, rfl, Or.inl ⟨Or.inr rfl, ?_⟩⟩
  intro j u hu hr
  match j with
  | 0 => cases hu; revert hr; decide
  | 1 => cases hu; decide
  | 2 => cases hu; decide
  | 3 => cases hu; revert hr; decide
  | k + 4 => cases hu

/-- No voice releasing, two of them equally old. -/
theorem witness_NoteOnSteal_oldest :
    IsVictim [{ tone with seq := 2 }, tone, tone, { tone with seq := 3 }] 1 tone := by
  refine ⟨rfl, Or.inr ⟨by decide, ?_⟩⟩
  intro j u hu
  match j with
  | 0 => cases hu; decide
  | 1 => cases hu; decide
  | 2 => cases hu; decide
  | 3 => cases hu; decide
  | k + 4 => cases hu

theorem witness_VictimUnique : stealState.voices ≠ [] ∧ ∀ u ∈ stealState.voices, isLevel u.level = true := by decide

/-- Two free voices and three note-ons. -/
def overCapacity : State :=
  { State.resetOf { Params.vectors with nVoices := 2 } with engState := .drain, fifo := [60, 62, 64].map onEvent }

theorem witness_CapacityPlusOne : overCapacity.engState = .drain ∧ overCapacity.p.retrigMode = false ∧
    0 < overCapacity.voices.length ∧ (∀ v ∈ overCapacity.voices, v.active = false) ∧
    overCapacity.fifo.length = overCapacity.voices.length + 1 ∧
    (∀ e ∈ overCapacity.fifo, ∃ n vel, decodeEvent e.w0 e.w1 = .noteOn n vel) ∧
    overCapacity.trigSeq.toNat + overCapacity.voices.length + 1 < 2 ^ 64 := by
  refine ⟨by decide, by decide, by decide, by decide, by decide, ?_, by decide⟩
  intro e he
  simp only [overCapacity, List.map_cons, List.map_nil, List.mem_cons, List.not_mem_nil, or_false] at he
  rcases he with rfl | rfl | rfl
  · exact ⟨60, 0x3F800000, by decide⟩
  · exact ⟨62, 0x3F800000, by decide⟩
  · exact ⟨64, 0x3F800000, by decide⟩

theorem witness_CapacityPlusOne_event : overCapacity.fifo[2]? = some (onEvent 64) ∧
    decodeEvent (onEvent 64).w0 (onEvent 64).w1 = .noteOn 64 0x3F800000 ∧ (2 : Nat) ≠ 0 := by decide

theorem witness_ReclaimIdempotent : ∀ v ∈ threeSounding.voices, ¬(v.active = true ∧ v.stage = .idle) := by decide

/-- A host about to push twice into a FIFO with room for one. -/
def pushing : State :=
  { running with fifo := [onEvent 1, onEvent 2, onEvent 3]
                 port := [0x023C0000, 0x023D0000].map fun w => .csr ⟨true, 0x040, 4, w⟩ }

theorem witness_FifoKeepsNewest : 1 ≤ pushing.par.fifoDepth ∧ pushing.fifo.length ≤ pushing.par.fifoDepth ∧
    pushing.port = ([0x023C0000, 0x023D0000] : List Word).map (fun w => Turn.csr ⟨true, 0x040, 4, w⟩) ++ [] := by decide

theorem witness_DrainInOrder : running.engState ≠ .drain ∧ (draining.engState = .drain ∧ draining.fifo = []) ∧
    (overCapacity.engState = .drain ∧ overCapacity.fifo = onEvent 60 :: [62, 64].map onEvent) := by decide

theorem witness_DrainFrame : overCapacity.engState = .drain := by decide

theorem witness_EnvelopeTick : Voice.reset.stage = .idle ∧ ({ tone with stage := .attack } : Voice).stage = .attack ∧
    ({ tone with stage := .decay } : Voice).stage = .decay ∧ tone.stage = .sustain ∧
    ({ tone with stage := .release } : Voice).stage = .release := by decide

theorem witness_ReleaseEnds :
    let v := { tone with stage := .release, relCnt := 3, relDec := 0x3E000000 }
    v.stage = .release ∧ (1 ≤ 3 ∧ v.relCnt.toNat ≤ 3) ∧ isUnit32 v.level = true ∧ isNonneg32 v.relDec = true ∧
    (1 ≤ 1 ∧ ({ v with relCnt := 0 } : Voice).relCnt.toNat ≤ 1) := by decide

theorem witness_VoiceTick :
    (tableAt tri4 (floor32 (wrapL 4 0x40600000) % 4) = some 0xBF800000 ∧
      tableAt tri4 ((floor32 (wrapL 4 0x40600000) % 4 + 1) % 4) = some 0) ∧
    tableAt [] (floor32 (wrapL 4 0) % 4) = none ∧ tableAt [⟨0, true⟩] ((floor32 (wrapL 4 0) % 4 + 1) % 4) = none := by decide

/-- The fault of a computation. -/
def failure {α : Type} : Except Fault α → Option Fault
  | .ok _ => none
  | .error f => some f

/-- One voice at the second entry of TRI4, and a free one. -/
def sounding : State := { rendering with voices := [{ tone with phase := 0x3F800000 }, Voice.reset] }

theorem witness_MixInOrder :
    (mixVoices sounding.par.tableLen sounding.wt sounding.p sounding.voices 0).toOption =
      some (0x3F800000, [{ tone with phase := 0x40000000, y1 := 0x3F800000 }, Voice.reset]) ∧
    failure (mixVoices sounding.par.tableLen [] sounding.p sounding.voices 0) = some .uninitTableRead ∧
    (mixVoices 4 tri4 running.p [Voice.reset] 0).toOption = some (0, [Voice.reset]) ∧ Voice.reset.active = false ∧
    tone.active = true ∧ ((voiceSample 4 tri4 running.p tone).toOption.map (·.1)) = some 0 ∧
    failure (voiceSample 4 [] running.p tone) = some .uninitTableRead ∧
    (ParamRegs.reset 4).softclipEnable = false ∧ ({ ParamRegs.reset 4 with softclipEnable := true }).softclipEnable = true := by
  decide

theorem witness_RenderCompletes : rendering.engState = .render ∧
    admits rendering.par.memory rendering.blkBase.toNat (outputEnd rendering) = true ∧
    TableFull rendering ∧ ({ rendering with blkFrames := 0 } : State).blkFrames = 0 := by
  refine ⟨by decide, by decide, ⟨by decide, by decide⟩, by decide⟩

theorem witness_RenderStops : draining.engState ≠ .render ∧
    (stuck.engState = .render ∧ admits stuck.par.memory stuck.blkBase.toNat (outputEnd stuck) = false ∧ stuck.port = [] ∧
      ({ stuck with port := [.engine, .csr ⟨false, 0x014, 4, 0⟩] } : State).port =
        .engine :: [.csr ⟨false, 0x014, 4, 0⟩] ∧ decode (.access ⟨false, 0x014, 4, 0⟩) = .instr .rdStatus) ∧
    (let s : State := { rendering with voices := [Voice.reset, tone], wt := State.reset.wt }
     s.engState = .render ∧ admits s.par.memory s.blkBase.toNat (outputEnd s) = true ∧ s.blkFrames ≠ 0 ∧
      (∃ v ∈ s.voices, v.active = true) ∧ ∀ e ∈ s.wt, e.written = false) := by
  decide

theorem witness_RenderWritesLayout :
    admits rendering.par.memory rendering.blkBase.toNat (outputEnd rendering) = true ∧ (∃ t, exec .renderStep rendering = .next t) ∧ Memory.wf rendering.mem ∧
    0 < rendering.blkChannels.toNat ∧ rendering.blkBase.toNat + 4 * (0 * rendering.blkChannels.toNat + 1) ∉ rendering.raced :=
  ⟨by decide, ⟨_, rfl⟩, by decide, by decide, by decide⟩

theorem witness_RenderFrame :
    admits rendering.par.memory rendering.blkBase.toNat (outputEnd rendering) = true ∧ (∃ t, exec .renderStep rendering = .next t) ∧ 0xFFF < rendering.blkBase.toNat ∧
    outputEnd rendering ≤ 0x1008 ∧ rendering.voices[3]? = some Voice.reset := ⟨by decide, ⟨_, rfl⟩, by decide, by decide, by decide⟩

theorem witness_HostMemoryAccess :
    (admits stuck.par.memory (4 * (0x402 : BitVec 30).toNat) (4 * (0x402 : BitVec 30).toNat + 4) = false ∧
      ¬(4 * (0x402 : BitVec 30).toNat < outputEnd stuck)) ∧
    (admits stuck.par.memory (4 * (0x401 : BitVec 30).toNat) (4 * (0x401 : BitVec 30).toNat + 4) = false ∧
      stuck.engState ≠ .idle ∧ stuck.blkBase.toNat < 4 * (0x401 : BitVec 30).toNat + 4 ∧
      4 * (0x401 : BitVec 30).toNat < outputEnd stuck) ∧
    (admits rendering.par.memory (4 * (0x401 : BitVec 30).toNat) (4 * (0x401 : BitVec 30).toNat + 4) = true ∧
      rendering.engState ≠ .idle ∧ rendering.blkBase.toNat < 4 * (0x401 : BitVec 30).toNat + 4 ∧
      4 * (0x401 : BitVec 30).toNat < outputEnd rendering) ∧
    ¬(rendering.engState ≠ .idle ∧ rendering.blkBase.toNat < 4 * (0x402 : BitVec 30).toNat + 4 ∧
      4 * (0x402 : BitVec 30).toNat < outputEnd rendering) ∧
    ¬(rendering.engState ≠ .idle ∧ rendering.blkBase.toNat < 4 * (0x3FF : BitVec 30).toNat + 4 ∧
      4 * (0x3FF : BitVec 30).toNat < outputEnd rendering) ∧ Memory.wf rendering.mem := by decide

theorem witness_HostMemoryAccess_ports :
    ({ rendering with port := [.memRead 0x401] } : State).port = .memRead 0x401 :: [] ∧
    ({ rendering with port := [.memWrite 0x401 5] } : State).port = .memWrite 0x401 5 :: [] ∧
    ({ rendering with port := [.memWrite 0x402 5, .memRead 0x402] } : State).port = .memWrite 0x402 5 :: .memRead 0x402 :: [] := by
  decide

theorem witness_ResetMeetsInvariants : Params.vectors.legal = true ∧
    ({ Params.vectors with nVoices := 65535, wtLog2Len := 16, fifoDepth := 65535 } : Params).legal = true := by decide

/-- A block that renders meets every invariant but the two about `COEF`, whose value is checked on its own. -/
theorem witness_Kept : PoolInv rendering ∧ IncInv rendering ∧ MemoryInv rendering ∧ ShapeInv rendering ∧ TableInv rendering ∧
    LevelInv rendering ∧ PhaseInv rendering ∧ ∃ t, step rendering = .next t := by
  refine ⟨⟨by decide, ?_⟩, ?_, List.Pairwise.nil, ?_, ?_, ⟨by decide, by decide, by decide, by decide⟩, ⟨by decide, by decide, by decide⟩, _, rfl⟩
  · intro v hv; rw [List.eq_of_mem_replicate hv]; exact ⟨fun _ => rfl, fun _ => rfl, fun _ => rfl⟩
  · intro v hv; rw [List.eq_of_mem_replicate hv]; intro h; cases h
  · exact ⟨by decide, by decide, by decide, by decide⟩
  · intro e he; revert e; decide

/-- Sounding voices at both ends of the stamps, in the last block before `TRIG_SEQ` wraps. -/
theorem witness_PoolKept :
    let s := { sounding with voices := [tone, { tone with seq := 0xFFFFFFFFFFFFFFFF }], trigSeq := 0xFFFFFFFFFFFFFFFF }
    SeqInv s ∧ s.trigSeq.toNat + s.fifo.length < 2 ^ 64 ∧ ∃ t, step s = .next t := by
  refine ⟨?_, by decide, _, rfl⟩
  unfold SeqInv
  simp only [List.forall_mem_cons, List.not_mem_nil, false_imp_iff, implies_true, and_true]
  decide

/-- Filter histories at both ends of [-1, 1], the filter on. -/
theorem witness_LevelKept :
    let s := { sounding with p := { sounding.p with filterEnable := true, coef := 0x3F800000 },
                             voices := [{ tone with y1 := 0x3F800000 }, { tone with y1 := 0xBF800000 }] }
    LevelInv s ∧ TableInv s ∧ FilterInv s ∧ ∃ t, step s = .next t := by
  refine ⟨⟨by decide, by decide, by decide, by decide⟩, ?_, ⟨by decide, by decide, by decide, by decide, by decide, by decide⟩, _, rfl⟩
  intro e he; revert e; decide

theorem witness_BlockKept : BlockInv rendering ∧ busy rendering = true ∧ ∃ t, step rendering = .next t :=
  ⟨fun _ => by decide, by decide, _, rfl⟩

theorem witness_DerivedKept : DerivedInv State.reset ∧ IncInv State.reset ∧ ∃ t, step State.reset = .next t := by
  refine ⟨⟨by decide, by decide, ?_⟩, ?_, _, rfl⟩
  · decide +kernel
  · intro v hv; rw [List.eq_of_mem_replicate hv]; intro h; cases h

theorem witness_WhoWritesWhat : (∃ t, step running = .next t) ∧ running.run = true ∧ rendering.engState ≠ .idle ∧
    ¬SoftResetNext running ∧ running.engState = .idle := by
  refine ⟨⟨_, rfl⟩, rfl, by decide, ?_, rfl⟩
  rintro ⟨_, v, ⟨rest, h⟩, _⟩
  cases h

/-- Steps that change `RUN`, `FS` and `COEF`. -/
theorem witness_WhoWritesWhat_changes :
    ((after (step { State.reset with port := [.csr ⟨true, 0x010, 4, 1⟩] })).map (·.run)) ≠ some State.reset.run ∧
    ((after (step { State.reset with port := [.csr ⟨true, 0x070, 4, 0x44DC0000⟩] })).map (·.fs)) ≠ some State.reset.fs ∧
    ((after (step { State.reset with port := [.csr ⟨true, 0x070, 4, 0x44DC0000⟩] })).map (·.p.coef)) ≠
      some State.reset.p.coef := by decide +kernel

/-- A write of `CFG_FS` while stopped and idle changes the increments. -/
theorem witness_WhoWritesWhat_inc :
    let s := { State.reset with port := [.csr ⟨true, 0x070, 4, 0x44DC0000⟩] }
    s.engState = .idle ∧ ¬SoftResetNext s ∧ ((after (step s)).map (·.voices)) ≠ some s.voices := by
  refine ⟨rfl, ?_, by decide +kernel⟩
  rintro ⟨_, v, ⟨rest, h⟩, _⟩
  cases h

/-- CFG_ERR set by a drain of an illegal control change and by illegal values of `CFG_FS` and `WT_DATA`, BAD_EVT by a
drain of a reserved kind, CSR_ERR by a bad access. -/
theorem witness_IrqPendingPersists_errors :
    (let s := { draining with fifo := [onEvent 60, ⟨0x03060000, 2, 0, 0⟩] }
     s.irqPend.getLsbD 2 = false ∧ (after (step s)).map (·.irqPend.getLsbD 2) = some true) ∧
    (let s := { loaded with port := [.csr ⟨true, 0x070, 4, 0x3F7FFFFF⟩] }
     s.irqPend.getLsbD 2 = false ∧ (after (step s)).map (·.irqPend.getLsbD 2) = some true) ∧
    (let s := { loaded with port := [.csr ⟨true, 0x078, 4, 0x3F800001⟩] }
     s.irqPend.getLsbD 2 = false ∧ (after (step s)).map (·.irqPend.getLsbD 2) = some true) ∧
    (let s := { draining with fifo := [onEvent 60, ⟨0x04000000, 0, 0, 0⟩] }
     s.irqPend.getLsbD 3 = false ∧ (after (step s)).map (·.irqPend.getLsbD 3) = some true) ∧
    (let s := { running with port := [.csr ⟨false, 0x016, 4, 0⟩] }
     s.irqPend.getLsbD 4 = false ∧ (after (step s)).map (·.irqPend.getLsbD 4) = some true) := by decide

theorem witness_IrqPendingPersists :
    ((after (step { running with irqPend := 0x01, port := [.csr ⟨true, 0x060, 4, 1⟩] })).map (·.irqPend.getLsbD 0)) = some false ∧
    (rendering.irqPend.getLsbD 0 = false ∧ (after (step rendering)).map (·.irqPend.getLsbD 0) = some true) ∧
    (let s := { running with fifo := [onEvent 1, onEvent 2, onEvent 3, onEvent 4], port := [.csr ⟨true, 0x040, 4, 0⟩] }
     s.irqPend.getLsbD 1 = false ∧ (after (step s)).map (·.irqPend.getLsbD 1) = some true) := by decide

theorem witness_ResetState : Params.vectors.fifoDepth ≠ 0 := by decide

end Sys2Proof.Tests
end

section
/-! What one step does to the state the machine-wide invariants speak of: `CoreStep` says whose write it is
(60_exceptions.md R341), `SoundStep` keeps of it what concerns the voices, the parameters and the rate. -/

namespace Sys2Proof.Machine

variable {s t : State}

/-! ### The steps by what they change -/

/-- Two states that agree in everything but the host's own registers, the counters, the interrupts and host memory. -/
structure SameCore (s t : State) : Prop where
  par : t.par = s.par
  voices : t.voices = s.voices
  p : t.p = s.p
  fs : t.fs = s.fs
  trigSeq : t.trigSeq = s.trigSeq
  run : t.run = s.run
  engState : t.engState = s.engState
  fifo : t.fifo = s.fifo
  wt : t.wt = s.wt
  wtAddr : t.wtAddr = s.wtAddr

theorem SameCore.raiseError (c : ErrCode) (x : Byte) {u : State} (h : SameCore s u) :
    SameCore s (Machine.raiseError c x u) := by
  obtain ⟨h1, h2, h3, h4, h5, h6, h7, h8, h9, h10⟩ := h
  constructor <;> simp [*]

theorem SameCore.popPort (s : State) : SameCore s (Machine.popPort s) := ⟨rfl, rfl, rfl, rfl, rfl, rfl, rfl, rfl, rfl, rfl⟩

/-- Every step, by what it changes of that core: nothing, the write of a register, or a step of the engine. -/
inductive CoreStep (s : State) : State → Prop
  | kept {t : State} (h : SameCore s t) : CoreStep s t
  | setRun (hb : busy s = false) (v : Word) (hc : CsrWriteNext s 0x010 v) : CoreStep s { popPort s with run := v.getLsbD 0 }
  | reset (h : SoftResetNext s) : CoreStep s (softReset (popPort s))
  | push (e : EvtWord) : CoreStep s (pushEvent e (popPort s))
  | accept (b f c : Word) :
      CoreStep s { popPort s with blkBase := b, blkFrames := f, blkChannels := c, engState := .drain }
  | rate (hb : busy s = false) (hr : s.run = false) (v : Word) (hc : CsrWriteNext s 0x070 v) (hv : isSampleRate v = true) :
      CoreStep s { popPort s with fs := v, p := { s.p with coef := coefFn s.p.cutoffHz v },
                                  voices := s.voices.map fun x => { x with inc := incFor s.par.tableLen v x.note } }
  | tableAddr (v : Word) : CoreStep s (setTableAddr v (popPort s))
  | load (hb : busy s = false) (hr : s.run = false) (v : Word) (hv : isTableValue v = true) :
      CoreStep s { popPort s with wt := s.wt.set s.wtAddr.toNat { value := v, written := true },
                                  wtAddr := BitVec.ofNat 16 ((s.wtAddr.toNat + 1) % s.par.tableLen) }
  | drain (h : s.engState = .drain) : CoreStep s (drainBlock (popPort s))
  | render (h : s.engState = .render) (u : State) (hu : renderFrames s.blkFrames.toNat 0 (popPort s) = .ok u) :
      CoreStep s (finishBlock u)

/-- The access of an aligned four-byte write at the head of the port, in the form the statements give it. -/
theorem csrWriteNext_of {a : CsrAccess} {rest : List Turn} {off : BitVec 9} (hp : s.port = .csr a :: rest)
    (hw : a.write = true) (h4 : a.width = 4) (ho : a.off.toNat = off.toNat) : CsrWriteNext s off a.data := by
  obtain ⟨w, o, n, d⟩ := a
  obtain rfl : w = true := hw
  obtain rfl : n = 4 := h4
  obtain rfl : o = off := BitVec.eq_of_toNat_eq ho
  exact ⟨rest, hp⟩

/-- The write of a register changes the core as its offset says (48_host_interface.md R295 to R309). -/
theorem WriteEffect.coreStep {o : Nat} {v : Word}
    (hc : ∀ off : BitVec 9, o = off.toNat → CsrWriteNext s off v) (h : WriteEffect o v (popPort s) t) : CoreStep s t := by
  cases h with
  | refused c x _ => exact CoreStep.kept ((SameCore.popPort s).raiseError c x)
  | setRun ho hb _ => exact CoreStep.setRun (s := s) hb v (hc 0x010 ho)
  | reset ho hb hv => exact CoreStep.reset ⟨hb, v, hc 0x010 ho, hv⟩
  | push _ => exact CoreStep.push _
  | store => exact CoreStep.kept ⟨rfl, rfl, rfl, rfl, rfl, rfl, rfl, rfl, rfl, rfl⟩
  | accept _ _ _ => exact CoreStep.accept _ _ _
  | ack _ => exact CoreStep.kept ⟨rfl, rfl, rfl, rfl, rfl, rfl, rfl, rfl, rfl, rfl⟩
  | rate ho hb hr hv => exact CoreStep.rate (s := s) hb hr v (hc 0x070 ho) hv
  | badRate _ _ _ _ => exact CoreStep.kept ((SameCore.popPort s).raiseError _ _)
  | tableAddr _ _ _ => exact CoreStep.tableAddr v
  | load _ hb hr hv => exact CoreStep.load (s := s) hb hr v hv
  | badEntry _ _ _ _ => exact CoreStep.kept ((SameCore.popPort s).raiseError _ _)

/-- Every step is one of them. -/
theorem step_core (h : step s = .next t) : CoreStep s t := by
  cases step_effect h with
  | access a rest hp ha =>
    cases ha with
    | read => exact CoreStep.kept ⟨rfl, rfl, rfl, rfl, rfl, rfl, rfl, rfl, rfl, rfl⟩
    | refused c x r _ =>
      exact CoreStep.kept (SameCore.raiseError c x ⟨rfl, rfl, rfl, rfl, rfl, rfl, rfl, rfl, rfl, rfl⟩)
    | write f hw h4 hf he =>
      exact (rwWrite_effect hf he).coreStep fun off ho => csrWriteNext_of hp hw h4 ho
  | memRead => exact CoreStep.kept ⟨rfl, rfl, rfl, rfl, rfl, rfl, rfl, rfl, rfl, rfl⟩
  | memWrite => exact CoreStep.kept ⟨rfl, rfl, rfl, rfl, rfl, rfl, rfl, rfl, rfl, rfl⟩
  | idle => exact CoreStep.kept (SameCore.popPort s)
  | drain hd => exact CoreStep.drain hd
  | render hr he =>
    rcases renderStep_cases he with ⟨_, _, rfl⟩ | ⟨_, _, u, hu, rfl⟩
    · exact CoreStep.kept (SameCore.popPort s)
    · exact CoreStep.render hr u hu

/-! ### The frames of the engine's steps -/

/-- `DrainStep` leaves what R271 does not list; the FIFO is empty after it. -/
theorem drainBlock_keeps (s : State) : (drainBlock s).par = s.par ∧ (drainBlock s).fs = s.fs ∧ (drainBlock s).run = s.run ∧
    (drainBlock s).fifo = [] ∧ (drainBlock s).wt = s.wt ∧ (drainBlock s).wtAddr = s.wtAddr := by
  rw [(drainBlock_frame s).1]; exact ⟨rfl, rfl, rfl, rfl, rfl, rfl⟩

/-- The frames of a block leave what 47_render_engine.md R272 does not list. -/
theorem renderFrames_keeps {n f : Nat} {u : State} (h : renderFrames n f s = .ok u) : u.par = s.par ∧ u.p = s.p ∧
    u.fs = s.fs ∧ u.trigSeq = s.trigSeq ∧ u.run = s.run ∧ u.fifo = s.fifo ∧ u.wt = s.wt ∧ u.wtAddr = s.wtAddr := by
  obtain ⟨vs, m, d, e⟩ := renderFrames_cases h
  rw [e]; exact ⟨rfl, rfl, rfl, rfl, rfl, rfl, rfl, rfl⟩

/-! ### The steps that reach the voices, the parameters or the rate -/

/-- Every step, by what it changes of the voices, the parameters, the rate and the trigger counter. -/
inductive SoundStep (s : State) : State → Prop
  | kept {t : State} (par : t.par = s.par) (voices : t.voices = s.voices) (p : t.p = s.p) (fs : t.fs = s.fs)
      (trigSeq : t.trigSeq = s.trigSeq) : SoundStep s t
  | reset : SoundStep s (softReset (popPort s))
  | rate (v : Word) (hv : isSampleRate v = true) : SoundStep s
      { popPort s with fs := v, p := { s.p with coef := coefFn s.p.cutoffHz v },
                       voices := s.voices.map fun x => { x with inc := incFor s.par.tableLen v x.note } }
  | drain : SoundStep s (drainBlock (popPort s))
  | render (u : State) (hu : renderFrames s.blkFrames.toNat 0 (popPort s) = .ok u) : SoundStep s (finishBlock u)

theorem step_sound (h : step s = .next t) : SoundStep s t := by
  cases step_core h with
  | kept h => exact SoundStep.kept h.par h.voices h.p h.fs h.trigSeq
  | setRun => exact SoundStep.kept rfl rfl rfl rfl rfl
  | reset => exact SoundStep.reset
  | push e =>
    exact SoundStep.kept (pushEvent_par _ e) (pushEvent_voices _ e) (pushEvent_p _ e) (pushEvent_fs _ e) (pushEvent_trigSeq _ e)
  | accept => exact SoundStep.kept rfl rfl rfl rfl rfl
  | rate _ _ v _ hv => exact SoundStep.rate v hv
  | tableAddr => exact SoundStep.kept rfl rfl rfl rfl rfl
  | load => exact SoundStep.kept rfl rfl rfl rfl rfl
  | drain => exact SoundStep.drain
  | render _ u hu => exact SoundStep.render u hu

/-! ### Who writes what -/

/-- Clearing the increments after rewriting them is clearing them. -/
theorem clearInc_map_setInc (vs : List Voice) (f : Voice → Word) :
    ((vs.map fun x => { x with inc := f x }).map fun v => { v with inc := 0 }) = vs.map fun v => { v with inc := 0 } := by
  rw [List.map_map]; rfl

theorem busy_eq_false : busy s = false ↔ s.engState = .idle := by
  unfold busy; rw [decide_eq_false_iff_not, not_not]

/-- No step writes one of the parameters (10_state.md R75). -/
theorem step_par (h : step s = .next t) : t.par = s.par := by
  cases step_sound h with
  | kept par _ _ _ _ => exact par
  | reset => rfl
  | rate => rfl
  | drain => exact (drainBlock_keeps (popPort s)).1
  | render u hu => exact (renderFrames_keeps hu).1

/-- The table is written only while stopped and idle (20_memory.md R96). -/
theorem step_wt (h : step s = .next t) : t.wt = s.wt ∨ s.run = false ∧ s.engState = .idle := by
  cases step_core h with
  | kept h => exact .inl h.wt
  | push e => exact .inl (pushEvent_wt (popPort s) e)
  | load hb hr => exact .inr ⟨hr, busy_eq_false.1 hb⟩
  | drain =>
    obtain ⟨_, _, _, _, hwt, _⟩ := drainBlock_keeps (popPort s)
    exact .inl hwt
  | render _ u hu =>
    obtain ⟨_, _, _, _, _, _, hwt, _⟩ := renderFrames_keeps hu
    exact .inl hwt
  | setRun | reset | accept | rate | tableAddr => exact .inl rfl

/-- `RUN` is written only by `CTRL` while idle (60_exceptions.md R340). -/
theorem step_run (h : step s = .next t) : t.run = s.run ∨ s.engState = .idle ∧ ∃ v, CsrWriteNext s 0x010 v := by
  cases step_core h with
  | kept h => exact .inl h.run
  | push e => exact .inl (pushEvent_run (popPort s) e)
  | setRun hb v hc => exact .inr ⟨busy_eq_false.1 hb, v, hc⟩
  | reset hs =>
    obtain ⟨hb, v, hc, _⟩ := hs
    exact .inr ⟨busy_eq_false.1 hb, v, hc⟩
  | drain =>
    obtain ⟨_, _, hrun, _⟩ := drainBlock_keeps (popPort s)
    exact .inl hrun
  | render _ u hu =>
    obtain ⟨_, _, _, _, hrun, _⟩ := renderFrames_keeps hu
    exact .inl hrun
  | accept | rate | tableAddr | load => exact .inl rfl

/-- A step that is no soft reset leaves the parameters, the voices and the rate, is a step of a block, or is a legal write
of `CFG_FS` while stopped, which writes the rate, `COEF` and the increments (10_state.md R24, R28; log 30). -/
theorem step_sound_writer (h : step s = .next t) (hs : ¬SoftResetNext s) :
    (t.p = s.p ∧ t.voices = s.voices ∧ t.fs = s.fs) ∨
      (s.engState = .drain ∧ t.fs = s.fs) ∨ (s.engState = .render ∧ t.p = s.p ∧ t.fs = s.fs) ∨
      (s.engState = .idle ∧ s.run = false ∧ CsrWriteNext s 0x070 t.fs ∧ { t.p with coef := s.p.coef } = s.p ∧
        ∃ f : Voice → Word, t.voices = s.voices.map fun v => { v with inc := f v }) := by
  cases step_core h with
  | kept h => exact .inl ⟨h.p, h.voices, h.fs⟩
  | reset hr => exact absurd hr hs
  | push e => exact .inl ⟨pushEvent_p (popPort s) e, pushEvent_voices (popPort s) e, pushEvent_fs (popPort s) e⟩
  | rate hb hr v hc => exact .inr (.inr (.inr ⟨busy_eq_false.1 hb, hr, hc, rfl, _, rfl⟩))
  | drain hd => exact .inr (.inl ⟨hd, (drainBlock_keeps (popPort s)).2.1⟩)
  | render hr u hu =>
    obtain ⟨_, hp, hfs, _⟩ := renderFrames_keeps hu
    exact .inr (.inr (.inl ⟨hr, hp, hfs⟩))
  | setRun | accept | tableAddr | load => exact .inl ⟨rfl, rfl, rfl⟩

/-- Settles O58, from the writers of the table, of `RUN` and of the voices, each said once above. -/
theorem whoWritesWhat : Obligations.WhoWritesWhat := by
  unfold Obligations.WhoWritesWhat
  intro s t h
  refine ⟨step_par h, fun hbusy => ?_, fun hne => (step_run h).resolve_left hne, fun hs => ?_⟩
  · rcases step_wt h with hwt | ⟨hr, hi⟩
    · exact hwt
    · simp [hr, hi] at hbusy
  · rcases step_sound_writer h hs with ⟨hp, hv, hfs⟩ | ⟨hd, hfs⟩ | ⟨hr, hp, hfs⟩ | ⟨hi, hr, hc, hp, f, hv⟩
    · simp [hp, hv, hfs]
    · simp [hd, hfs]
    · simp [hr, hp, hfs]
    · refine ⟨fun _ => ⟨hp, fun _ => ⟨_, hc⟩⟩, fun _ => ?_, fun _ _ => ⟨hr, _, hc⟩, fun _ => ⟨hr, hi, hc⟩⟩
      rw [hv]; exact clearInc_map_setInc _ _

end Sys2Proof.Machine
end

section
/-! The FIFO and the table stay in their bounds (10_state.md R29, R33, R34, R65). -/

namespace Sys2Proof.Machine

variable {s t : State}

theorem tableLen_pos (par : Params) : 0 < par.tableLen := Nat.two_pow_pos _

/-- An index taken modulo the table length and stored in `WT_ADDR` is below the length (10_state.md R65). -/
theorem wrapped_addr_lt (par : Params) (n : Nat) :
    (BitVec.ofNat 16 (n % par.tableLen)).toNat < par.tableLen := by
  have hlt : n % par.tableLen < par.tableLen := Nat.mod_lt _ (tableLen_pos par)
  rw [BitVec.toNat_ofNat]
  exact lt_of_le_of_lt (Nat.mod_le _ _) hlt

/-- A push keeps the FIFO within its depth: a full one drops its oldest event (46_event_intake.md R231). -/
theorem pushEvent_fifo_le (e : EvtWord) (h : s.fifo.length ≤ s.par.fifoDepth) (hd : 1 ≤ s.par.fifoDepth) :
    (pushEvent e s).fifo.length ≤ s.par.fifoDepth := by
  by_cases hf : s.fifo.length = s.par.fifoDepth
  · rw [pushEvent_full s e hf]; simp; omega
  · rw [pushEvent_room s e hf]; simp; omega

/-- The FIFO of a legal configuration holds at least one event (00_scope.md R6). -/
theorem fifoDepth_pos {par : Params} (h : par.legal = true) : 1 ≤ par.fifoDepth := by
  simp [Params.legal] at h; tauto

/-- A legal load keeps every written entry in [-1, 1] (48_host_interface.md R309). -/
theorem TableInv.load {v : Word} (h : TableInv s) (hv : isTableValue v = true) (i : Nat) :
    ∀ e ∈ s.wt.set i { value := v, written := true }, e.written = true → isTableValue e.value = true := by
  intro e he hw
  rcases List.mem_or_eq_of_mem_set he with hm | rfl
  · exact h e hm hw
  · exact hv

theorem ShapeInv.step (hs : ShapeInv s) (h : step s = .next t) : ShapeInv t := by
  obtain ⟨hl, hf, hw, ha⟩ := hs
  cases step_core h with
  | kept h => unfold ShapeInv; rw [h.par, h.fifo, h.wt, h.wtAddr]; exact ⟨hl, hf, hw, ha⟩
  | reset => exact ⟨hl, Nat.zero_le _, hw, tableLen_pos _⟩
  | push e =>
    have hle := pushEvent_fifo_le (s := popPort s) e hf (fifoDepth_pos hl)
    unfold ShapeInv
    rw [pushEvent_par, pushEvent_wt, pushEvent_wtAddr]
    exact ⟨hl, hle, hw, ha⟩
  | tableAddr v => exact ⟨hl, hf, hw, wrapped_addr_lt _ v.toNat⟩
  | load => exact ⟨hl, hf, (List.length_set ..).trans hw, wrapped_addr_lt _ _⟩
  | drain =>
    obtain ⟨hpar, _, _, hfifo, hwt, haddr⟩ := drainBlock_keeps (popPort s)
    unfold ShapeInv; rw [hpar, hfifo, hwt, haddr]
    exact ⟨hl, Nat.zero_le _, hw, ha⟩
  | render _ u hu =>
    obtain ⟨hpar, _, _, _, _, hfifo, hwt, haddr⟩ := renderFrames_keeps hu
    unfold ShapeInv; rw [finishBlock_par, finishBlock_fifo, finishBlock_wt, finishBlock_wtAddr, hpar, hfifo, hwt, haddr]
    exact ⟨hl, hf, hw, ha⟩
  | setRun | accept | rate => exact ⟨hl, hf, hw, ha⟩

theorem TableInv.step (hs : TableInv s) (h : step s = .next t) : TableInv t := by
  cases step_core h with
  | kept h => unfold TableInv; rw [h.wt]; exact hs
  | push e => unfold TableInv; rw [pushEvent_wt]; exact hs
  | load _ _ v hv => exact hs.load hv _
  | drain =>
    obtain ⟨_, _, _, _, hwt, _⟩ := drainBlock_keeps (popPort s)
    unfold TableInv; rw [hwt]; exact hs
  | render _ u hu =>
    obtain ⟨_, _, _, _, _, _, hwt, _⟩ := renderFrames_keeps hu
    unfold TableInv; rw [finishBlock_wt, hwt]; exact hs
  | setRun | reset | accept | rate | tableAddr => exact hs

/-- Settles O55: the step keeps the sizes and the entries, each by the writers of the FIFO and of the table. -/
theorem storageKept : Obligations.StorageKept := fun _ _ hs ht h => ⟨hs.step h, ht.step h⟩

end Sys2Proof.Machine
end

section
/-! What an event, a drain and a block do to every voice and to the parameters, as induction principles: an invariant over
the voices is checked against the assignment, the release, the reclaim and the tick alone. -/

namespace Sys2Proof.Machine

variable {s t : State}

/-! ### Voices -/

/-- What an event may make of the voices keeps a predicate: the assignment of a note at the configured table length and the
current rate, the history cleared, and the release (45_voice_manager.md R200, R207). -/
structure EventKeeps (par : Params) (fs : Word) (P : Voice → Prop) : Prop where
  assign : ∀ p n vel seq v, isUnit32 vel = true → P v → P (assignVoice par.tableLen fs p n vel seq v)
  clear : ∀ v, P v → P { v with y1 := zero32 }
  release : ∀ r v, P v → P (releaseVoice r v)

variable {P : Voice → Prop}

theorem EventKeeps.vmNoteOn (hP : EventKeeps s.par s.fs P) (h : ∀ v ∈ s.voices, P v) (n : BitVec 7) {vel : Word}
    (hvel : isUnit32 vel = true) : ∀ v ∈ (vmNoteOn n vel s).voices, P v := by
  obtain ⟨i, g, hv, hg⟩ := vmNoteOn_voices n vel s
  rw [hv]
  refine forall_modify h fun v hPv => hP.assign _ _ _ _ _ hvel ?_
  rcases hg with rfl | rfl | rfl
  · exact hPv
  · exact hP.clear v hPv
  · exact hP.release _ v hPv

theorem EventKeeps.vmNoteOff (hP : EventKeeps s.par s.fs P) (h : ∀ v ∈ s.voices, P v) (n : BitVec 7) :
    ∀ v ∈ (vmNoteOff n s).voices, P v := by
  intro v hv
  simp only [Machine.vmNoteOff, List.mem_map] at hv
  obtain ⟨u, hu, rfl⟩ := hv
  split
  · exact hP.release _ u (h u hu)
  · exact h u hu

theorem EventKeeps.applyEvent (hP : EventKeeps s.par s.fs P) (h : ∀ v ∈ s.voices, P v) (e : EvtWord) :
    ∀ v ∈ (applyEvent e s).voices, P v := by
  unfold Machine.applyEvent
  split
  · rename_i n vel hd; exact hP.vmNoteOn h n (decodeEvent_noteOn hd)
  · exact hP.vmNoteOff h _
  · rw [applyCC_voices]; exact h
  · rw [raiseError_voices]; exact h

theorem applyEvent_fs (e : EvtWord) (s : State) : (applyEvent e s).fs = s.fs := by rw [(applyEvent_frame e s).1]

/-- What an event keeps of each voice, a drain's events keep of all: none changes the configuration or the rate. -/
theorem EventKeeps.applyEvents {par : Params} {fs : Word} (hP : EventKeeps par fs P) (es : List EvtWord)
    (hpar : s.par = par) (hfs : s.fs = fs) (h : ∀ v ∈ s.voices, P v) : ∀ v ∈ (applyEvents es s).voices, P v := by
  have key : (Machine.applyEvents es s).par = par ∧ (Machine.applyEvents es s).fs = fs ∧
      ∀ v ∈ (Machine.applyEvents es s).voices, P v := by
    refine applyEvents_ind (P := fun u => u.par = par ∧ u.fs = fs ∧ ∀ v ∈ u.voices, P v) ?_ es s ⟨hpar, hfs, h⟩
    rintro e u ⟨rfl, rfl, hu⟩
    exact ⟨applyEvent_par e u, applyEvent_fs e u, hP.applyEvent hu e⟩
  exact key.2.2

/-- What every event and the reclaim keep of each voice, a drain keeps of all (47_render_engine.md R271). -/
theorem EventKeeps.drainBlock (hP : EventKeeps s.par s.fs P) (hr : ∀ v, P v → P (reclaimVoice v))
    (h : ∀ v ∈ s.voices, P v) : ∀ v ∈ (drainBlock s).voices, P v := by
  intro v hv
  simp only [Machine.drainBlock, reclaim, List.mem_map] at hv
  obtain ⟨u, hu, rfl⟩ := hv
  exact hr u (hP.applyEvents s.fifo (s := { s with fifo := [] }) rfl rfl h u hu)

/-- An event keeps the number of voices (45_voice_manager.md R209). -/
theorem applyEvent_length (e : EvtWord) (s : State) : (applyEvent e s).voices.length = s.voices.length := by
  unfold applyEvent
  split
  · rename_i n vel _
    obtain ⟨i, g, hv, _⟩ := vmNoteOn_voices n vel s
    rw [hv, List.length_modify]
  · exact List.length_map _
  · rw [applyCC_voices]
  · rw [raiseError_voices]

theorem drainBlock_length (s : State) : (drainBlock s).voices.length = s.voices.length :=
  (List.length_map _).trans
    (applyEvents_ind (P := fun u => u.voices.length = s.voices.length) (fun e u hu => (applyEvent_length e u).trans hu)
      s.fifo { s with fifo := [] } rfl)

/-- A tick leaves who sounds what: the fields the voice manager writes (44_voice.md R190). -/
theorem Ticked.manager_fields {len : Nat} {wt : List WtEntry} {p : ParamRegs} {v v' : Voice} (h : Ticked len wt p v v') :
    v'.active = v.active ∧ v'.note = v.note ∧ v'.inc = v.inc ∧ v'.seq = v.seq := by
  rcases h with ⟨_, rfl⟩ | ⟨_, y, hy⟩
  · exact ⟨rfl, rfl, rfl, rfl⟩
  · rw [voiceSample_ok hy, envTick_eq]; exact ⟨rfl, rfl, rfl, rfl⟩

/-! ### Parameters -/

/-- The writes of a parameter a control change can make, with the registers derived from it (46_event_intake.md R241 to
R250). -/
inductive ParamWrite (fs : Word) (p : ParamRegs) : ParamRegs → Prop
  | attack (v : Word) : ParamWrite fs p { p with attackSamples := v, attackInc := attackIncOf v }
  | decay (v : Word) : ParamWrite fs p { p with decaySamples := v, decayDec := decayDecOf v p.sustainLevel }
  | sustain (v : Word) (hv : isUnit32 v = true) : ParamWrite fs p
      { p with sustainLevel := storedSustain v, decayDec := decayDecOf p.decaySamples (storedSustain v) }
  | cutoff (v : Word) : ParamWrite fs p { p with cutoffHz := v, coef := coefFn v fs }
  | underived (r h : Word) (fe sc pr rm : Bool) : ParamWrite fs p
      { p with releaseSamples := r, headroom := h, filterEnable := fe, softclipEnable := sc, phaseReset := pr, retrigMode := rm }

theorem setParam_p {id : Byte} {l : Bool} {f : ParamRegs → ParamRegs} (hf : l = true → ParamWrite s.fs s.p (f s.p)) :
    (setParam id l f s).p = s.p ∨ ParamWrite s.fs s.p (setParam id l f s).p := by
  rcases setParam_cases id l f s with ⟨hl, e⟩ | ⟨_, e⟩ <;> rw [e]
  · exact .inr (hf hl)
  · exact .inl (raiseError_p _ _ _)

/-- A parameter write that derives no register. -/
theorem ParamWrite.underivedOf {fs : Word} {p q : ParamRegs}
    (h : q = { p with releaseSamples := q.releaseSamples, headroom := q.headroom, filterEnable := q.filterEnable,
                      softclipEnable := q.softclipEnable, phaseReset := q.phaseReset, retrigMode := q.retrigMode }) :
    ParamWrite fs p q := by rw [h]; exact ParamWrite.underived _ _ _ _ _ _

theorem applyCC_p (id : Byte) (v : Word) (s : State) :
    (applyCC id v s).p = s.p ∨ ParamWrite s.fs s.p (applyCC id v s).p := by
  unfold applyCC
  split; · exact setParam_p fun _ => ParamWrite.attack v
  split; · exact setParam_p fun _ => ParamWrite.decay v
  split; · exact setParam_p fun hv => ParamWrite.sustain v hv
  split; · exact setParam_p fun _ => ParamWrite.underivedOf rfl
  split; · exact setParam_p fun _ => ParamWrite.cutoff v
  split; · exact setParam_p fun _ => ParamWrite.underivedOf rfl
  split; · exact setParam_p fun _ => ParamWrite.underivedOf rfl
  split; · exact setParam_p fun _ => ParamWrite.underivedOf rfl
  split; · exact setParam_p fun _ => ParamWrite.underivedOf rfl
  split; · exact setParam_p fun _ => ParamWrite.underivedOf rfl
  exact .inl (raiseError_p _ _ _)

theorem applyEvent_p (e : EvtWord) (s : State) :
    (applyEvent e s).p = s.p ∨ ParamWrite s.fs s.p (applyEvent e s).p := by
  unfold applyEvent
  split
  · rw [vmNoteOn_eq]; exact .inl rfl
  · exact .inl rfl
  · exact applyCC_p _ _ s
  · exact .inl (raiseError_p _ _ _)

/-- What every parameter write keeps, a drain keeps (10_state.md R28). -/
theorem drainBlock_p {Q : ParamRegs → Prop} (hQ : ∀ p q, ParamWrite s.fs p q → Q p → Q q) (h : Q s.p) :
    Q (drainBlock s).p := by
  have key : (applyEvents s.fifo { s with fifo := [] }).fs = s.fs ∧ Q (applyEvents s.fifo { s with fifo := [] }).p := by
    refine applyEvents_ind (P := fun u => u.fs = s.fs ∧ Q u.p) ?_ s.fifo { s with fifo := [] } ⟨rfl, h⟩
    rintro e u ⟨hfs, hu⟩
    refine ⟨(applyEvent_fs e u).trans hfs, ?_⟩
    rcases applyEvent_p e u with hp | hp
    · rw [hp]; exact hu
    · exact hQ _ _ (hfs ▸ hp) hu
  exact key.2

end Sys2Proof.Machine
end

section
/-! The pool and its trigger stamps (10_state.md R22; 42_envelope.md R168; 45_voice_manager.md R209). -/

namespace Sys2Proof.Machine

variable {s t : State}

/-- The release of any voice of the pool: an inactive one is Idle, and nothing happens (42_envelope.md R166). -/
theorem VoiceOk.releaseAny {v : Voice} (h : VoiceOk v) (r : Word) : VoiceOk (releaseVoice r v) := by
  cases ha : v.active
  · have hi := h.1 ha
    unfold releaseVoice; rw [hi]; exact h
  · exact h.release ha r

theorem voiceOk_eventKeeps (par : Params) (fs : Word) : EventKeeps par fs VoiceOk where
  assign _ _ _ _ _ _ _ := VoiceOk.assign _ _ _ _ _ _ _
  clear _ h := h
  release r _ h := h.releaseAny r

theorem PoolInv.step (hs : PoolInv s) (h : step s = .next t) : PoolInv t := by
  obtain ⟨hlen, hok⟩ := hs
  cases step_sound h with
  | kept par voices _ _ _ => unfold PoolInv; rw [par, voices]; exact ⟨hlen, hok⟩
  | reset => exact ⟨List.length_replicate, fun v hv => List.eq_of_mem_replicate hv ▸ VoiceOk.reset⟩
  | rate =>
    refine ⟨(List.length_map _).trans hlen, ?_⟩
    simp only [List.forall_mem_map]
    exact fun v hv => (hok v hv).withInc _
  | drain =>
    have hpar := (drainBlock_keeps (popPort s)).1
    refine ⟨?_, (voiceOk_eventKeeps s.par s.fs).drainBlock (s := popPort s) (fun _ hv => hv.reclaim) hok⟩
    rw [drainBlock_length, hpar]; exact hlen
  | render u hu =>
    have hpar := (renderFrames_keeps hu).1
    obtain ⟨hok', hlen'⟩ := renderFrames_voices (P := fun _ _ _ v => VoiceOk v) (fun _ _ _ _ _ ht hv => hv.ticked ht) hu hok
    refine ⟨?_, hok'⟩
    rw [finishBlock_voices, finishBlock_par, hlen', hpar]; exact hlen

theorem SeqInv.step (hs : SeqInv s) (hb : s.trigSeq.toNat + s.fifo.length < 2 ^ 64) (h : step s = .next t) : SeqInv t := by
  cases step_sound h with
  | kept _ voices _ _ trigSeq => unfold SeqInv; rw [voices, trigSeq]; exact hs
  | reset =>
    intro v hv ha
    rw [List.eq_of_mem_replicate hv] at ha; cases ha
  | rate =>
    unfold SeqInv
    simp only [List.forall_mem_map]
    exact hs
  | drain => exact SeqInv.drain (s := popPort s) hb hs
  | render u hu =>
    obtain ⟨_, _, _, hseq, _⟩ := renderFrames_keeps hu
    unfold SeqInv; rw [finishBlock_voices, finishBlock_trigSeq, hseq]
    refine (renderFrames_voices
      (P := fun _ _ _ v => v.active = true → 1 ≤ v.seq.toNat ∧ v.seq.toNat ≤ s.trigSeq.toNat) ?_ hu hs).1
    intro _ _ _ v v' ht hv ha
    obtain ⟨hact, _, _, hvs⟩ := ht.manager_fields
    rw [hvs]; exact hv (hact ▸ ha)

/-- Settles O52: the pool by its operations, the stamps by counting the events left before `TRIG_SEQ` wraps. -/
theorem poolKept : Obligations.PoolKept := fun _ _ h => ⟨fun hs => hs.step h, fun hs hb => hs.step hb h⟩

end Sys2Proof.Machine
end

section
/-! The derived registers and the increments are those of their defining functions (10_state.md R27; 41_oscillator.md R144). -/

namespace Sys2Proof.Machine

variable {s t : State}

/-- The derived registers of a parameter file at a rate (10_state.md R27). -/
def DerivedOk (fs : Word) (p : ParamRegs) : Prop :=
  p.attackInc = attackIncOf p.attackSamples ∧ p.decayDec = decayDecOf p.decaySamples p.sustainLevel ∧
    p.coef = coefFn p.cutoffHz fs

theorem derivedInv_iff (s : State) : DerivedInv s ↔ DerivedOk s.fs s.p := Iff.rfl

theorem DerivedOk.write {fs : Word} {p q : ParamRegs} (h : ParamWrite fs p q) (hp : DerivedOk fs p) : DerivedOk fs q := by
  obtain ⟨ha, hd, hc⟩ := hp
  cases h with
  | attack => exact ⟨rfl, hd, hc⟩
  | decay => exact ⟨ha, rfl, hc⟩
  | sustain => exact ⟨ha, rfl, hc⟩
  | cutoff => exact ⟨ha, hd, rfl⟩
  | underived => exact ⟨ha, hd, hc⟩

/-- The reset values of the derived registers are those of the reset parameters and rate (10_state.md R27, R31). -/
theorem DerivedOk.reset (n : Nat) : DerivedOk 0x473B8000 (ParamRegs.reset n) := by
  have hcoef : (0x3DFB471D : Word) = coefFn 0x447A0000 0x473B8000 := by decide +kernel
  exact ⟨rfl, rfl, hcoef⟩

theorem DerivedInv.step (hs : DerivedInv s) (h : step s = .next t) : DerivedInv t := by
  cases step_sound h with
  | kept _ _ p fs _ => rw [derivedInv_iff, p, fs]; exact hs
  | reset => exact DerivedOk.reset s.par.nVoices
  | rate v _ =>
    obtain ⟨ha, hd, _⟩ := hs
    exact ⟨ha, hd, rfl⟩
  | drain =>
    obtain ⟨_, hfs, _⟩ := drainBlock_keeps (popPort s)
    rw [derivedInv_iff, hfs]
    exact drainBlock_p (s := popPort s) (fun _ _ hw hp => hp.write hw) hs
  | render u hu =>
    obtain ⟨_, hp, hfs, _⟩ := renderFrames_keeps hu
    rw [derivedInv_iff, finishBlock_p, finishBlock_fs, hp, hfs]; exact hs

/-- A sounding voice advances at the increment of its note (41_oscillator.md R144). -/
def IncOk (par : Params) (fs : Word) (v : Voice) : Prop := v.active = true → v.inc = incFor par.tableLen fs v.note

theorem incInv_iff (s : State) : IncInv s ↔ ∀ v ∈ s.voices, IncOk s.par s.fs v := Iff.rfl

theorem incOk_eventKeeps (par : Params) (fs : Word) : EventKeeps par fs (IncOk par fs) where
  assign _ _ _ _ _ _ _ := fun _ => rfl
  clear _ h := h
  release r v h := by rw [releaseVoice_eq]; exact h

theorem IncOk.reclaim {par : Params} {fs : Word} {v : Voice} (h : IncOk par fs v) : IncOk par fs (reclaimVoice v) := by
  intro ha
  have hv := h (reclaimVoice_active ha)
  rw [reclaimVoice_eq]; exact hv

theorem IncInv.step (hs : IncInv s) (h : step s = .next t) : IncInv t := by
  cases step_sound h with
  | kept par voices _ fs _ => rw [incInv_iff, par, voices, fs]; exact hs
  | reset =>
    intro v hv ha
    rw [List.eq_of_mem_replicate hv] at ha; cases ha
  | rate =>
    rw [incInv_iff]
    simp only [List.forall_mem_map]
    exact fun _ _ _ => rfl
  | drain =>
    obtain ⟨hpar, hfs, _⟩ := drainBlock_keeps (popPort s)
    rw [incInv_iff, hpar, hfs]
    exact (incOk_eventKeeps s.par s.fs).drainBlock (s := popPort s) (fun _ hv => hv.reclaim) hs
  | render u hu =>
    obtain ⟨hpar, _, hfs, _⟩ := renderFrames_keeps hu
    rw [incInv_iff, finishBlock_voices, finishBlock_par, finishBlock_fs, hpar, hfs]
    refine (renderFrames_voices (P := fun _ _ _ v => IncOk s.par s.fs v) ?_ hu hs).1
    intro _ _ _ v v' ht hv ha
    obtain ⟨hact, hnote, hinc, _⟩ := ht.manager_fields
    rw [hinc, hnote]; exact hv (hact ▸ ha)

/-- Settles O53: each derived register follows every write of what it is derived from. -/
theorem derivedKept : Obligations.DerivedKept := fun _ _ hd hi h => ⟨hd.step h, hi.step h⟩

end Sys2Proof.Machine
end

section
/-! Levels, histories and phases stay in their ranges (10_state.md R20, R22, R29; 42_envelope.md R172; 43_filter.md R185;
41_oscillator.md R141, R142). -/

namespace Sys2Proof.Machine

variable {s t : State}

/-! ### Levels -/

/-- A stored sustain level is a level: -0.0 is stored as +0.0 (46_event_intake.md R243). -/
theorem storedSustain_level {v : Word} (hv : isUnit32 v = true) : isLevel (storedSustain v) = true := by
  unfold storedSustain
  split
  · exact level_zero
  · rename_i hne; exact (isLevel_iff v).2 ⟨hv, hne⟩

theorem ParamLevelOk.write {fs : Word} {p q : ParamRegs} (h : ParamWrite fs p q) (hp : ParamLevelOk p) : ParamLevelOk q := by
  obtain ⟨hs, ha, hd⟩ := hp
  cases h with
  | attack => exact ⟨hs, rfl, hd⟩
  | decay => exact ⟨hs, ha, rfl⟩
  | sustain v hv => exact ⟨storedSustain_level hv, ha, rfl⟩
  | cutoff => exact ⟨hs, ha, hd⟩
  | underived => exact ⟨hs, ha, hd⟩

theorem ParamLevelOk.reset (n : Nat) : ParamLevelOk (ParamRegs.reset n) := ⟨level_one, rfl, rfl⟩

theorem LevelOk.reset : LevelOk Voice.reset := ⟨level_zero, isUnit32_zero, isNonneg32_of_unit isUnit32_zero⟩

theorem levelOk_eventKeeps (par : Params) (fs : Word) : EventKeeps par fs LevelOk where
  assign _ _ _ _ _ hvel h := ⟨h.1, hvel, isNonneg32_of_unit isUnit32_zero⟩
  clear _ h := h
  release _ _ h := h.release

theorem LevelOk.reclaim {v : Voice} (h : LevelOk v) : LevelOk (reclaimVoice v) := by rw [reclaimVoice_eq]; exact h

theorem LevelOk.ticked {len : Nat} {wt : List WtEntry} {p : ParamRegs} {v v' : Voice} (ht : Ticked len wt p v v')
    (hp : ParamLevelOk p) (h : LevelOk v) : LevelOk v' := by
  rcases ht with ⟨_, rfl⟩ | ⟨_, y, hy⟩
  · exact h
  · rw [voiceSample_ok hy]; exact h.envTick hp

theorem LevelInv.step (hs : LevelInv s) (h : step s = .next t) : LevelInv t := by
  obtain ⟨hp, hv⟩ := (levelInv_iff s).1 hs
  rw [levelInv_iff]
  cases step_sound h with
  | kept _ voices p _ _ => rw [p, voices]; exact ⟨hp, hv⟩
  | reset => exact ⟨ParamLevelOk.reset _, fun v hm => List.eq_of_mem_replicate hm ▸ LevelOk.reset⟩
  | rate =>
    refine ⟨hp, ?_⟩
    simp only [List.forall_mem_map]
    exact fun v hm => (hv v hm).withInc _
  | drain =>
    exact ⟨drainBlock_p (s := popPort s) (fun _ _ hw hq => hq.write hw) hp,
      (levelOk_eventKeeps s.par s.fs).drainBlock (s := popPort s) (fun _ h => h.reclaim) hv⟩
  | render u hu =>
    obtain ⟨_, hpu, _⟩ := renderFrames_keeps hu
    rw [finishBlock_p, finishBlock_voices, hpu]
    obtain ⟨hv', _⟩ := renderFrames_voices (P := fun _ _ p v => ParamLevelOk p ∧ LevelOk v)
      (fun _ _ _ _ _ ht h => ⟨h.1, h.2.ticked ht h.1⟩) hu fun v hm => ⟨hp, hv v hm⟩
    exact ⟨hp, fun v hm => (hv' v hm).2⟩

/-! ### Filter histories -/

/-- What a frame needs of the table and the parameters to keep a voice's history in [-1, 1], and what it keeps of the voice. -/
def HistoryOk (wt : List WtEntry) (p : ParamRegs) (v : Voice) : Prop :=
  (∀ e ∈ wt, e.written = true → isTableValue e.value = true) ∧ ParamLevelOk p ∧ isUnit32 p.coef = true ∧ LevelOk v ∧
    isTableValue v.y1 = true

theorem HistoryOk.ticked {len : Nat} {wt : List WtEntry} {p : ParamRegs} {v v' : Voice} (ht : Ticked len wt p v v')
    (h : HistoryOk wt p v) : HistoryOk wt p v' := by
  obtain ⟨hw, hp, hc, hl, hy⟩ := h
  refine ⟨hw, hp, hc, hl.ticked ht hp, ?_⟩
  rcases ht with ⟨_, rfl⟩ | ⟨_, y, hs⟩
  · exact hy
  · exact voiceSample_y1 hw hp hc hl hy hs

/-- A reclaim keeps the histories, and the FIFO and `ENG_STATE` do not matter (47_render_engine.md R271). -/
theorem FilterInv.drainBlock (h : FilterInv s) : FilterInv (drainBlock s) := by
  have hes : FilterInv (applyEvents s.fifo { s with fifo := [] }) :=
    applyEvents_ind (fun e _ hu => hu.applyEvent e) s.fifo { s with fifo := [] } h
  obtain ⟨hl, hcut, hfs, hhead, hcoef, hy⟩ := hes
  refine ⟨hl, hcut, hfs, hhead, hcoef, fun v hm => ?_⟩
  simp only [Machine.drainBlock, reclaim, List.mem_map] at hm
  obtain ⟨u, hu, rfl⟩ := hm
  rw [reclaimVoice_eq]; exact hy u hu

theorem FilterInv.step (hs : FilterInv s) (hl : LevelInv s) (hw : TableInv s) (h : step s = .next t) : FilterInv t := by
  obtain ⟨hleg, hcut, hrate, hhead, hcoef, hy⟩ := hs
  cases step_sound h with
  | kept par voices p fs _ => unfold FilterInv; rw [par, voices, p, fs]; exact ⟨hleg, hcut, hrate, hhead, hcoef, hy⟩
  | reset => exact FilterInv.resetOf hleg
  | rate v hv =>
    refine ⟨hleg, hcut, hv, hhead, coefFn_unit hcut hv, ?_⟩
    simp only [List.forall_mem_map]
    exact hy
  | drain => exact FilterInv.drainBlock (s := popPort s) ⟨hleg, hcut, hrate, hhead, hcoef, hy⟩
  | render u hu =>
    obtain ⟨hpar, hp, hfs, _⟩ := renderFrames_keeps hu
    obtain ⟨hpl, hvl⟩ := (levelInv_iff s).1 hl
    obtain ⟨hv', _⟩ := renderFrames_voices (P := fun _ wt p v => HistoryOk wt p v) (fun _ _ _ _ _ ht h => h.ticked ht) hu
      fun v hm => ⟨hw, hpl, hcoef, hvl v hm, hy v hm⟩
    unfold FilterInv
    rw [finishBlock_par, finishBlock_p, finishBlock_fs, finishBlock_voices, hpar, hp, hfs]
    refine ⟨hleg, hcut, hrate, hhead, hcoef, fun v hm => ?_⟩
    obtain ⟨_, _, _, _, hyv⟩ := hv' v hm
    exact hyv

/-- Settles O56: levels by the envelope's and the manager's rules, histories by the interpolator and the low-pass. -/
theorem levelKept : Obligations.LevelKept := fun _ _ hs h => ⟨hs.step h, fun hw hf => hf.step hs hw h⟩

/-! ### Phases -/

/-- A voice's phase in the table and its increment bounded. -/
def PhaseOk (len : Nat) (v : Voice) : Prop :=
  isPhase len v.phase = true ∧ isNonneg32 v.inc = true ∧ magOf v.inc ≤ 2 ^ 30 * 2 ^ 149

theorem phaseInv_iff (s : State) : PhaseInv s ↔
    s.par.legal = true ∧ isSampleRate s.fs = true ∧ ∀ v ∈ s.voices, PhaseOk s.par.tableLen v := Iff.rfl

theorem wtLog2Len_le {par : Params} (h : par.legal = true) : par.wtLog2Len ≤ 16 := by
  simp [Params.legal] at h; tauto

/-- The increment of a note on a legal configuration at a legal rate (41_oscillator.md R142). -/
theorem PhaseOk.setInc {par : Params} {fs : Word} {v : Voice} (hl : par.legal = true) (hfs : isSampleRate fs = true)
    (h : isPhase par.tableLen v.phase = true) (n : BitVec 7) : PhaseOk par.tableLen { v with inc := incFor par.tableLen fs n } :=
  ⟨h, incFor_bound (wtLog2Len_le hl) hfs n⟩

theorem isPhase_zero (par : Params) : isPhase par.tableLen zero32 = true := by
  have hm : magOf zero32 = 0 := by decide
  have hn : isNonneg32 zero32 = true := by decide
  have := Nat.two_pow_pos par.wtLog2Len
  unfold isPhase Params.tableLen
  rw [hn, hm, Bool.true_and, decide_eq_true_eq]
  positivity

theorem PhaseOk.reset (par : Params) : PhaseOk par.tableLen Voice.reset := ⟨isPhase_zero par, by decide, by decide⟩

theorem phaseOk_eventKeeps {par : Params} {fs : Word} (hl : par.legal = true) (hfs : isSampleRate fs = true) :
    EventKeeps par fs (PhaseOk par.tableLen) where
  assign p n vel seq v _ h := by
    refine ⟨?_, incFor_bound (wtLog2Len_le hl) hfs n⟩
    change isPhase par.tableLen (if p.phaseReset then zero32 else v.phase) = true
    split
    · exact isPhase_zero par
    · exact h.1
  clear _ h := h
  release r v h := by rw [releaseVoice_eq]; exact h

theorem PhaseOk.reclaim {len : Nat} {v : Voice} (h : PhaseOk len v) : PhaseOk len (reclaimVoice v) := by
  rw [reclaimVoice_eq]; exact h

theorem PhaseOk.ticked {par : Params} (hl : par.legal = true) {wt : List WtEntry} {p : ParamRegs} {v v' : Voice}
    (ht : Ticked par.tableLen wt p v v') (h : PhaseOk par.tableLen v) : PhaseOk par.tableLen v' := by
  rcases ht with ⟨_, rfl⟩ | ⟨_, y, hy⟩
  · exact h
  · obtain ⟨hp, hi, hb⟩ := h
    rw [voiceSample_ok hy, envTick_eq]
    exact ⟨nextPhase_bound (wtLog2Len_le hl) hp hi hb, hi, hb⟩

theorem PhaseInv.step (hs : PhaseInv s) (h : step s = .next t) : PhaseInv t := by
  obtain ⟨hl, hr, hv⟩ := (phaseInv_iff s).1 hs
  rw [phaseInv_iff]
  cases step_sound h with
  | kept par voices _ fs _ => rw [par, voices, fs]; exact ⟨hl, hr, hv⟩
  | reset => exact ⟨hl, (by decide : isSampleRate 0x473B8000 = true), fun v hm => List.eq_of_mem_replicate hm ▸ PhaseOk.reset s.par⟩
  | rate v hfs =>
    refine ⟨hl, hfs, ?_⟩
    simp only [List.forall_mem_map]
    exact fun x hm => PhaseOk.setInc hl hfs (hv x hm).1 x.note
  | drain =>
    obtain ⟨hpar, hfs, _⟩ := drainBlock_keeps (popPort s)
    rw [hpar, hfs]
    exact ⟨hl, hr, (phaseOk_eventKeeps hl hr).drainBlock (s := popPort s) (fun _ h => h.reclaim) hv⟩
  | render u hu =>
    obtain ⟨hpar, _, hfs, _⟩ := renderFrames_keeps hu
    rw [finishBlock_par, finishBlock_fs, finishBlock_voices, hpar, hfs]
    obtain ⟨hv', _⟩ := renderFrames_voices (P := fun par _ _ v => par.legal = true ∧ PhaseOk par.tableLen v)
      (fun _ _ _ _ _ ht h => ⟨h.1, h.2.ticked h.1 ht⟩) hu fun v hm => ⟨hl, hv v hm⟩
    exact ⟨hl, hr, fun v hm => (hv' v hm).2⟩

/-- Settles O57: the increment of a note is bounded, and the wrap keeps the advanced phase in the table. -/
theorem phaseKept : Obligations.PhaseKept := fun _ _ hs h => hs.step h

end Sys2Proof.Machine
end

section
/-! The CSR reads (10_state.md R40 to R72; 48_host_interface.md R297): what each returns, and that it writes only that. -/

namespace Sys2Proof.Machine

variable {s : State}

/-! ### Reads of stored values -/

/-- Settles O10: each of these reads is `returnWord` of its register, whatever the engine does. -/
theorem plainReads : Obligations.PlainReads := by
  unfold Obligations.PlainReads
  intro s
  iterate 21 refine List.forall_mem_cons.2 ⟨rfl, ?_⟩
  exact List.forall_mem_nil _

/-- A read of a register the engine's steps change answers its word while no block is outstanding. -/
theorem next_returnUnlessBusy (hb : busy s = false) (v : Word) :
    (.next (returnUnlessBusy v s) : Host.Outcome State Fault Refusal) = .next { s with rdata := v } := by
  rw [returnUnlessBusy_idle hb]

/-- Settles O12: each of these reads is `returnUnlessBusy` of its register. -/
theorem engineRegisterReads : Obligations.EngineRegisterReads := by
  unfold Obligations.EngineRegisterReads
  intro s hb
  iterate 19 refine List.forall_mem_cons.2 ⟨next_returnUnlessBusy hb _, ?_⟩
  exact List.forall_mem_nil _

/-! ### The composed registers, bit by bit -/

theorem getLsbD_flagWord (b : Bool) (i : Nat) : (flagWord b).getLsbD i = (b && decide (i = 0)) := by
  cases b <;> simp [flagWord]

/-- A bit of `STATUS` (10_state.md R45). -/
theorem getLsbD_statusWord (s : State) (i : Nat) : (statusWord s).getLsbD i =
    (decide (i = 0) && s.run || decide (i = 1) && busy s || decide (i = 2) && fifoEmpty s ||
      decide (i = 3) && fifoFull s || decide (i = 4) && irqLine s) := by
  unfold statusWord
  simp only [BitVec.getLsbD_or, BitVec.getLsbD_shiftLeft, getLsbD_flagWord]
  rcases i with _ | _ | _ | _ | _ | i <;> simp

/-- The `irq` line is high where a pending interrupt is enabled (60_exceptions.md R335). -/
theorem irqLine_iff (s : State) :
    irqLine s = true ↔ ∃ b, b < 5 ∧ s.irqPend.getLsbD b = true ∧ s.irqEn.getLsbD b = true := by
  unfold irqLine
  rw [decide_eq_true_eq]
  constructor
  · intro hne
    by_contra hno
    push Not at hno
    refine hne (BitVec.eq_of_getLsbD_eq fun i hi => ?_)
    rw [BitVec.getLsbD_and]
    cases hp : s.irqPend.getLsbD i
    · simp
    · simp [hno i hi hp]
  · rintro ⟨b, _, hp, he⟩ h0
    have hb := congrArg (·.getLsbD b) h0
    simp [hp, he] at hb

theorem statusWord_high (s : State) : (statusWord s).extractLsb' 5 27 = 0 := by
  refine BitVec.eq_of_getLsbD_eq fun i hi => ?_
  have hk : ∀ k < 5, decide (5 + i = k) = false := fun k hk => decide_eq_false (by omega)
  simp [getLsbD_statusWord, hk]

theorem config0Word_fields (s : State) : (config0Word s).extractLsb' 0 16 = BitVec.ofNat 16 s.par.nVoices ∧
    (config0Word s).extractLsb' 16 5 = BitVec.ofNat 5 s.par.wtLog2Len ∧ (config0Word s).extractLsb' 21 11 = 0 := by
  unfold config0Word
  refine ⟨BitVec.extractLsb'_append_eq_right, ?_, ?_⟩
  · rw [BitVec.extractLsb'_append_eq_of_le (by decide)]; exact BitVec.extractLsb'_append_eq_right
  · rw [BitVec.extractLsb'_append_eq_of_le (by decide)]; exact BitVec.extractLsb'_append_eq_left

/-- The halves of a 16-bit value read as a word. -/
theorem setWidth_halves (x : BitVec 16) : (x.setWidth 32).extractLsb' 0 16 = x ∧ (x.setWidth 32).extractLsb' 16 16 = 0 := by
  constructor <;> refine BitVec.eq_of_getLsbD_eq fun i hi => ?_
  · simp [hi]; omega
  · simp

/-- Settles O11, from the fields of each composed register. -/
theorem composedReads : Obligations.ComposedReads := by
  unfold Obligations.ComposedReads
  intro s
  refine ⟨⟨_, rfl, rfl, config0Word_fields s⟩, ⟨_, rfl, rfl, setWidth_halves _⟩, ⟨_, rfl, rfl, ?_⟩,
    ⟨_, rfl, rfl, setWidth_halves _⟩⟩
  simp only [returnWord_rdata, getLsbD_statusWord]
  refine ⟨?_, ?_, ?_, ?_, ?_, statusWord_high s⟩
  · simp
  · simp [busy]
  · simp [fifoEmpty]
  · simp [fifoFull]
  · rw [← irqLine_iff]; simp

/-! ### The voice window -/

theorem voiceWindow_selected {v : Voice} (hs : s.voiceSel.toNat < s.par.nVoices) (hv : s.voices[s.voiceSel.toNat]? = some v)
    (f : Voice → Word) : voiceWindow f s = f v := by
  unfold voiceWindow; rw [if_pos hs, hv]

theorem voiceWindow_past (hs : s.par.nVoices ≤ s.voiceSel.toNat) (f : Voice → Word) : voiceWindow f s = 0 :=
  if_neg (by omega)

/-- A read of the window answers what it shows, while no block is outstanding. -/
theorem next_voiceWindow (hb : busy s = false) {f : Voice → Word} {w : Word} (hw : voiceWindow f s = w) :
    (.next (returnUnlessBusy (voiceWindow f s) s) : Host.Outcome State Fault Refusal) = .next { s with rdata := w } := by
  rw [hw]; exact next_returnUnlessBusy hb w

/-- `VOICE_STATUS` field by field (10_state.md R68). -/
theorem voiceStatusWord_fields (v : Voice) : (voiceStatusWord v).getLsbD 0 = v.active ∧
    (voiceStatusWord v).extractLsb' 1 3 = stageCode v.stage ∧ (voiceStatusWord v).extractLsb' 4 4 = 0 ∧
    (voiceStatusWord v).extractLsb' 8 7 = v.note ∧ (voiceStatusWord v).extractLsb' 15 17 = 0 := by
  unfold voiceStatusWord
  refine ⟨by rw [BitVec.getLsbD_append]; simp, ?_, ?_, ?_, ?_⟩
  · rw [BitVec.extractLsb'_append_eq_of_le (by decide)]; exact BitVec.extractLsb'_append_eq_right
  · iterate 2 rw [BitVec.extractLsb'_append_eq_of_le (by decide)]
    exact BitVec.extractLsb'_append_eq_right
  · iterate 3 rw [BitVec.extractLsb'_append_eq_of_le (by decide)]
    exact BitVec.extractLsb'_append_eq_right
  · iterate 3 rw [BitVec.extractLsb'_append_eq_of_le (by decide)]
    exact BitVec.extractLsb'_append_eq_left

/-- Settles O13: inside the pool the window shows the selected voice's field, past it 0. -/
theorem voiceWindowReads : Obligations.VoiceWindowReads := by
  unfold Obligations.VoiceWindowReads
  intro s hb
  refine ⟨fun v hs hv => ⟨?_, ?_⟩, fun hs => ?_⟩
  · iterate 9 refine List.forall_mem_cons.2 ⟨next_voiceWindow hb (voiceWindow_selected hs hv _), ?_⟩
    exact List.forall_mem_nil _
  · obtain ⟨hact, hstage, hlow, hnote, hhigh⟩ := voiceStatusWord_fields v
    refine ⟨_, next_voiceWindow hb (voiceWindow_selected hs hv voiceStatusWord), rfl, hact, ?_, hlow, hnote, hhigh⟩
    rw [hstage]
    cases v.stage <;> rfl
  · iterate 10 refine List.forall_mem_cons.2 ⟨next_voiceWindow hb (voiceWindow_past hs _), ?_⟩
    exact List.forall_mem_nil _

end Sys2Proof.Machine
end

section
/-! Host memory stays in its canonical form (20_memory.md R84): only a host's write of it and a block's frames write it. -/

namespace Sys2Proof.Machine

variable {s t : State}

/-- The write of a register leaves host memory, a soft reset too (log 24). -/
theorem WriteEffect.mem_eq {o : Nat} {v : Word} (h : WriteEffect o v s t) : t.mem = s.mem := by
  cases h with
  | refused | badRate | badEntry => exact raiseError_mem ..
  | push => exact pushEvent_mem ..
  | setRun | reset | store | accept | ack | rate | tableAddr | load => rfl

/-- A CSR access leaves host memory. -/
theorem AccessEffect.mem_eq {a : CsrAccess} (h : AccessEffect a s t) : t.mem = s.mem := by
  cases h with
  | read => rfl
  | refused => exact raiseError_mem ..
  | write f _ _ hf he => exact (rwWrite_effect hf he).mem_eq

/-- A drain leaves host memory (47_render_engine.md R271). -/
theorem drainBlock_mem (s : State) : (drainBlock s).mem = s.mem := by rw [(drainBlock_frame s).1]

/-- `RenderStep` keeps the canonical form of host memory: a block's frames do. -/
theorem renderStep_wf (hm : Memory.wf s.mem) (h : exec .renderStep s = .next t) : Memory.wf t.mem := by
  rcases renderStep_cases h with ⟨_, _, rfl⟩ | ⟨_, _, u, hu, rfl⟩
  · exact hm
  · rw [finishBlock_mem]; exact renderFrames_wf hu hm

theorem MemoryInv.step (hs : MemoryInv s) (h : step s = .next t) : MemoryInv t := by
  unfold MemoryInv at *
  cases step_effect h with
  | access a rest hp ha => rw [ha.mem_eq]; exact hs
  | memRead | idle => exact hs
  | memWrite a v r => exact writeWord_wf a v hs
  | drain => rw [drainBlock_mem]; exact hs
  | render hr he => exact renderStep_wf (s := popPort s) hs he

/-- Settles O51: each turn leaves host memory, writes one word of it, or writes a block's frames. -/
theorem memoryKept : Obligations.MemoryKept := fun _ _ hs h => hs.step h

end Sys2Proof.Machine
end

section
/-! A CSR read answers a word and writes nothing else, or is refused as reserved with its word index (20_memory.md R87;
48_host_interface.md R293). -/

namespace Sys2Proof.Machine

variable {s t : State}

/-! ### Reads of registers -/

/-- A state that differs in the word returned and the free values taken alone, as a read's outcome. -/
theorem next_read_of_eq (h : t = { s with rdata := t.rdata, draws := t.draws }) :
    ∃ r d, (.next t : Host.Outcome State Fault Refusal) = .next { s with rdata := r, draws := d } :=
  ⟨_, _, congrArg _ h⟩

/-- Every read in the register tables answers a word and leaves every register (20_memory.md R87). -/
theorem exec_read_of_mem (s : State) :
    ∀ x ∈ rwReads ++ roReads, ∃ r d, exec x.2 s = .next { s with rdata := r, draws := d } := by
  have stored (v : Word) := next_read_of_eq (s := s) (t := returnWord v s) rfl
  have engine (v : Word) := next_read_of_eq (returnUnlessBusy_eq v s)
  refine List.forall_mem_append.2 ⟨?_, ?_⟩
  · iterate 13 refine List.forall_mem_cons.2 ⟨stored _, ?_⟩
    refine List.forall_mem_cons.2 ⟨next_read_of_eq (readTable_eq s), ?_⟩
    exact List.forall_mem_singleton.2 (stored _)
  · iterate 9 refine List.forall_mem_cons.2 ⟨stored _, ?_⟩
    iterate 2 refine List.forall_mem_cons.2 ⟨engine _, ?_⟩
    refine List.forall_mem_cons.2 ⟨stored _, ?_⟩
    iterate 2 refine List.forall_mem_cons.2 ⟨engine _, ?_⟩
    refine List.forall_mem_cons.2 ⟨stored _, ?_⟩
    iterate 25 refine List.forall_mem_cons.2 ⟨engine _, ?_⟩
    exact List.forall_mem_nil _

/-! ### Reserved offsets -/

/-- The word index `OFF[8:2]` an error records (48_host_interface.md R290). -/
theorem wordIndex_toNat (off : BitVec 9) : ((off.extractLsb' 2 7).setWidth 8 : Byte).toNat = off.toNat / 4 := by
  simp [Nat.shiftRight_eq_div_pow]
  omega

theorem wordIndex_eq {off : BitVec 9} {x : Byte} (h : off.toNat / 4 = x.toNat) :
    (off.extractLsb' 2 7).setWidth 8 = x := BitVec.eq_of_toNat_eq ((wordIndex_toNat off).trans h)

/-- The word index of the k-th word of a range that begins at word `base` and is `2 ^ n` words long. -/
theorem wordIndex_range {off : BitVec 9} {base : Byte} (n : Nat) (h : off.toNat / 4 = base.toNat + off.toNat / 4 % 2 ^ n) :
    (off.extractLsb' 2 7).setWidth 8 = base + (off.extractLsb' 2 n).setWidth 8 := by
  refine wordIndex_eq ?_
  simp [Nat.shiftRight_eq_div_pow]
  omega

theorem aligned_iff (off : BitVec 9) : off.extractLsb' 0 2 = 0 ↔ off.toNat % 4 = 0 := by
  simp [← BitVec.toNat_inj]

/-- The words below 0x180 that no register table lists (10_state.md R73). -/
theorem reserved_words : ∀ k < 96, atOffset (4 * k) (rwReads ++ roReads) = none →
    k / 2 = 13 ∨ k = 31 ∨ k = 43 ∨ k / 2 = 23 ∨ k / 16 = 3 ∨ k = 64 ∨ k = 75 ∨ k / 4 = 19 ∨ k = 83 ∨ k / 4 = 21 ∨
      k / 8 = 11 := by decide

/-- An access of an aligned offset in no register table is refused with its word index (48_host_interface.md R293). -/
theorem exec_reservedInstr {off : BitVec 9} (ha : off.extractLsb' 0 2 = 0)
    (hn : atOffset off.toNat (rwReads ++ roReads) = none) (w : Bool) (v : Word) (s : State) :
    exec (reservedInstr w off v) s = .next (refuseAccess w .csrReserved ((off.extractLsb' 2 7).setWidth 8) s) := by
  have key : ∀ {x : Byte}, (off.extractLsb' 2 7).setWidth 8 = x →
      (.next (refuseAccess w .csrReserved x s) : Host.Outcome State Fault Refusal) =
        .next (refuseAccess w .csrReserved ((off.extractLsb' 2 7).setWidth 8) s) := by rintro _ rfl; rfl
  unfold reservedInstr
  repeat' split
  · exact key (wordIndex_range 1 (by simp; omega))
  · exact key (wordIndex_eq (by simpa))
  · exact key (wordIndex_eq (by simpa))
  · exact key (wordIndex_range 1 (by simp; omega))
  · exact key (wordIndex_range 4 (by simp; omega))
  · exact key (wordIndex_eq (by simpa))
  · exact key (wordIndex_eq (by simpa))
  · exact key (wordIndex_range 2 (by simp; omega))
  · exact key (wordIndex_eq (by simpa))
  · exact key (wordIndex_range 2 (by simp; omega))
  · exact key (wordIndex_range 3 (by simp; omega))
  · have h4 : 4 * (off.toNat / 4) = off.toNat := by rw [aligned_iff] at ha; omega
    have hlow := fun hk => reserved_words (off.toNat / 4) hk (by rw [h4]; exact hn)
    exact key (wordIndex_range 5 (by simp; omega))

/-- Where an aligned read decodes to: a register's read, or the reserved access of an offset in no register table. -/
theorem decode_read_cases {a : CsrAccess} {i : Instr} (hw : a.write = false) (h : decode (.access a) = .instr i) :
    (a.off.toNat, i) ∈ rwReads ++ roReads ∨
      a.off.extractLsb' 0 2 = 0 ∧ atOffset a.off.toNat (rwReads ++ roReads) = none ∧ i = reservedInstr false a.off 0 := by
  change decodeAccess a = _ at h
  unfold decodeAccess at h
  split at h
  · cases h
  · rename_i hok
    rw [not_or, not_not, not_not] at hok
    rw [hw, if_neg Bool.false_ne_true] at h
    split at h
    · rename_i j hj; cases h; exact .inl (mem_of_atOffset hj)
    · rename_i hn; cases h; exact .inr ⟨hok.2, hn, rfl⟩

/-- Settles O16: a read of a register answers a word alone, a read of any other offset is refused. -/
theorem readsHaveNoSideEffect : Obligations.ReadsHaveNoSideEffect := by
  unfold Obligations.ReadsHaveNoSideEffect
  intro a i s hw hd
  rcases decode_read_cases hw hd with hi | ⟨ha, hn, rfl⟩
  · exact .inl (exec_read_of_mem s _ hi)
  · exact .inr (exec_reservedInstr ha hn false 0 s)

end Sys2Proof.Machine
end

section
/-! A host's turn of host memory (20_memory.md R84, R88, R92): what each access answers, and the step that takes it. -/

namespace Sys2Proof.Machine

variable {s t : State} {w : BitVec 30} {v : Word} {rest : List Turn} {f : Fault}

/-! ### The accesses -/

theorem inFlight_iff (s : State) (a : Nat) :
    inFlight s a = true ↔ s.engState ≠ .idle ∧ s.blkBase.toNat < a + 4 ∧ a < outputEnd s := by
  simp [inFlight, busy, and_assoc]

theorem hostRead_inFlight (h : inFlight s (4 * w.toNat) = true) : hostRead w s = .ok (returnFree s) := if_pos h

theorem hostWrite_inFlight (h : inFlight s (4 * w.toNat) = true) : hostWrite w v s =
    .ok { s with mem := writeWord (4 * w.toNat) v s.mem, raced := (4 * w.toNat) :: s.raced } := if_pos h

theorem hostRead_absent (h : inFlight s (4 * w.toNat) = false)
    (ha : admits s.par.memory (4 * w.toNat) (4 * w.toNat + 4) = false) : hostRead w s = .error .hostMemoryAbsent := by
  simp [hostRead, h, ha]

theorem hostWrite_absent (h : inFlight s (4 * w.toNat) = false)
    (ha : admits s.par.memory (4 * w.toNat) (4 * w.toNat + 4) = false) : hostWrite w v s = .error .hostMemoryAbsent := by
  simp [hostWrite, h, ha]

/-- Outside the output range in flight a wholly written word is read as it is. -/
theorem hostRead_written (h : inFlight s (4 * w.toNat) = false)
    (ha : admits s.par.memory (4 * w.toNat) (4 * w.toNat + 4) = true) (hv : readWord (4 * w.toNat) s.mem = some v) :
    hostRead w s = .ok { s with rdata := v } := by
  simp [hostRead, h, ha, hv, returnWord]

theorem hostWrite_admitted (h : inFlight s (4 * w.toNat) = false)
    (ha : admits s.par.memory (4 * w.toNat) (4 * w.toNat + 4) = true) :
    hostWrite w v s = .ok { s with mem := writeWord (4 * w.toNat) v s.mem } := by
  simp [hostWrite, h, ha]

/-! ### The step that takes them -/

theorem fetch_memRead (hp : s.port = .memRead w :: rest) :
    fetch s = fetchMemory (hostRead w { s with port := rest }) := by unfold fetch; rw [hp]

theorem fetch_memWrite (hp : s.port = .memWrite w v :: rest) :
    fetch s = fetchMemory (hostWrite w v { s with port := rest }) := by unfold fetch; rw [hp]

theorem step_memory_ok {r : Except Fault State} (hf : fetch s = fetchMemory r) (h : r = .ok t) : step s = .next t := by
  unfold step; rw [hf, h]; rfl

theorem step_memory_error {r : Except Fault State} (hf : fetch s = fetchMemory r) (h : r = .error f) :
    step s = .fault f := by
  unfold step; rw [hf, h]; rfl

/-- A run takes its first step and goes on. -/
theorem run_succ {M : Host.Core} {s t : M.State} (k : Nat) (h : M.step s = .next t) : M.run (k + 1) s = M.run k t := by
  rw [Host.Core.run, h]

/-- Settles O49: each turn by its access, whose cases are whether the word is in flight and whether it is admitted. -/
theorem hostMemoryAccess : Obligations.HostMemoryAccess := by
  unfold Obligations.HostMemoryAccess
  intro s w v rest a hit
  have hin : inFlight s a = true ↔ hit := inFlight_iff s a
  refine ⟨fun h => ⟨fun hp => ?_, fun hp => ?_⟩, fun h ha hp => ?_, fun h ha hm hp => ?_⟩
  · exact step_memory_ok (fetch_memRead hp) (hostRead_inFlight (hin.2 h))
  · exact step_memory_ok (fetch_memWrite hp) (hostWrite_inFlight (hin.2 h))
  · have hout := Bool.eq_false_iff.2 (mt hin.1 h)
    rcases hp with hp | hp
    · exact step_memory_error (fetch_memRead hp) (hostRead_absent hout ha)
    · exact step_memory_error (fetch_memWrite hp) (hostWrite_absent hout ha)
  · have hout := Bool.eq_false_iff.2 (mt hin.1 h)
    have hwrite := step_memory_ok (fetch_memWrite hp) (hostWrite_admitted hout ha)
    have hread : step { s with port := .memRead w :: rest, mem := writeWord a v s.mem } =
        .next { s with port := rest, mem := writeWord a v s.mem, rdata := v } :=
      step_memory_ok (fetch_memRead rfl) (hostRead_written hout ha (readWord_writeWord a v hm))
    exact (run_succ (M := core) 1 hwrite).trans (run_succ (M := core) 0 hread)

end Sys2Proof.Machine
end

section
/-! An event word bit by bit (30_encoding.md R100 to R107): what `DecodeEvent` answers on each word, and what an invalid
event does (46_event_intake.md R235, R251). -/

namespace Sys2Proof.Laws

open Sys2Proof.Machine (State raiseError applyEvent applyCC isUnit32)

/-! ### What `DecodeEvent` answers (R106) -/

section
variable {w0 w1 : Word}

theorem decodeEvent_badKind (hk : evtKind w0 ≠ 0x01 ∧ evtKind w0 ≠ 0x02 ∧ evtKind w0 ≠ 0x03) :
    decodeEvent w0 w1 = .invalid .evtBadKind (evtKind w0) := if_pos hk

/-- Of the words of a legal kind, the second check. -/
theorem decodeEvent_rsvBits (hk : evtKind w0 = 0x01 ∨ evtKind w0 = 0x02 ∨ evtKind w0 = 0x03)
    (hr : ¬(evtRsv0 w0 = 0 ∧ ¬(evtKind w0 = 0x02 ∧ w1 ≠ 0))) :
    decodeEvent w0 w1 = .invalid .evtRsvBits (evtKind w0) := by
  unfold decodeEvent
  rw [if_neg (by tauto), if_pos (by tauto)]

theorem decodeEvent_badNote (hk : evtKind w0 = 0x01 ∨ evtKind w0 = 0x02)
    (hc : evtRsv0 w0 = 0 ∧ ¬(evtKind w0 = 0x02 ∧ w1 ≠ 0)) (hn : (evtArg w0).getLsbD 7 = true) :
    decodeEvent w0 w1 = .invalid .evtBadNote (evtArg w0) := by
  have h3 : evtKind w0 ≠ 0x03 := by rcases hk with hk | hk <;> rw [hk] <;> decide
  unfold decodeEvent
  rw [if_neg (by tauto), if_neg (by tauto), if_pos ⟨h3, hn⟩]

theorem decodeEvent_badVel (hk : evtKind w0 = 0x01) (hr : evtRsv0 w0 = 0) (hn : (evtArg w0).getLsbD 7 = false)
    (hv : isUnit32 w1 = false) : decodeEvent w0 w1 = .invalid .evtBadVel (evtArg w0) := by
  unfold decodeEvent
  rw [hk, hr, hn, hv]
  rfl

theorem decodeEvent_noteOn (hk : evtKind w0 = 0x01) (hr : evtRsv0 w0 = 0) (hn : (evtArg w0).getLsbD 7 = false)
    (hv : isUnit32 w1 = true) : decodeEvent w0 w1 = .noteOn ((evtArg w0).extractLsb' 0 7) w1 := by
  unfold decodeEvent
  rw [hk, hr, hn, hv]
  rfl

theorem decodeEvent_noteOff (hk : evtKind w0 = 0x02) (hr : evtRsv0 w0 = 0) (hw : w1 = 0)
    (hn : (evtArg w0).getLsbD 7 = false) : decodeEvent w0 w1 = .noteOff ((evtArg w0).extractLsb' 0 7) := by
  unfold decodeEvent
  rw [hk, hr, hn, hw]
  rfl

theorem decodeEvent_controlChange (hk : evtKind w0 = 0x03) (hr : evtRsv0 w0 = 0) :
    decodeEvent w0 w1 = .controlChange (evtArg w0) w1 := by
  simp [decodeEvent, hk, hr]

/-- The answers of `DecodeEvent`, each with the fields it is given on. -/
theorem decodeEvent_cases (w0 w1 : Word) :
    (∃ c x, decodeEvent w0 w1 = .invalid c x) ∨ evtRsv0 w0 = 0 ∧
      (evtKind w0 = 0x01 ∧ (evtArg w0).getLsbD 7 = false ∧ isUnit32 w1 = true ∧
          decodeEvent w0 w1 = .noteOn ((evtArg w0).extractLsb' 0 7) w1 ∨
        evtKind w0 = 0x02 ∧ (evtArg w0).getLsbD 7 = false ∧ w1 = 0 ∧
          decodeEvent w0 w1 = .noteOff ((evtArg w0).extractLsb' 0 7) ∨
        evtKind w0 = 0x03 ∧ decodeEvent w0 w1 = .controlChange (evtArg w0) w1) := by
  by_cases hkind : evtKind w0 ≠ 0x01 ∧ evtKind w0 ≠ 0x02 ∧ evtKind w0 ≠ 0x03
  · exact .inl ⟨_, _, decodeEvent_badKind hkind⟩
  have hk : evtKind w0 = 0x01 ∨ evtKind w0 = 0x02 ∨ evtKind w0 = 0x03 := by tauto
  by_cases hclean : evtRsv0 w0 = 0 ∧ ¬(evtKind w0 = 0x02 ∧ w1 ≠ 0)
  case neg => exact .inl ⟨_, _, decodeEvent_rsvBits hk hclean⟩
  obtain ⟨hr, hw⟩ := hclean
  cases hn : (evtArg w0).getLsbD 7
  · rcases hk with hk | hk | hk
    · cases hv : isUnit32 w1
      · exact .inl ⟨_, _, decodeEvent_badVel hk hr hn hv⟩
      · exact .inr ⟨hr, .inl ⟨hk, rfl, rfl, decodeEvent_noteOn hk hr hn hv⟩⟩
    · have h0 : w1 = 0 := by tauto
      exact .inr ⟨hr, .inr (.inl ⟨hk, rfl, h0, decodeEvent_noteOff hk hr h0 hn⟩)⟩
    · exact .inr ⟨hr, .inr (.inr ⟨hk, decodeEvent_controlChange hk hr⟩)⟩
  · rcases hk with hk | hk | hk
    · exact .inl ⟨_, _, decodeEvent_badNote (.inl hk) ⟨hr, hw⟩ hn⟩
    · exact .inl ⟨_, _, decodeEvent_badNote (.inr hk) ⟨hr, hw⟩ hn⟩
    · exact .inr ⟨hr, .inr (.inr ⟨hk, decodeEvent_controlChange hk hr⟩)⟩

end

/-! ### Every bit of a legal word -/

/-- The first word put together from its fields (R100). -/
theorem word0_of_fields (w0 : Word) (h : evtRsv0 w0 = 0) :
    (evtKind w0 ++ evtArg w0 ++ (0 : BitVec 16) : Word) = w0 := by
  rw [← h]
  unfold evtKind evtArg evtRsv0
  rw [BitVec.extractLsb'_append_extractLsb'_eq_extractLsb' (by decide),
    BitVec.extractLsb'_append_extractLsb'_eq_extractLsb' (by decide)]
  exact BitVec.extractLsb'_eq_self

/-- An event word is the encoding of its kind, argument, value and timestamp. -/
theorem encodeEvent_fields (e : EvtWord) (h : evtRsv0 e.w0 = 0) :
    encodeEvent (evtKind e.w0) (evtArg e.w0) e.w1 (evtTimestamp e) = .event e := by
  unfold encodeEvent evtTimestamp
  rw [word0_of_fields e.w0 h, BitVec.extractLsb'_append_eq_right, BitVec.extractLsb'_append_eq_left]

/-- A byte below 128 is a note number. -/
theorem note_of_byte (arg : Byte) (h : arg.getLsbD 7 = false) : (0 : BitVec 1) ++ arg.extractLsb' 0 7 = arg := by
  revert arg; decide

theorem eq_or_of_ite_some {c : Prop} [Decidable c] {i j : Instr} {o : Option Instr}
    (h : (if c then some j else o) = some i) : c ∧ j = i ∨ o = some i := by
  by_cases hc : c
  · rw [if_pos hc] at h; exact .inl ⟨hc, Option.some.inj h⟩
  · rw [if_neg hc] at h; exact .inr h

/-- A control change is well formed at every value, and its word carries its id (R107). -/
theorem ccInstr_encodes {id : Byte} {v : Word} {ts : BitVec 64} {i : Instr} (h : ccInstr id v ts = some i) :
    i.wf = true ∧ encode i = encodeEvent 0x03 id v ts := by
  unfold ccInstr at h
  iterate 10
    rcases eq_or_of_ite_some h with ⟨rfl, rfl⟩ | h
    · exact ⟨rfl, rfl⟩
  cases h

/-- An event word that decodes to an instruction has its reserved bits clear and its fields are the instruction's. -/
theorem decode_event_fields {e : EvtWord} {i : Instr} (h : decode (.event e) = .instr i) :
    evtRsv0 e.w0 = 0 ∧ i.wf = true ∧ encode i = encodeEvent (evtKind e.w0) (evtArg e.w0) e.w1 (evtTimestamp e) := by
  change eventInstr _ (decodeEvent e.w0 e.w1) = _ at h
  rcases decodeEvent_cases e.w0 e.w1 with ⟨c, x, hd⟩ | ⟨hr, ⟨hk, hn, hv, hd⟩ | ⟨hk, hn, hw, hd⟩ | ⟨hk, hd⟩⟩ <;>
    rw [hd] at h
  · cases h
  · cases h
    exact ⟨hr, hv, by rw [encode, note_of_byte _ hn, hk]⟩
  · cases h
    exact ⟨hr, rfl, by rw [encode, note_of_byte _ hn, hk, hw]⟩
  · simp only [eventInstr] at h
    split at h
    · rename_i j hj
      cases h
      rw [hk]
      exact ⟨hr, ccInstr_encodes hj⟩
    · cases h

/-- Settles O2: the fields of a decoded word are those of its encoding, and the reserved bits are clear. -/
theorem eventWordsUnique : Obligations.EventWordsUnique := by
  unfold Obligations.EventWordsUnique
  intro e i h
  obtain ⟨hrsv, hwf, henc⟩ := decode_event_fields h
  exact ⟨hwf, henc.trans (encodeEvent_fields e hrsv)⟩

/-! ### Invalid events -/

/-- A control id past the ten parameters has no control change (R107). -/
theorem applyCC_reserved {id : Byte} (h : id = 0x00 ∨ 0x0A < id) (v : Word) (s : State) :
    applyCC id v s = raiseError .ccBadId id s := by
  have hne : ∀ k : Byte, 0x01 ≤ k → k ≤ 0x0A → id ≠ k := by
    rintro k h1 h2 rfl
    bv_omega
  unfold Machine.applyCC
  iterate 10 rw [if_neg (hne _ (by decide) (by decide))]

theorem applyEvent_invalid {e : EvtWord} {c : ErrCode} {x : Byte} (h : decodeEvent e.w0 e.w1 = .invalid c x)
    (s : State) : applyEvent e s = raiseError c x s := by
  unfold Machine.applyEvent
  rw [h]

theorem applyEvent_controlChange {e : EvtWord} {id : Byte} {v : Word} (h : decodeEvent e.w0 e.w1 = .controlChange id v)
    (s : State) : applyEvent e s = applyCC id v s := by
  unfold Machine.applyEvent
  rw [h]

/-- Settles O8: the first failing check gives the code and the auxiliary byte, and recording an error writes that
alone. -/
theorem invalidEvents : Obligations.InvalidEvents := by
  unfold Obligations.InvalidEvents
  intro e s kind arg clean
  refine ⟨fun hk => ?_, fun ⟨hk, hc⟩ => ?_, fun ⟨hk, hc, hn⟩ => ?_, fun ⟨hk, hc, hn, hv⟩ => ?_, fun ⟨hk, hc, hid⟩ => ?_⟩
  · exact applyEvent_invalid (decodeEvent_badKind hk) s
  · exact applyEvent_invalid (decodeEvent_rsvBits hk hc) s
  · exact applyEvent_invalid (decodeEvent_badNote hk hc hn) s
  · exact applyEvent_invalid (decodeEvent_badVel hk hc.1 hn hv) s
  · exact (applyEvent_controlChange (decodeEvent_controlChange hk hc.1) s).trans (applyCC_reserved hid _ s)

end Sys2Proof.Laws
end

section
/-! Decoding an encoded instruction, and encoding a decoded access (30_encoding.md R100, R110, R112): an instruction is
an event word, an access of a register in one of the tables, an access of a reserved range, or a step of the engine. -/

namespace Sys2Proof.Laws

/-! ### Events -/

/-- A note-on of a legal velocity (R102). -/
theorem decode_encode_noteOn (note : BitVec 7) {vel : Word} (hv : Machine.isUnit32 vel = true) (ts : BitVec 64) :
    decode (encode (.noteOn note vel ts)) = .instr (.noteOn note vel ts) := by
  obtain ⟨hbit, hnote⟩ := note_byte note
  refine (decode_event 0x01 ((0 : BitVec 1) ++ note) vel ts).trans ?_
  rw [decodeEvent_noteOn (kind_event ..) (rsv0_event ..) (by rw [arg_event, hbit]) hv, arg_event, hnote]
  rfl

theorem decode_encode_noteOff (note : BitVec 7) (ts : BitVec 64) :
    decode (encode (.noteOff note ts)) = .instr (.noteOff note ts) := by
  obtain ⟨hbit, hnote⟩ := note_byte note
  refine (decode_event 0x02 ((0 : BitVec 1) ++ note) 0 ts).trans ?_
  rw [decodeEvent_noteOff (kind_event ..) (rsv0_event ..) rfl (by rw [arg_event, hbit]), arg_event, hnote]
  rfl

/-! ### The register tables -/

theorem atOffset_eq_none_iff {α : Type} (off : Nat) (l : List (Nat × α)) :
    atOffset off l = none ↔ off ∉ l.map Prod.fst := by
  induction l with
  | nil => simp [atOffset]
  | cons x l ih =>
    unfold atOffset
    split
    · simp_all
    · simp_all [eq_comm]

/-- The tables of reads and of writes list the same offsets. -/
theorem atOffset_writes_none_iff (off : Nat) :
    atOffset off (rwWrites ++ roWrites) = none ↔ atOffset off (rwReads ++ roReads) = none := by
  rw [atOffset_eq_none_iff, atOffset_eq_none_iff]
  exact Iff.rfl

/-- Each read of the tables is encoded at its offset. -/
theorem encode_of_mem_reads : ∀ x ∈ rwReads ++ roReads, encode x.2 = encodeRead (BitVec.ofNat 9 x.1) := by decide

/-- Each write of the tables is encoded at its offset, with its data. -/
theorem encode_of_mem_writes (v : Word) :
    ∀ x ∈ rwWrites ++ roWrites, encode (x.2 v) = encodeWrite (BitVec.ofNat 9 x.1) v := by
  iterate 55 refine List.forall_mem_cons.2 ⟨rfl, ?_⟩
  exact List.forall_mem_nil _

/-! ### Reserved offsets -/

theorem four_mul_word {off : BitVec 9} (ha : off.extractLsb' 0 2 = 0) : 4 * (off.toNat / 4) = off.toNat := by
  rw [Machine.aligned_iff] at ha
  omega

/-- The words that lie in the reserved ranges (10_state.md R73). -/
abbrev ReservedWord (k : Nat) : Prop :=
  k / 2 = 13 ∨ k = 31 ∨ k = 43 ∨ k / 2 = 23 ∨ k / 16 = 3 ∨ k = 64 ∨ k = 75 ∨ k / 4 = 19 ∨ k = 83 ∨ k / 4 = 21 ∨
    k / 8 = 11 ∨ k / 32 = 3

theorem atOffset_of_reservedWord : ∀ k < 128, ReservedWord k → atOffset (4 * k) (rwReads ++ roReads) = none := by decide

/-- An access of a word in a reserved range decodes by its range. -/
theorem decode_encodeReserved {w : Bool} {off : BitVec 9} {v : Word} {i : Instr} (hv : (w || v == 0) = true)
    (ha : off.extractLsb' 0 2 = 0) (hr : ReservedWord (off.toNat / 4)) (hi : reservedInstr w off v = i) :
    decode (encodeReserved w off v) = .instr i := by
  have hreads : atOffset off.toNat (rwReads ++ roReads) = none := by
    rw [← four_mul_word ha]
    exact atOffset_of_reservedWord _ (by omega) hr
  have hdata : (if w then v else 0) = v := by
    cases w with
    | false => exact (eq_of_beq hv).symm
    | true => rfl
  refine (decode_reserved w ha ((atOffset_writes_none_iff _).2 hreads) hreads v).trans ?_
  rw [hdata, hi]

/-- The offset of the `k`-th word of the range numbered `c`: the two numbers, then two clear bits. -/
theorem range_offset {m n : Nat} (c : BitVec m) (k : BitVec n) :
    (c ++ k ++ (0 : BitVec 2)).extractLsb' 0 2 = 0 ∧ (c ++ k ++ (0 : BitVec 2)).extractLsb' 2 n = k ∧
      (c ++ k ++ (0 : BitVec 2)).toNat / 2 ^ (n + 2) = c.toNat := by
  refine ⟨BitVec.extractLsb'_append_eq_right, ?_, ?_⟩
  · rw [BitVec.extractLsb'_append_eq_of_le (by decide)]; exact BitVec.extractLsb'_append_eq_right
  · rw [pow_add, mul_comm, ← Nat.div_div_eq_div_mul, ← Nat.shiftRight_eq_div_pow, ← Nat.shiftRight_eq_div_pow]
    simp [BitVec.toNat_append, Nat.shiftRight_or_distrib, Nat.shiftRight_eq_zero _ _ k.isLt]

/-- An offset put together again from its range, the word's number there and the two clear bits. -/
theorem range_offset_eq {m n : Nat} {off : BitVec (m + n + 2)} (c : BitVec m) (hc : off.toNat / 2 ^ (n + 2) = c.toNat)
    (ha : off.extractLsb' 0 2 = 0) : c ++ off.extractLsb' 2 n ++ (0 : BitVec 2) = off := by
  have hfield : c = off.extractLsb' (n + 2) m := by
    refine BitVec.eq_of_toNat_eq ?_
    rw [BitVec.extractLsb'_toNat, Nat.shiftRight_eq_div_pow, hc, Nat.mod_eq_of_lt c.isLt]
  rw [hfield, ← ha, BitVec.extractLsb'_append_extractLsb'_eq_extractLsb' (by omega),
    BitVec.extractLsb'_append_extractLsb'_eq_extractLsb' (by omega)]
  exact BitVec.extractLsb'_eq_self

theorem word_offset_eq {off : BitVec 9} {k : Nat} (hk : off.toNat / 4 = k) (ha : off.extractLsb' 0 2 = 0) :
    BitVec.ofNat 9 (4 * k) = off := by
  refine BitVec.eq_of_toNat_eq ?_
  rw [BitVec.toNat_ofNat, ← hk, four_mul_word ha, Nat.mod_eq_of_lt off.isLt]

section
variable {off : BitVec 9} {w : Bool} {v : Word} (hv : (w || v == 0) = true)
include hv

theorem decode_rsv068 {k : BitVec 1} (h : off.extractLsb' 0 2 = 0 ∧ off.extractLsb' 2 1 = k ∧ off.toNat / 8 = 13) :
    decode (encodeReserved w off v) = .instr (.rsv068 w k v) := by
  obtain ⟨ha, rfl, hc⟩ := h
  exact decode_encodeReserved hv ha (by omega) (if_pos hc)

theorem decode_rsv0B8 {k : BitVec 1} (h : off.extractLsb' 0 2 = 0 ∧ off.extractLsb' 2 1 = k ∧ off.toNat / 8 = 23) :
    decode (encodeReserved w off v) = .instr (.rsv0B8 w k v) := by
  obtain ⟨ha, rfl, hc⟩ := h
  refine decode_encodeReserved hv ha (by omega) ?_
  unfold reservedInstr
  iterate 3 rw [if_neg (by omega)]
  exact if_pos hc

theorem decode_rsv0C0 {k : BitVec 4} (h : off.extractLsb' 0 2 = 0 ∧ off.extractLsb' 2 4 = k ∧ off.toNat / 64 = 3) :
    decode (encodeReserved w off v) = .instr (.rsv0C0 w k v) := by
  obtain ⟨ha, rfl, hc⟩ := h
  refine decode_encodeReserved hv ha (by omega) ?_
  unfold reservedInstr
  iterate 4 rw [if_neg (by omega)]
  exact if_pos hc

theorem decode_rsv130 {k : BitVec 2} (h : off.extractLsb' 0 2 = 0 ∧ off.extractLsb' 2 2 = k ∧ off.toNat / 16 = 19) :
    decode (encodeReserved w off v) = .instr (.rsv130 w k v) := by
  obtain ⟨ha, rfl, hc⟩ := h
  refine decode_encodeReserved hv ha (by omega) ?_
  unfold reservedInstr
  iterate 7 rw [if_neg (by omega)]
  exact if_pos hc

theorem decode_rsv150 {k : BitVec 2} (h : off.extractLsb' 0 2 = 0 ∧ off.extractLsb' 2 2 = k ∧ off.toNat / 16 = 21) :
    decode (encodeReserved w off v) = .instr (.rsv150 w k v) := by
  obtain ⟨ha, rfl, hc⟩ := h
  refine decode_encodeReserved hv ha (by omega) ?_
  unfold reservedInstr
  iterate 9 rw [if_neg (by omega)]
  exact if_pos hc

theorem decode_rsv160 {k : BitVec 3} (h : off.extractLsb' 0 2 = 0 ∧ off.extractLsb' 2 3 = k ∧ off.toNat / 32 = 11) :
    decode (encodeReserved w off v) = .instr (.rsv160 w k v) := by
  obtain ⟨ha, rfl, hc⟩ := h
  refine decode_encodeReserved hv ha (by omega) ?_
  unfold reservedInstr
  iterate 10 rw [if_neg (by omega)]
  exact if_pos hc

theorem decode_rsv180 {k : BitVec 5} (h : off.extractLsb' 0 2 = 0 ∧ off.extractLsb' 2 5 = k ∧ off.toNat / 128 = 3) :
    decode (encodeReserved w off v) = .instr (.rsv180 w k v) := by
  obtain ⟨ha, rfl, hc⟩ := h
  refine decode_encodeReserved hv ha (by omega) ?_
  unfold reservedInstr
  iterate 11 rw [if_neg (by omega)]

end

/-- Settles O1, an instruction at a time: an event by its kind, a register by its table, a reserved range by its
number. -/
theorem decodeEncode : Obligations.DecodeEncode := by
  unfold Obligations.DecodeEncode
  intro i h
  cases i with
  | noteOn note vel ts => exact decode_encode_noteOn note h ts
  | noteOff note ts => exact decode_encode_noteOff note ts
  | ccAttackSamples v ts | ccDecaySamples v ts | ccSustainLevel v ts | ccReleaseSamples v ts | ccCutoffHz v ts
    | ccFilterEnable v ts | ccHeadroom v ts | ccSoftclipEnable v ts | ccPhaseReset v ts | ccRetrigMode v ts =>
    exact decode_cc _ v ts _ rfl
  | rdId | rdVersion | rdConfig0 | rdConfig1 | rdStatus | rdActiveVoices | rdFifoCount | rdOvfCount | rdPushResult
    | rdBadEvtCount | rdCfgErrCount | rdCsrErrCount | rdLastErr | rdStealCount | rdBlockCount | rdVoiceStatus
    | rdVoiceLevel | rdVoicePhase | rdVoiceInc | rdVoiceY1 | rdVoiceVel | rdVoiceRelcnt | rdVoiceReldec
    | rdVoiceSeqLo | rdVoiceSeqHi | rdTrigSeqLo | rdTrigSeqHi | rdParam1 | rdParam2 | rdParam3 | rdParam4 | rdParam5
    | rdParam6 | rdParam7 | rdParam8 | rdParam9 | rdParam10 | rdCoef | rdAttackInc | rdDecayDec | rdCtrl | rdEvtW0
    | rdEvtW1 | rdEvtW2 | rdEvtW3 | rdRender | rdOutBase | rdFrames | rdChannels | rdIrqStatus | rdIrqEnable
    | rdCfgFs | rdWtAddr | rdWtData | rdVoiceSel =>
    exact decode_read (by decide) rfl 0
  | wrId v | wrVersion v | wrConfig0 v | wrConfig1 v | wrStatus v | wrActiveVoices v | wrFifoCount v | wrOvfCount v
    | wrPushResult v | wrBadEvtCount v | wrCfgErrCount v | wrCsrErrCount v | wrLastErr v | wrStealCount v
    | wrBlockCount v | wrVoiceStatus v | wrVoiceLevel v | wrVoicePhase v | wrVoiceInc v | wrVoiceY1 v | wrVoiceVel v
    | wrVoiceRelcnt v | wrVoiceReldec v | wrVoiceSeqLo v | wrVoiceSeqHi v | wrTrigSeqLo v | wrTrigSeqHi v
    | wrParam1 v | wrParam2 v | wrParam3 v | wrParam4 v | wrParam5 v | wrParam6 v | wrParam7 v | wrParam8 v
    | wrParam9 v | wrParam10 v | wrCoef v | wrAttackInc v | wrDecayDec v | wrCtrl v | wrEvtW0 v | wrEvtW1 v
    | wrEvtW2 v | wrEvtW3 v | wrRender v | wrOutBase v | wrFrames v | wrChannels v | wrIrqStatus v | wrIrqEnable v
    | wrCfgFs v | wrWtAddr v | wrWtData v | wrVoiceSel v =>
    exact decode_write (by decide) rfl v
  | rsv07C w v | rsv0AC w v | rsv100 w v | rsv12C w v | rsv14C w v =>
    exact decode_encodeReserved h (by decide) (by decide) rfl
  | rsv068 w k v => exact decode_rsv068 h (range_offset (0xD : BitVec 6) k)
  | rsv0B8 w k v => exact decode_rsv0B8 h (range_offset (0x17 : BitVec 6) k)
  | rsv0C0 w k v => exact decode_rsv0C0 h (range_offset (0x3 : BitVec 3) k)
  | rsv130 w k v => exact decode_rsv130 h (range_offset (0x13 : BitVec 5) k)
  | rsv150 w k v => exact decode_rsv150 h (range_offset (0x15 : BitVec 5) k)
  | rsv160 w k v => exact decode_rsv160 h (range_offset (0xB : BitVec 4) k)
  | rsv180 w k v => exact decode_rsv180 h (range_offset (0x3 : BitVec 2) k)
  | drainStep | renderStep => rfl

/-! ### Accesses -/

theorem encode_ite {c : Prop} [Decidable c] {i j : Instr} {p : Packet} (hi : c → encode i = p)
    (hj : ¬c → encode j = p) : encode (if c then i else j) = p := by
  by_cases hc : c
  · rw [if_pos hc]; exact hi hc
  · rw [if_neg hc]; exact hj hc

/-- A reserved access is encoded at its offset. -/
theorem encode_reservedInstr {off : BitVec 9} (ha : off.extractLsb' 0 2 = 0)
    (hn : atOffset off.toNat (rwReads ++ roReads) = none) (w : Bool) (v : Word) :
    encode (reservedInstr w off v) = encodeReserved w off v := by
  have off_eq {o : BitVec 9} (h : o = off) : encodeReserved w o v = encodeReserved w off v := by rw [h]
  unfold reservedInstr
  refine encode_ite (fun h => off_eq (range_offset_eq (n := 1) (0xD : BitVec 6) h ha)) fun _ => ?_
  refine encode_ite (fun h => off_eq (word_offset_eq h ha)) fun _ => ?_
  refine encode_ite (fun h => off_eq (word_offset_eq h ha)) fun _ => ?_
  refine encode_ite (fun h => off_eq (range_offset_eq (n := 1) (0x17 : BitVec 6) h ha)) fun _ => ?_
  refine encode_ite (fun h => off_eq (range_offset_eq (n := 4) (0x3 : BitVec 3) h ha)) fun _ => ?_
  refine encode_ite (fun h => off_eq (word_offset_eq h ha)) fun _ => ?_
  refine encode_ite (fun h => off_eq (word_offset_eq h ha)) fun _ => ?_
  refine encode_ite (fun h => off_eq (range_offset_eq (n := 2) (0x13 : BitVec 5) h ha)) fun _ => ?_
  refine encode_ite (fun h => off_eq (word_offset_eq h ha)) fun _ => ?_
  refine encode_ite (fun h => off_eq (range_offset_eq (n := 2) (0x15 : BitVec 5) h ha)) fun _ => ?_
  refine encode_ite (fun h => off_eq (range_offset_eq (n := 3) (0xB : BitVec 4) h ha)) fun _ => ?_
  have hlow := fun hk => Machine.reserved_words (off.toNat / 4) hk (by rw [four_mul_word ha]; exact hn)
  have h : off.toNat / 128 = 3 := by omega
  exact off_eq (range_offset_eq (n := 5) (0x3 : BitVec 2) h ha)

/-- An aligned access decodes to the instruction its register or its reserved range names. -/
theorem decode_aligned_access (w : Bool) {off : BitVec 9} (v : Word) (ha : off.extractLsb' 0 2 = 0) :
    ∃ i, decode (.access ⟨w, off, 4, v⟩) = .instr i ∧ encode i = .access ⟨w, off, 4, if w then v else 0⟩ := by
  have hoff : BitVec.ofNat 9 off.toNat = off := by simp
  cases hr : atOffset off.toNat (rwReads ++ roReads) with
  | none =>
    have hw := (atOffset_writes_none_iff off.toNat).2 hr
    exact ⟨_, decode_reserved w ha hw hr v, encode_reservedInstr ha hr w _⟩
  | some i =>
    cases w with
    | false =>
      refine ⟨i, decode_read ha hr v, ?_⟩
      rw [encode_of_mem_reads _ (Machine.mem_of_atOffset hr), hoff]
      rfl
    | true =>
      obtain ⟨f, hf⟩ : ∃ f, atOffset off.toNat (rwWrites ++ roWrites) = some f := by
        rw [← Option.ne_none_iff_exists', Ne, atOffset_writes_none_iff, hr]
        nofun
      refine ⟨f v, decode_write ha hf v, ?_⟩
      rw [encode_of_mem_writes v _ (Machine.mem_of_atOffset hf), hoff]
      rfl

/-- Settles O3: an aligned access is a register's or a reserved range's, any other access is rejected first. -/
theorem accessDecoding : Obligations.AccessDecoding := by
  unfold Obligations.AccessDecoding
  rintro ⟨w, off, width, v⟩
  refine ⟨?_, fun h => if_pos h⟩
  rintro ⟨rfl, ha⟩
  obtain ⟨i, hd, he⟩ := decode_aligned_access w v ha
  exact ⟨i, hd, Machine.decodeAccess_wf hd, he⟩

end Sys2Proof.Laws
end

section
/-! The legal operand values as bit patterns (30_encoding.md R102, R107, R108; 48_host_interface.md R306, R309). -/

namespace Sys2Proof.Machine

theorem isNaN32_eq_false_iff (v : Word) : isNaN32 v = false ↔ bits31 v ≤ 0x7F800000 := by
  rw [← Bool.not_eq_true, isNaN32_iff, Nat.not_lt]

/-- A pattern with the sign clear is its own order, one with the sign set counts down from -0.0. -/
theorem orderKey_cases (v : Word) :
    (v.toNat = bits31 v ∧ orderKey v = bits31 v) ∨ (v.toNat = bits31 v + 2 ^ 31 ∧ orderKey v = -bits31 v) := by
  rw [orderKey_eq, toNat_eq_bits31 v]
  cases signOf v
  · exact .inl ⟨rfl, rfl⟩
  · exact .inr ⟨rfl, rfl⟩

/-- Settles O5: each check is two comparisons, and the comparisons with 0, 1 and -1 are ranges of patterns. -/
theorem legalValues : Obligations.LegalValues := by
  unfold Obligations.LegalValues
  intro v
  have hv := orderKey_cases v
  have hb := bits31_lt v
  have hzero : isNaN32 zero32 = false ∧ orderKey zero32 = 0 := by decide
  have hone : isNaN32 one32 = false ∧ orderKey one32 = 0x3F800000 := by decide
  have hneg : isNaN32 negOne32 = false ∧ orderKey negOne32 = -0x3F800000 := by decide
  simp only [isUnit32, isCutoff, isHeadroom, isSampleRate, isTableValue, Bool.and_eq_true, le32_iff, lt32_iff,
    isNaN32_eq_false_iff v, isFinite32_iff v, hzero, hone, hneg, true_and]
  refine ⟨by omega, by omega, by omega, by omega, by omega, ?_⟩
  have hbool : v = 0 ∨ v = 1 ↔ v.toNat ≤ 1 := by bv_omega
  simpa [isBoolWord] using hbool

end Sys2Proof.Machine
end

section
/-! Where `RenderStep` does not run (30_encoding.md R112; 20_memory.md R88; 40_wavetable.md R130): not enabled, stuck,
or stopped by a table of which nothing is written. -/

namespace Sys2Proof.Machine

variable {s : State} {rest : List Turn}

/-! ### The step that takes a turn -/

theorem fetchEngine_render (h : s.engState = .render) : fetchEngine s = .run .renderStep s := by
  unfold fetchEngine
  rw [h]
  rfl

theorem step_idlePort_render (hp : s.port = []) (h : s.engState = .render) : step s = exec .renderStep s := by
  unfold step fetch
  rw [hp]
  dsimp only
  rw [fetchEngine_render h]

theorem step_engine_render (hp : s.port = .engine :: rest) (h : s.engState = .render) :
    step s = exec .renderStep { s with port := rest } := by
  unfold step fetch
  rw [hp]
  dsimp only
  rw [fetchEngine_render (s := { s with port := rest }) h]

theorem step_csr {a : CsrAccess} {i : Instr} (hp : s.port = .csr a :: rest) (hd : decode (.access a) = .instr i) :
    step s = exec i { s with port := rest } := by
  unfold step fetch
  rw [hp]
  dsimp only [fetchAccess]
  rw [hd]

theorem run_one (M : Host.Core) (s : M.State) : M.run 1 s = M.step s := by
  unfold Host.Core.run
  cases M.step s <;> rfl

/-! ### A stuck engine, and a fault in the first frame -/

/-- Where the platform does not admit the output range a render step changes nothing (log 8). -/
theorem exec_renderStep_stuck (h : s.engState = .render)
    (ha : admits s.par.memory s.blkBase.toNat (outputEnd s) = false) : exec .renderStep s = .next s := by
  change execRenderStep s = _
  unfold execRenderStep renderAdmitted
  rw [if_pos h, ha]
  rfl

theorem tableAt_unwritten {wt : List WtEntry} (hw : ∀ e ∈ wt, e.written = false) (k : Nat) : tableAt wt k = none := by
  unfold tableAt
  split
  · rename_i e he
    rw [hw e (List.mem_of_getElem? he)]
    rfl
  · rfl

theorem voiceSample_unwritten {wt : List WtEntry} (hw : ∀ e ∈ wt, e.written = false) (len : Nat) (p : ParamRegs)
    (v : Voice) : voiceSample len wt p v = .error .uninitTableRead := by
  simp [voiceSample, oscTick, wtSample, tableAt_unwritten hw]

/-- A frame stops at its first active voice. -/
theorem mixVoices_unwritten {wt : List WtEntry} (hw : ∀ e ∈ wt, e.written = false) (len : Nat) (p : ParamRegs) :
    ∀ (vs : List Voice) (acc : Word), (∃ v ∈ vs, v.active = true) → mixVoices len wt p vs acc = .error .uninitTableRead
  | [], _, h => by simp at h
  | v :: vs, acc, h => by
    unfold mixVoices
    split
    · rw [voiceSample_unwritten hw]
    · rename_i hv
      have hvs : ∃ u ∈ vs, u.active = true := by simpa [hv] using h
      rw [mixVoices_unwritten hw len p vs acc hvs]

theorem renderFrames_unwritten (hw : ∀ e ∈ s.wt, e.written = false) (hv : ∃ v ∈ s.voices, v.active = true)
    {n : Nat} (hn : n ≠ 0) (f : Nat) : renderFrames n f s = .error .uninitTableRead := by
  obtain ⟨n, rfl⟩ := Nat.exists_eq_succ_of_ne_zero hn
  unfold renderFrames mixFrame
  rw [mixVoices_unwritten hw _ _ _ _ hv]

theorem exec_renderStep_unwritten (h : s.engState = .render)
    (ha : admits s.par.memory s.blkBase.toNat (outputEnd s) = true) (hf : s.blkFrames ≠ 0)
    (hv : ∃ v ∈ s.voices, v.active = true) (hw : ∀ e ∈ s.wt, e.written = false) :
    exec .renderStep s = .fault .uninitTableRead := by
  have hn : s.blkFrames.toNat ≠ 0 := fun h0 => hf (BitVec.eq_of_toNat_eq h0)
  change execRenderStep s = _
  unfold execRenderStep renderAdmitted
  rw [if_pos h, if_pos ha, renderFrames_unwritten hw hv hn]

/-- Settles O46: the guards of `RenderStep` in order, and the fault of the first frame. -/
theorem renderStops : Obligations.RenderStops := by
  unfold Obligations.RenderStops
  intro s
  refine ⟨fun h => if_neg h, fun h ha => ⟨exec_renderStep_stuck h ha, fun hp => ?_, fun rest hp => ?_⟩,
    exec_renderStep_unwritten⟩
  · rw [step_idlePort_render hp h, exec_renderStep_stuck h ha]
  · have hpass : step s = .next { s with port := rest } := by
      rw [step_engine_render hp h]
      exact exec_renderStep_stuck (s := { s with port := rest }) h ha
    refine ⟨hpass, fun a i rest' hr hd => ?_⟩
    exact (run_succ (M := core) 1 hpass).trans ((run_one core _).trans (step_csr hr hd))

end Sys2Proof.Machine
end

section
/-! The encoding examples of 30_encoding.md R116. -/

namespace Sys2Proof.Laws

/-- Settles O4: each word decoded. -/
theorem encodingExamples : Obligations.EncodingExamples := by
  unfold Obligations.EncodingExamples
  decide

end Sys2Proof.Laws
end

section
/-! The envelope (42_envelope.md R160 to R165): the tick's rule in each stage, and the end of a release (R165). -/

namespace Sys2Proof.Machine

variable {p : ParamRegs} {v : Voice}

/-! ### One stage rule each tick -/

theorem envTick_of_idle (h : v.stage = .idle) : envTick p v = idleTick v := by simp only [envTick, h]

theorem envTick_of_attack (h : v.stage = .attack) : envTick p v = attackTick p v := by simp only [envTick, h]

theorem envTick_of_decay (h : v.stage = .decay) : envTick p v = decayTick p v := by simp only [envTick, h]

theorem envTick_of_sustain (h : v.stage = .sustain) : envTick p v = sustainTick p v := by simp only [envTick, h]

theorem envTick_of_release (h : v.stage = .release) : envTick p v = releaseTick v := by simp only [envTick, h]

/-- Settles O41: the stage's own rule, whose two ways to reach the target make one disjunction. -/
theorem envelopeTick : Obligations.EnvelopeTick := by
  unfold Obligations.EnvelopeTick
  intro p v
  refine ⟨fun h => envTick_of_idle h, fun h => ?_, fun h => ?_, fun h => envTick_of_sustain h, fun h => ?_⟩
  · rw [envTick_of_attack h, ite_or]; rfl
  · rw [envTick_of_decay h, ite_or]; rfl
  · rw [envTick_of_release h]; rfl

/-! ### The end of a release -/

/-- What a release ends in (R165): Idle at +0.0, the counter cleared. -/
def ReleaseEnded (v : Voice) : Prop := v.stage = .idle ∧ v.level = 0 ∧ v.relCnt = 0

/-- An ended release stays as it is: the rule of Idle writes the level it finds. -/
theorem ReleaseEnded.envTick_eq_self (h : ReleaseEnded v) : envTick p v = v := by
  obtain ⟨hs, hl, _⟩ := h
  rw [envTick_of_idle hs, idleTick, show zero32 = v.level from hl.symm]

/-- A tick in Release ends it, or lowers the level by `REL_DEC` and the counter, which is above 1, by one. -/
theorem releaseTick_cases (v : Voice) :
    ReleaseEnded (releaseTick v) ∨
      (1 < v.relCnt.toNat ∧ releaseTick v = { v with level := sub32 v.level v.relDec, relCnt := v.relCnt - 1 }) := by
  unfold releaseTick
  split
  · exact .inl ⟨rfl, rfl, rfl⟩
  · rename_i h
    exact .inr ⟨Nat.lt_of_not_le fun hc => h (.inl hc), rfl⟩

/-- The counter bounds the ticks a release still takes. -/
theorem releaseEnded_iterate_envTick (k : Nat) :
    ∀ v : Voice, v.stage = .release → v.relCnt.toNat ≤ k + 1 → ReleaseEnded ((envTick p)^[k + 1] v) := by
  induction k with
  | zero =>
    intro v hs hc
    rw [Function.iterate_one, envTick_of_release hs]
    exact (releaseTick_cases v).resolve_right fun ⟨h1, _⟩ => absurd hc (Nat.not_le_of_lt h1)
  | succ k ih =>
    intro v hs hc
    rw [Function.iterate_succ_apply, envTick_of_release hs]
    obtain he | ⟨h1, heq⟩ := releaseTick_cases v
    · rwa [Function.iterate_fixed he.envTick_eq_self]
    · rw [heq]
      refine ih _ hs ?_
      have hsub : (v.relCnt - 1).toNat = v.relCnt.toNat - 1 := by bv_omega
      change (v.relCnt - 1).toNat ≤ k + 1
      omega

/-- A release never raises the level: +0.0 is below every level, and a decrement not negative rounds to a level not above
(R165, R172). -/
theorem releaseTick_level_le (hl : isUnit32 v.level = true) (hd : isNonneg32 v.relDec = true) :
    le32 (releaseTick v).level v.level = true := by
  obtain ⟨lf, l0, _⟩ := (isUnit32_iff v.level).1 hl
  obtain ⟨df, d0⟩ := (isNonneg32_iff v.relDec).1 hd
  obtain ⟨_, hz, _⟩ | ⟨_, heq⟩ := releaseTick_cases v
  · rw [hz]
    exact (le32_zero_iff lf).2 l0
  · rw [heq]
    exact sub32_le lf df lf (by omega)

/-- Settles O42: the release ends by induction on the ticks the counter leaves, and each tick's level is not above the one
before. -/
theorem releaseEnds : Obligations.ReleaseEnds := by
  unfold Obligations.ReleaseEnds
  intro p v hs
  refine ⟨fun k hk hc => ?_, fun hl hd => ?_⟩
  · obtain ⟨k, rfl⟩ := Nat.exists_eq_add_of_le' hk
    exact releaseEnded_iterate_envTick k v hs hc
  · rw [envTick_of_release hs]
    exact releaseTick_level_le hl hd

end Sys2Proof.Machine
end

section
/-! One voice's sample (44_voice.md R190), over the sample of the table at the phase held before. -/

namespace Sys2Proof.Machine

variable {len : Nat} {wt : List WtEntry} {p : ParamRegs} {v : Voice}

/-! ### What an envelope tick keeps (42_envelope.md R160) -/

@[simp] theorem envTick_phase (p : ParamRegs) (v : Voice) : (envTick p v).phase = v.phase := by rw [envTick_eq]

@[simp] theorem envTick_inc (p : ParamRegs) (v : Voice) : (envTick p v).inc = v.inc := by rw [envTick_eq]

@[simp] theorem envTick_vel (p : ParamRegs) (v : Voice) : (envTick p v).vel = v.vel := by rw [envTick_eq]

@[simp] theorem envTick_y1 (p : ParamRegs) (v : Voice) : (envTick p v).y1 = v.y1 := by rw [envTick_eq]

/-! ### The table's sample (40_wavetable.md R130) -/

theorem wtSample_of_written {ph t0 t1 : Word} (h0 : tableAt wt (floor32 (wrapL len ph) % len) = some t0)
    (h1 : tableAt wt ((floor32 (wrapL len ph) % len + 1) % len) = some t1) :
    wtSample len wt ph = .ok (add32 t0 (mul32 (frac32 (wrapL len ph)) (sub32 t1 t0))) := by
  simp only [wtSample, h0, h1]

theorem wtSample_of_unwritten {ph : Word}
    (h : tableAt wt (floor32 (wrapL len ph) % len) = none ∨ tableAt wt ((floor32 (wrapL len ph) % len + 1) % len) = none) :
    wtSample len wt ph = .error .uninitTableRead := by
  obtain h0 | h1 := h
  · simp only [wtSample, h0]
  · simp only [wtSample, h1]
    cases tableAt wt (floor32 (wrapL len ph) % len) <;> rfl

/-! ### The voice's sample over the table's -/

/-- A filter step's output: the low-pass step while the filter is enabled, otherwise the input (43_filter.md R181). -/
theorem filtStep_fst (p : ParamRegs) (x : Word) (v : Voice) :
    (filtStep p x v).1 = if p.filterEnable then lowPass p.coef v.y1 x else x := by
  unfold filtStep
  split <;> rfl

/-- The oscillator reads the phase the envelope's tick kept, so the table's sample decides the voice's. -/
theorem voiceSample_of_wtSample_ok {o : Word} (h : wtSample len wt v.phase = .ok o) :
    voiceSample len wt p v =
      let x := mul32 (mul32 (envTick p v).level v.vel) o
      let y := if p.filterEnable then lowPass p.coef v.y1 x else x
      .ok (y, { envTick p v with phase := nextPhase len v, y1 := y }) := by
  simp only [voiceSample, oscTick, envTick_phase, h]
  rw [filtStep_eq, filtStep_fst]
  simp only [nextPhase, envTick_phase, envTick_inc, envTick_vel, envTick_y1]

theorem voiceSample_of_wtSample_error {f : Fault} (h : wtSample len wt v.phase = .error f) :
    voiceSample len wt p v = .error f := by
  simp only [voiceSample, oscTick, envTick_phase, h]

/-- Settles O43: both table entries written give the sample of R130 and with it the voice's; either one never written is
the fault. -/
theorem voiceTick : Obligations.VoiceTick := by
  unfold Obligations.VoiceTick
  intro len wt p v
  refine ⟨fun t0 t1 h0 h1 => ?_, fun h => ?_⟩
  · exact voiceSample_of_wtSample_ok (wtSample_of_written h0 h1)
  · exact voiceSample_of_wtSample_error (wtSample_of_unwritten h)

end Sys2Proof.Machine
end

section
/-! A note-on by which voice it finds (45_voice_manager.md R200 to R203, R205): the retrigger of a sounding note, the lowest
free voice, the steal. Each is one equation of the whole next state. -/

namespace Sys2Proof.Machine

variable {n : BitVec 7} {s : State} {i : Nat} {v : Voice}

/-! ### The chosen voice -/

/-- What a trigger writes over a release leaves nothing of the release (42_envelope.md R170). -/
theorem assignVoice_releaseVoice (len : Nat) (fs : Word) (p : ParamRegs) (n : BitVec 7) (vel : Word) (seq : BitVec 64)
    (r : Word) (v : Voice) : assignVoice len fs p n vel seq (releaseVoice r v) = assignVoice len fs p n vel seq v := by
  rw [releaseVoice_eq]
  rfl

/-- The assignment of a voice that sounds already: it stays active. -/
theorem assignVoice_active (len : Nat) (fs : Word) (p : ParamRegs) (n : BitVec 7) (vel : Word) (seq : BitVec 64)
    (ha : v.active = true) : assignVoice len fs p n vel seq v =
      { v with note := n, vel := vel, inc := incFor len fs n, phase := if p.phaseReset then zero32 else v.phase,
               seq := seq, stage := .attack, relCnt := 0, relDec := zero32 } := by
  simp only [assignVoice, triggerVoice, ha]

theorem retrigChoice_none (h : s.p.retrigMode = true → ∀ u ∈ s.voices, u.active = true → u.note ≠ n) :
    (if s.p.retrigMode then retrigSelect n s.voices else none) = none := by
  split
  · next hr => exact retrigSelect_none (h hr)
  · rfl

theorem chooseVoice_retrig (hr : s.p.retrigMode = true) (h : retrigSelect n s.voices = some i) :
    chooseVoice n s = (i, s) := by
  simp only [chooseVoice, hr, if_true, h]

theorem chooseVoice_free (hr : s.p.retrigMode = true → ∀ u ∈ s.voices, u.active = true → u.note ≠ n)
    (h : freeIndex s.voices = some i) : chooseVoice n s = (i, modifyVoice i (fun v => { v with y1 := zero32 }) s) := by
  simp only [chooseVoice, retrigChoice_none hr, h]

theorem chooseVoice_steal (hr : s.p.retrigMode = true → ∀ u ∈ s.voices, u.active = true → u.note ≠ n)
    (h : freeIndex s.voices = none) : chooseVoice n s = (stealVictim s.voices, steal (stealVictim s.voices) s) := by
  simp only [chooseVoice, retrigChoice_none hr, h]

/-! ### The steal victim -/

variable {vs : List Voice}

/-- Among numbers the comparisons of binary32 are those of the keys. -/
theorem compare32_iff_orderKey {a b : Word} (ha : isNaN32 a = false) (hb : isNaN32 b = false) :
    (le32 a b = true ↔ orderKey a ≤ orderKey b) ∧ (lt32 a b = true ↔ orderKey a < orderKey b) := by
  simp only [le32_iff, lt32_iff, ha, hb, true_and, and_self]

/-- The order of R204 by keys: where the releasing voices' levels are numbers, the victim is the least by level among
them, and with none releasing the least by stamp. -/
theorem isVictim_iff_leastOf (hn : ∀ u ∈ vs, isReleasing u = true → isNaN32 u.level = false) :
    IsVictim vs i v ↔ LeastOf (fun u => orderKey u.level) isReleasing vs (some (i, v)) ∨
      (∀ u ∈ vs, isReleasing u = false) ∧ LeastOf (fun u => (u.seq.toNat : Int)) (fun _ => true) vs (some (i, v)) := by
  have hnone : (∀ u ∈ vs, isReleasing u = false) ↔ ∀ u ∈ vs, u.stage ≠ .release ∧ u.stage ≠ .idle := by
    simp only [← Bool.not_eq_true, isReleasing_iff, not_or]
  have hstamp : ∀ u : Voice, (v.seq ≤ u.seq ↔ (v.seq.toNat : Int) ≤ u.seq.toNat) ∧
      (v.seq < u.seq ↔ (v.seq.toNat : Int) < u.seq.toNat) := fun u => by
    simp only [BitVec.le_def, BitVec.lt_def, Nat.cast_le, Nat.cast_lt, and_self]
  unfold IsVictim LeastOf
  simp only [← isReleasing_iff, ← hnone, and_or_left, (hstamp _).1, (hstamp _).2, true_and, forall_true_left]
  refine or_congr (and_congr_right fun hv => and_congr_right fun hr => ?_) and_left_comm
  refine forall₄_congr fun j u hu hru => ?_
  obtain ⟨hle, hlt⟩ := compare32_iff_orderKey (hn v (List.mem_of_getElem? hv) hr) (hn u (List.mem_of_getElem? hu) hru)
  rw [hle, hlt]

/-- A victim's level compares with every releasing voice's, so none is a NaN. -/
theorem IsVictim.level_isNumber (h : IsVictim vs i v) : ∀ u ∈ vs, isReleasing u = true → isNaN32 u.level = false := by
  intro u hu hr
  obtain ⟨_, ⟨_, hleast⟩ | ⟨hnone, _⟩⟩ := h
  · obtain ⟨j, hj⟩ := List.mem_iff_getElem?.1 hu
    exact ((le32_iff _ _).1 (hleast j u hj ((isReleasing_iff u).1 hr)).1).2.1
  · obtain ⟨hrel, hidle⟩ := hnone u hu
    exact absurd ((isReleasing_iff u).1 hr) (by simp only [hrel, hidle, or_self, not_false_iff])

theorem IsVictim.unique {j : Nat} {u : Voice} (h : IsVictim vs i v) (h' : IsVictim vs j u) : i = j ∧ v = u := by
  have hi : v ∈ vs := List.mem_of_getElem? h.1
  have hj : u ∈ vs := List.mem_of_getElem? h'.1
  rw [isVictim_iff_leastOf h.level_isNumber] at h'
  rw [isVictim_iff_leastOf h.level_isNumber] at h
  obtain hl | ⟨hnone, ho⟩ := h <;> obtain hl' | ⟨hnone', ho'⟩ := h'
  · exact leastOf_unique hl hl'
  · obtain ⟨_, hr, _⟩ := hl
    exact absurd hr (by rw [hnone' v hi]; decide)
  · obtain ⟨_, hr, _⟩ := hl'
    exact absurd hr (by rw [hnone u hj]; decide)
  · exact leastOf_unique ho ho'

/-- The model's victim is the one of R204, whatever the pool. -/
theorem isVictim_stealVictim (hne : vs ≠ []) (hn : ∀ u ∈ vs, isReleasing u = true → isNaN32 u.level = false) :
    ∃ v, IsVictim vs (stealVictim vs) v := by
  simp only [isVictim_iff_leastOf hn]
  by_cases h : ∃ u ∈ vs, isReleasing u = true
  · obtain ⟨v, hv⟩ := stealVictim_releasing hn h
    exact ⟨v, .inl hv⟩
  · have hnone : ∀ u ∈ vs, isReleasing u = false := by simpa using h
    obtain ⟨v, hv⟩ := stealVictim_oldest hne hnone
    exact ⟨v, .inr ⟨hnone, hv⟩⟩

theorem IsVictim.stealVictim_eq (h : IsVictim vs i v) : stealVictim vs = i := by
  obtain ⟨u, hu⟩ := isVictim_stealVictim (List.ne_nil_of_mem (List.mem_of_getElem? h.1)) h.level_isNumber
  exact (hu.unique h).1

theorem isNaN32_of_isLevel {x : Word} (h : isLevel x = true) : isNaN32 x = false := by
  obtain ⟨hu, _⟩ := (isLevel_iff x).1 h
  exact isNaN32_of_finite ((isUnit32_iff x).1 hu).1

/-- Settles O34: the model's own victim is one, and the keys of R204 leave no second. -/
theorem victimUnique : Obligations.VictimUnique := by
  unfold Obligations.VictimUnique
  intro vs hne hl
  obtain ⟨v, hv⟩ := isVictim_stealVictim hne fun u hu _ => isNaN32_of_isLevel (hl u hu)
  exact ⟨_, v, hv, fun j u hu => hu.unique hv⟩

/-! ### The whole note-on -/

/-- R202: the chosen voice is assigned as it stands. -/
theorem vmNoteOn_retrig (vel : Word) (hr : s.p.retrigMode = true) (hv : s.voices[i]? = some v) (ha : v.active = true)
    (hn : v.note = n) (hb : ∀ j u, j < i → s.voices[j]? = some u → ¬(u.active = true ∧ u.note = n)) :
    vmNoteOn n vel s =
      { s with trigSeq := s.trigSeq + 1,
               voices := s.voices.set i (assignVoice s.par.tableLen s.fs s.p n vel (s.trigSeq + 1) v) } := by
  rw [vmNoteOn, chooseVoice_retrig (s := { s with trigSeq := s.trigSeq + 1 }) hr (retrigSelect_some hv ha hn hb),
    ← modify_eq_set hv]
  rfl

/-- R203: the lowest free voice is assigned with its filter history cleared. -/
theorem vmNoteOn_free (vel : Word) (hr : s.p.retrigMode = true → ∀ u ∈ s.voices, u.active = true → u.note ≠ n)
    (hv : s.voices[i]? = some v) (hf : v.active = false)
    (hb : ∀ j u, j < i → s.voices[j]? = some u → u.active = true) :
    vmNoteOn n vel s =
      { s with trigSeq := s.trigSeq + 1,
               voices := s.voices.set i
                 (assignVoice s.par.tableLen s.fs s.p n vel (s.trigSeq + 1) { v with y1 := zero32 }) } := by
  rw [vmNoteOn, chooseVoice_free (s := { s with trigSeq := s.trigSeq + 1 }) hr (freeIndex_some hv hf hb)]
  simp only [assign, modifyVoice, modify_modify]
  rw [modify_eq_set hv]

/-- R205: the victim is assigned; nothing shows of its forced release. -/
theorem vmNoteOn_steal (vel : Word) (hr : s.p.retrigMode = true → ∀ u ∈ s.voices, u.active = true → u.note ≠ n)
    (ha : ∀ u ∈ s.voices, u.active = true) (hv : IsVictim s.voices i v) :
    vmNoteOn n vel s =
      { s with trigSeq := s.trigSeq + 1, stealCount := s.stealCount + 1,
               voices := s.voices.set i (assignVoice s.par.tableLen s.fs s.p n vel (s.trigSeq + 1) v) } := by
  rw [vmNoteOn, chooseVoice_steal (s := { s with trigSeq := s.trigSeq + 1 }) hr (freeIndex_none ha)]
  simp only [hv.stealVictim_eq, assign, steal, modifyVoice, modify_modify, assignVoice_releaseVoice]
  rw [modify_eq_set hv.1]

theorem exec_noteOn (n : BitVec 7) (vel : Word) (ts : BitVec 64) (s : State) :
    exec (.noteOn n vel ts) s = .next (vmNoteOn n vel s) := rfl

/-- Settles O31, by the note-on that finds a free voice. -/
theorem noteOnFreeVoice : Obligations.NoteOnFreeVoice := by
  unfold Obligations.NoteOnFreeVoice
  intro n vel ts s i v hr hv hf hb
  rw [exec_noteOn, vmNoteOn_free vel hr hv hf hb]
  rfl

/-- Settles O32, by the note-on that retriggers. -/
theorem noteOnRetrigger : Obligations.NoteOnRetrigger := by
  unfold Obligations.NoteOnRetrigger
  rintro n vel ts s i v hr hv ha rfl hb
  rw [exec_noteOn, vmNoteOn_retrig vel hr hv ha rfl hb, assignVoice_active (ha := ha)]
  rfl

/-- Settles O33, by the note-on that steals. -/
theorem noteOnSteal : Obligations.NoteOnSteal := by
  unfold Obligations.NoteOnSteal
  intro n vel ts s i v hr ha hv
  have hact : v.active = true := ha v (List.mem_of_getElem? hv.1)
  rw [exec_noteOn, vmNoteOn_steal vel (fun h u hu _ => hr h u hu) ha hv, assignVoice_active (ha := hact)]
  rfl

end Sys2Proof.Machine
end

section
/-! The voices a note-off releases and a reclaim frees (45_voice_manager.md R207, R208), voice by voice. -/

namespace Sys2Proof.Machine

/-! ### Note-off -/

/-- The release of R166 as one condition: the sounding stages enter Release, Idle and Release keep the voice. -/
theorem releaseVoice_eq_ite (r : Word) (v : Voice) :
    releaseVoice r v = if v.stage ≠ .idle ∧ v.stage ≠ .release then
        { v with stage := .release, relCnt := r, relDec := if r = 0 then 0 else div32 v.level (u2f r) }
      else v := by
  cases h : v.stage <;> simp [releaseVoice, h, zero32]

theorem exec_noteOff (n : BitVec 7) (ts : BitVec 64) (s : State) : exec (.noteOff n ts) s = .next (vmNoteOff n s) := rfl

/-- Settles O35: the note-off maps the release over the active voices of the note. -/
theorem noteOffReleases : Obligations.NoteOffReleases := by
  unfold Obligations.NoteOffReleases
  intro n ts s
  rw [exec_noteOff, vmNoteOff]
  congr 3
  funext v
  rw [releaseVoice_eq_ite, ← ite_and]
  simp only [Bool.and_eq_true, beq_iff_eq, and_assoc]

/-! ### Reclaim -/

theorem isFinished_iff (v : Voice) : isFinished v = true ↔ v.active = true ∧ v.stage = .idle := by
  rw [isFinished, Bool.and_eq_true, decide_eq_true_eq]

/-- The reclaim of one voice as one condition (R208). -/
theorem reclaimVoice_eq_ite (v : Voice) :
    reclaimVoice v = if v.active = true ∧ v.stage = .idle then { v with active := false } else v := by
  simp only [reclaimVoice, isFinished_iff]

theorem reclaimVoice_of_not_finished {v : Voice} (h : ¬(v.active = true ∧ v.stage = .idle)) : reclaimVoice v = v := by
  rw [reclaimVoice_eq_ite, if_neg h]

/-- A reclaim leaves no voice finished. -/
theorem reclaimVoice_not_finished (v : Voice) : ¬((reclaimVoice v).active = true ∧ (reclaimVoice v).stage = .idle) := by
  rw [reclaimVoice_eq_ite]
  split
  · exact fun h => Bool.noConfusion h.1
  · assumption

theorem reclaim_of_none_finished {s : State} (h : ∀ v ∈ s.voices, ¬(v.active = true ∧ v.stage = .idle)) :
    reclaim s = s := by
  rw [reclaim, List.map_congr_left fun v hv => reclaimVoice_of_not_finished (h v hv), List.map_id']

/-- Settles O37: a first reclaim leaves no voice finished, and with none finished a reclaim changes nothing. -/
theorem reclaimIdempotent : Obligations.ReclaimIdempotent := by
  unfold Obligations.ReclaimIdempotent
  intro s
  refine ⟨?_, reclaim_of_none_finished fun v hv => ?_, reclaim_of_none_finished⟩
  · rw [reclaim, funext reclaimVoice_eq_ite]
  · obtain ⟨u, _, rfl⟩ := List.mem_map.1 hv
    exact reclaimVoice_not_finished u

end Sys2Proof.Machine
end

section
/-! One note-on more than the pool has voices (45_voice_manager.md R210): the note-ons before the last fill the pool in
order, and the last steals voice 0, the oldest. -/

namespace Sys2Proof.Machine

variable {s u : State}

/-! ### Events in order -/

theorem applyEvents_append : ∀ (es fs : List EvtWord) (s : State),
    applyEvents (es ++ fs) s = applyEvents fs (applyEvents es s)
  | [], _, _ => rfl
  | e :: es, fs, s => applyEvents_append es fs (applyEvent e s)

theorem applyEvent_noteOn {e : EvtWord} {n : BitVec 7} {vel : Word} (h : decodeEvent e.w0 e.w1 = .noteOn n vel)
    (s : State) : applyEvent e s = vmNoteOn n vel s := by
  rw [applyEvent, h]

/-! ### A pool that fills up -/

/-- The voice the note-on `e` has just triggered. -/
def TriggeredBy (e : EvtWord) (v : Voice) : Prop :=
  v.active = true ∧ v.stage = .attack ∧ decodeEvent e.w0 e.w1 = .noteOn v.note v.vel

theorem TriggeredBy.assignVoice {e : EvtWord} {n : BitVec 7} {vel : Word} (h : decodeEvent e.w0 e.w1 = .noteOn n vel)
    (len : Nat) (fs : Word) (p : ParamRegs) (seq : BitVec 64) (v : Voice) :
    TriggeredBy e (Machine.assignVoice len fs p n vel seq v) := ⟨rfl, rfl, h⟩

theorem TriggeredBy.fields {e : EvtWord} {v : Voice} {n : BitVec 7} {vel : Word} (h : TriggeredBy e v)
    (hd : decodeEvent e.w0 e.w1 = .noteOn n vel) : v.note = n ∧ v.vel = vel ∧ v.stage = .attack := by
  obtain ⟨_, hs, hv⟩ := h
  cases hv.symm.trans hd
  exact ⟨rfl, rfl, hs⟩

/-- The pool of `u` after `k` of the note-ons `es` on the free pool of `s`: voice j below k holds event j and the stamp
after `s`'s by j + 1, the voices from k on are free, and nothing was stolen (45_voice_manager.md R210). -/
structure FilledTo (s : State) (es : List EvtWord) (k : Nat) (u : State) : Prop where
  length : u.voices.length = s.voices.length
  overlap : u.p.retrigMode = false
  stamp : u.trigSeq.toNat = s.trigSeq.toNat + k
  steals : u.stealCount = s.stealCount
  taken : ∀ j v, j < k → u.voices[j]? = some v → v.seq.toNat = s.trigSeq.toNat + j + 1 ∧ ∃ e, es[j]? = some e ∧ TriggeredBy e v
  free : ∀ j v, k ≤ j → u.voices[j]? = some v → v.active = false

variable {es : List EvtWord} {e : EvtWord} {n : BitVec 7} {vel : Word} {k : Nat}

/-- The next note-on takes the next voice while one is free. -/
theorem FilledTo.succ (h : FilledTo s es k u) (hk : k < s.voices.length) (he : es[k]? = some e)
    (hd : decodeEvent e.w0 e.w1 = .noteOn n vel) (hb : s.trigSeq.toNat + (k + 1) < 2 ^ 64) :
    FilledTo s es (k + 1) (applyEvent e u) := by
  have hku : k < u.voices.length := h.length ▸ hk
  have hv : u.voices[k]? = some u.voices[k] := List.getElem?_eq_getElem hku
  have hstamp : (u.trigSeq + 1).toNat = s.trigSeq.toNat + (k + 1) := by
    have := h.stamp
    rw [BitVec.toNat_add]
    simp
    omega
  rw [applyEvent_noteOn hd, vmNoteOn_free vel (by simp [h.overlap]) hv (h.free k _ le_rfl hv)
    fun j w hj hw => by obtain ⟨_, _, _, ha, _⟩ := h.taken j w hj hw; exact ha]
  refine ⟨by rw [List.length_set, h.length], h.overlap, hstamp, h.steals, fun j w hj hw => ?_, fun j w hj hw => ?_⟩
  · obtain hj | rfl := Nat.lt_succ_iff_lt_or_eq.1 hj
    · rw [List.getElem?_set_ne (by omega)] at hw
      exact h.taken j w hj hw
    · rw [List.getElem?_set_self hku] at hw
      cases hw
      exact ⟨hstamp, e, he, TriggeredBy.assignVoice hd ..⟩
  · rw [List.getElem?_set_ne (by omega)] at hw
    exact h.free j w (by omega) hw

/-- As many note-ons as the pool has voices fill it. -/
theorem filledTo_applyEvents (hr : s.p.retrigMode = false) (hf : ∀ v ∈ s.voices, v.active = false)
    (hd : ∀ e ∈ es, ∃ n vel, decodeEvent e.w0 e.w1 = .noteOn n vel) (hb : s.trigSeq.toNat + s.voices.length < 2 ^ 64) :
    ∀ k, k ≤ es.length → k ≤ s.voices.length → FilledTo s es k (applyEvents (es.take k) { s with fifo := [] })
  | 0, _, _ => ⟨rfl, hr, rfl, rfl, fun _ _ hj => absurd hj (Nat.not_lt_zero _), fun _ v _ hv => hf v (List.mem_of_getElem? hv)⟩
  | k + 1, hke, hks => by
    have he : es[k]? = some es[k] := List.getElem?_eq_getElem hke
    obtain ⟨n, vel, hn⟩ := hd es[k] (List.getElem_mem hke)
    rw [List.take_add_one, he, applyEvents_append]
    exact (filledTo_applyEvents hr hf hd hb k (by omega) (by omega)).succ hks he hn (by omega)

/-! ### The full pool -/

/-- The filled pool's voices, one by one. -/
theorem FilledTo.voice (h : FilledTo s es s.voices.length u) {j : Nat} {v : Voice} (hv : u.voices[j]? = some v) :
    v.seq.toNat = s.trigSeq.toNat + j + 1 ∧ ∃ e, es[j]? = some e ∧ TriggeredBy e v :=
  h.taken j v (h.length ▸ (List.getElem?_eq_some_iff.1 hv).1) hv

theorem FilledTo.triggered (h : FilledTo s es s.voices.length u) : ∀ v ∈ u.voices, v.active = true ∧ v.stage = .attack := by
  intro v hv
  obtain ⟨j, hj⟩ := List.mem_iff_getElem?.1 hv
  obtain ⟨_, _, _, ha, hs, _⟩ := h.voice hj
  exact ⟨ha, hs⟩

/-- Voice 0 is the victim of the filled pool: none is releasing, and its stamp is the least (R204). -/
theorem FilledTo.isVictim (h : FilledTo s es s.voices.length u) {v : Voice} (hv : u.voices[0]? = some v) :
    IsVictim u.voices 0 v := by
  refine ⟨hv, .inr ⟨fun w hw => by simp [(h.triggered w hw).2], fun j w hw => ⟨?_, fun hj => absurd hj (Nat.not_lt_zero _)⟩⟩⟩
  have h0 := (h.voice hv).1
  have hj := (h.voice hw).1
  rw [BitVec.le_def]
  omega

/-- The note-on after the last free voice steals voice 0 and counts the steal (R205). -/
theorem FilledTo.steal (h : FilledTo s es s.voices.length u) {v : Voice} (hv : u.voices[0]? = some v)
    (hd : decodeEvent e.w0 e.w1 = .noteOn n vel) :
    ∃ w, TriggeredBy e w ∧ (applyEvent e u).voices = u.voices.set 0 w ∧ (applyEvent e u).stealCount = s.stealCount + 1 := by
  rw [applyEvent_noteOn hd, vmNoteOn_steal vel (by simp [h.overlap]) (fun w hw => (h.triggered w hw).1) (h.isVictim hv),
    ← h.steals]
  exact ⟨_, TriggeredBy.assignVoice hd .., rfl, rfl⟩

theorem FilledTo.triggered_set (h : FilledTo s es s.voices.length u) {w : Voice} (hw : TriggeredBy e w) :
    ∀ v ∈ u.voices.set 0 w, v.active = true ∧ v.stage = .attack := by
  intro v hv
  obtain ⟨ha, hs, _⟩ := hw
  obtain hv | rfl := List.mem_or_eq_of_mem_set hv
  · exact h.triggered v hv
  · exact ⟨ha, hs⟩

/-- The whole drain: the pool filled, voice 0 stolen by the last event, and nothing reclaimed (R271). -/
theorem drainBlock_capacityPlusOne (hr : s.p.retrigMode = false) (hpos : 0 < s.voices.length)
    (hf : ∀ v ∈ s.voices, v.active = false) (hlen : s.fifo.length = s.voices.length + 1)
    (hd : ∀ e ∈ s.fifo, ∃ n vel, decodeEvent e.w0 e.w1 = .noteOn n vel)
    (hb : s.trigSeq.toNat + s.voices.length < 2 ^ 64) :
    ∃ u e w, FilledTo s s.fifo s.voices.length u ∧ s.fifo[s.voices.length]? = some e ∧ TriggeredBy e w ∧
      (drainBlock s).voices = u.voices.set 0 w ∧ (drainBlock s).stealCount = s.stealCount + 1 := by
  obtain ⟨u, hu⟩ : ∃ u, u = applyEvents (s.fifo.take s.voices.length) { s with fifo := [] } := ⟨_, rfl⟩
  have hfill : FilledTo s s.fifo s.voices.length u :=
    hu ▸ filledTo_applyEvents hr hf hd hb s.voices.length (by omega) le_rfl
  have hlast : s.voices.length < s.fifo.length := by omega
  obtain ⟨n, vel, hn⟩ := hd _ (List.getElem_mem hlast)
  obtain ⟨w, hw, hvoices, hsteals⟩ := hfill.steal (List.getElem?_eq_getElem (hfill.length ▸ hpos)) hn
  have hevents : applyEvents s.fifo { s with fifo := [] } = applyEvent s.fifo[s.voices.length] u := by
    calc applyEvents s.fifo { s with fifo := [] }
        = applyEvents (s.fifo.take s.voices.length ++ [s.fifo[s.voices.length]]) { s with fifo := [] } := by
          rw [List.take_append_getElem, List.take_of_length_le (by omega)]
      _ = applyEvent s.fifo[s.voices.length] u := by rw [applyEvents_append, ← hu]; rfl
  refine ⟨u, _, w, hfill, List.getElem?_eq_getElem hlast, hw, ?_, ?_⟩
  · rw [drainBlock, hevents, reclaim_of_none_finished, hvoices]
    rw [hvoices]
    exact fun v hv => by simp [(hfill.triggered_set hw v hv).2]
  · rw [drainBlock, hevents]
    exact hsteals

/-- Settles O36: every voice of the filled pool is active, and the voice of each event but the first is where R203 and
R204 put it. -/
theorem capacityPlusOne : Obligations.CapacityPlusOne := by
  unfold Obligations.CapacityPlusOne
  intro s hdrain hr hpos hf hlen hd hb
  obtain ⟨u, e, w, hu, he, hw, hvoices, hsteals⟩ := drainBlock_capacityPlusOne hr hpos hf hlen hd (by omega)
  refine ⟨_, if_pos hdrain, ?_⟩
  rw [hvoices]
  refine ⟨by rw [List.length_set, hu.length], fun v hv => (hu.triggered_set hw v hv).1, hsteals,
    fun k e' n vel he' hn hk => ?_⟩
  split
  · next hkN =>
    subst hkN
    cases he.symm.trans he'
    exact ⟨w, List.getElem?_set_self (hu.length ▸ hpos), hw.fields hn⟩
  · have hkl := (List.getElem?_eq_some_iff.1 he').1
    have hku : k < u.voices.length := by rw [hu.length]; omega
    have hv := List.getElem?_eq_getElem hku
    obtain ⟨_, e'', he'', hv'⟩ := hu.voice hv
    cases he''.symm.trans he'
    exact ⟨_, (List.getElem?_set_ne (Ne.symm hk)).trans hv, hv'.fields hn⟩

end Sys2Proof.Machine
end

section
/-! The application of an event and the control changes (46_event_intake.md R234, R240 to R250): a decoded event does what
its instruction does, a legal value is stored with the registers derived from it, an illegal one is recorded alone. -/

namespace Sys2Proof.Machine

/-! ### The event and its instruction -/

/-- The instruction of a control id is the application of that control change (R240). -/
theorem exec_of_ccInstr {id : Byte} {v : Word} {ts : BitVec 64} {i : Instr} (h : ccInstr id v ts = some i) (s : State) :
    exec i s = .next (applyCC id v s) := by
  unfold ccInstr at h
  iterate 10
    rcases Laws.eq_or_of_ite_some h with ⟨rfl, rfl⟩ | h
    · rfl
  cases h

/-- Settles O7, by the three answers of `DecodeEvent` that have an instruction. -/
theorem appliedEventIsExec : Obligations.AppliedEventIsExec := by
  unfold Obligations.AppliedEventIsExec
  intro e s i h
  rw [decode] at h
  rw [applyEvent]
  generalize decodeEvent e.w0 e.w1 = d at h ⊢
  cases d with
  | noteOn n vel => cases h; rfl
  | noteOff n => cases h; rfl
  | controlChange id v =>
    cases hi : ccInstr id v (evtTimestamp e) with
    | some j => rw [eventInstr, hi] at h; cases h; exact exec_of_ccInstr hi s
    | none => rw [eventInstr, hi] at h; cases h
  | invalid c x => cases h

/-! ### A parameter written or refused -/

section
variable {legal : Bool} {id : Byte} {f : ParamRegs → ParamRegs} {s : State}

/-- A legal value is written with the registers derived from it (R240). -/
theorem next_setParam_legal (h : legal = true) :
    (.next (setParam id legal f s) : Host.Outcome State Fault Refusal) = .next { s with p := f s.p } := by
  rw [setParam, if_pos h]

/-- An illegal value is recorded and the parameters stay (R240). -/
theorem next_setParam_illegal (h : legal = false) :
    (.next (setParam id legal f s) : Host.Outcome State Fault Refusal) =
      .next { s with lastErr := id ++ (0x11 : Byte), cfgErrCount := s.cfgErrCount + 1, irqPend := s.irqPend ||| 0x04 } := by
  rw [setParam, h]
  rfl

end

theorem isBoolWord_iff (v : Word) : isBoolWord v = true ↔ v = 0 ∨ v = 1 := by
  rw [isBoolWord, Bool.or_eq_true, beq_iff_eq, beq_iff_eq]

/-- Settles O28: the words are the encoder's, and a sample count is legal at every value. -/
theorem ccSampleCounts : Obligations.CcSampleCounts := by
  unfold Obligations.CcSampleCounts
  intro v ts s
  exact ⟨Laws.decode_cc 0x01 v ts _ rfl, Laws.decode_cc 0x02 v ts _ rfl, Laws.decode_cc 0x04 v ts _ rfl,
    next_setParam_legal rfl, next_setParam_legal rfl, next_setParam_legal rfl⟩

/-- Settles O29, each value by whether it is legal. -/
theorem ccLevels : Obligations.CcLevels := by
  unfold Obligations.CcLevels
  intro v ts s
  refine ⟨next_setParam_legal, next_setParam_legal, next_setParam_legal, ?_⟩
  iterate 3 refine List.forall_mem_cons.2 ⟨next_setParam_illegal, ?_⟩
  exact List.forall_mem_nil _

/-- Settles O30, each flag by whether the word is 0 or 1. -/
theorem ccFlags : Obligations.CcFlags := by
  unfold Obligations.CcFlags
  intro v ts s
  refine ⟨fun hv => ?_, fun hv => ?_⟩
  · have h : isBoolWord v = true := (isBoolWord_iff v).2 hv
    exact ⟨next_setParam_legal h, next_setParam_legal h, next_setParam_legal h, next_setParam_legal h⟩
  · have h : isBoolWord v = false := Bool.eq_false_iff.2 fun hb => not_or.2 hv ((isBoolWord_iff v).1 hb)
    iterate 4 refine List.forall_mem_cons.2 ⟨next_setParam_illegal h, ?_⟩
    exact List.forall_mem_nil _

end Sys2Proof.Machine
end

section
/-! The event FIFO under pushes (46_event_intake.md R230, R231): one push, and any number of them in a row. -/

namespace Sys2Proof.Machine

variable {s t u : State} {e : EvtWord} {es fs : List EvtWord}

/-! ### One push -/

theorem decode_wrEvtW0 (v : Word) :
    decode (.access { write := true, off := 0x040, width := 4, data := v }) = .instr (.wrEvtW0 v) :=
  Laws.decode_write (by decide) rfl v

theorem exec_wrEvtW0 (v : Word) (s : State) : exec (.wrEvtW0 v) s = .next (pushEvent (stagedEvent s v) s) := rfl

/-- Settles O21, by whether the FIFO is full. -/
theorem eventPush : Obligations.EventPush := by
  unfold Obligations.EventPush
  intro v s
  refine ⟨decode_wrEvtW0 v, fun h => ?_, fun h => ?_⟩
  · rw [exec_wrEvtW0, pushEvent_room s _ h]
    rfl
  · rw [exec_wrEvtW0, pushEvent_full s _ h]
    rfl

/-! ### Pushes in a row -/

/-- The FIFO of `s` and its overflow count, as the pushes of `es` leave them in `t`: the newest events it has room for,
every other counted. -/
structure Pushed (s : State) (es : List EvtWord) (t : State) : Prop where
  par : t.par = s.par
  fifo : t.fifo = (s.fifo ++ es).rtake s.par.fifoDepth
  ovfCount : t.ovfCount = s.ovfCount + BitVec.ofNat 32 ((s.fifo ++ es).length - s.par.fifoDepth)

theorem Pushed.refl (h : s.fifo.length ≤ s.par.fifoDepth) : Pushed s [] s := by
  refine ⟨rfl, ?_, ?_⟩ <;> simp [List.rtake, Nat.sub_eq_zero_of_le h]

/-- One push keeps all while there is room, and drops the oldest event of a full FIFO. -/
theorem Pushed.push (hd : 1 ≤ s.par.fifoDepth) (h : s.fifo.length ≤ s.par.fifoDepth) :
    Pushed s [e] (pushEvent e s) := by
  by_cases hf : s.fifo.length = s.par.fifoDepth
  · obtain ⟨x, xs, hx⟩ := List.exists_cons_of_length_pos (hf ▸ hd : 0 < s.fifo.length)
    rw [pushEvent_full s e hf]
    refine ⟨rfl, ?_, ?_⟩ <;> simp [List.rtake, ← hf, hx]
  · have hroom : s.fifo.length + 1 - s.par.fifoDepth = 0 := by omega
    rw [pushEvent_room s e hf]
    refine ⟨rfl, ?_, ?_⟩ <;> simp [List.rtake, hroom]

/-- What is newest of the newest and of what follows them is what is newest of all. -/
theorem rtake_rtake_append {α : Type} (l m : List α) (n : Nat) : (l.rtake n ++ m).rtake n = (l ++ m).rtake n := by
  rw [List.rtake, List.rtake, List.rtake, ← List.drop_append_of_le_length (Nat.sub_le ..), List.drop_drop,
    List.length_drop, List.length_append]
  congr 1
  omega

theorem Pushed.trans (h : Pushed s es t) (h' : Pushed t fs u) : Pushed s (es ++ fs) u := by
  refine ⟨h'.par.trans h.par, ?_, ?_⟩
  · rw [h'.fifo, h.fifo, h.par, rtake_rtake_append, List.append_assoc]
  · rw [h'.ovfCount, h.ovfCount, h.fifo, h.par, BitVec.add_assoc, ← BitVec.ofNat_add]
    congr 2
    simp only [List.length_append, List.rtake, List.length_drop]
    omega

/-- What was pushed has room in the FIFO. -/
theorem Pushed.fifo_le (h : Pushed s es t) : t.fifo.length ≤ t.par.fifoDepth := by
  rw [h.fifo, h.par, List.rtake, List.length_drop]
  omega

/-- A host's write of `EVT_W0` pushes the staged event and keeps the staging registers (48_host_interface.md R298). -/
theorem step_push {w : Word} {rest : List Turn} (hd : 1 ≤ s.par.fifoDepth) (h : s.fifo.length ≤ s.par.fifoDepth)
    (hp : s.port = .csr { write := true, off := 0x040, width := 4, data := w } :: rest) :
    ∃ u, step s = .next u ∧ u.port = rest ∧ stagedEvent u = stagedEvent s ∧ Pushed s [stagedEvent s w] u := by
  refine ⟨_, (step_csr hp (decode_wrEvtW0 w)).trans (exec_wrEvtW0 w _), pushEvent_port .., ?_, ?_⟩
  · funext x
    simp [stagedEvent]
  · obtain ⟨par, fifo, ovfCount⟩ := Pushed.push (s := { s with port := rest }) (e := stagedEvent s w) hd h
    exact ⟨par, fifo, ovfCount⟩

/-- A host that writes `EVT_W0` again and again pushes its events, each with the words staged beside it. -/
theorem run_pushes : ∀ (ws : List Word) {s : State} {rest : List Turn}, 1 ≤ s.par.fifoDepth →
    s.fifo.length ≤ s.par.fifoDepth →
    s.port = ws.map (fun w => .csr { write := true, off := 0x040, width := 4, data := w }) ++ rest →
    ∃ t, Host.Core.run core ws.length s = .next t ∧ t.port = rest ∧ Pushed s (ws.map (stagedEvent s)) t
  | [], s, _, _, h, hp => ⟨s, rfl, hp, Pushed.refl h⟩
  | w :: ws, _, _, hd, h, hp => by
    obtain ⟨u, hstep, hport, hstaged, hpushed⟩ := step_push hd h hp
    obtain ⟨t, hrun, ht, hall⟩ := run_pushes ws (hpushed.par ▸ hd) hpushed.fifo_le hport
    exact ⟨t, (run_succ (M := core) ws.length hstep).trans hrun, ht, hpushed.trans (hstaged ▸ hall)⟩

/-- Settles O38, by induction over the writes: what a run of pushes keeps, kept again by the next. -/
theorem fifoKeepsNewest : Obligations.FifoKeepsNewest := by
  unfold Obligations.FifoKeepsNewest
  intro s ws rest hd h hp all
  obtain ⟨t, hrun, hport, _, hfifo, hovf⟩ := run_pushes ws hd h hp
  exact ⟨t, hrun, hport, hfifo, hovf⟩

end Sys2Proof.Machine
end

section
/-! The drain of a block (47_render_engine.md R271): its events one by one, and what it leaves unchanged. -/

namespace Sys2Proof.Machine

variable {s : State} {e : EvtWord} {es : List EvtWord}

theorem exec_drainStep (h : s.engState = .drain) : exec .drainStep s = .next (drainBlock s) := if_pos h

/-! ### The events in order -/

theorem fifo_eq_self (h : s.fifo = es) : { s with fifo := es } = s := by rw [← h]

/-- A drain of no events reclaims and steps to RENDER. -/
theorem drainBlock_nil (h : s.fifo = []) : drainBlock s = { reclaim s with engState := .render } := by
  rw [drainBlock, h, fifo_eq_self h]
  rfl

theorem applyEvent_engState (e : EvtWord) (s : State) : (applyEvent e s).engState = s.engState := by
  rw [(applyEvent_frame e s).1]

theorem applyEvent_fifo (e : EvtWord) (s : State) : (applyEvent e s).fifo = s.fifo := by
  rw [(applyEvent_frame e s).1]

/-- A drain applies the oldest event, then drains the rest. -/
theorem drainBlock_cons (h : s.fifo = e :: es) :
    drainBlock s = drainBlock { applyEvent e { s with fifo := [] } with fifo := es } := by
  have hu := fifo_eq_self (s := applyEvent e { s with fifo := [] }) (applyEvent_fifo e _)
  rw [drainBlock, h, applyEvents]
  simp only [drainBlock, hu]

/-- Settles O39, by the two equations of the drain over the FIFO. -/
theorem drainInOrder : Obligations.DrainInOrder := by
  unfold Obligations.DrainInOrder
  intro s
  refine ⟨fun h => if_neg h, fun hd h => ?_, fun e es hd h => ?_⟩
  · rw [exec_drainStep hd, drainBlock_nil h, reclaim, funext reclaimVoice_eq_ite]
  · have hd' : (applyEvent e { s with fifo := [] }).engState = .drain := (applyEvent_engState _ _).trans hd
    rw [exec_drainStep hd, drainBlock_cons h]
    exact (exec_drainStep (s := { applyEvent e { s with fifo := [] } with fifo := es }) hd').symm

/-! ### What a drain leaves -/

/-- The interrupt bits the events of one drain can raise: `CFG_ERR` and `BAD_EVT` (60_exceptions.md R330). -/
def eventIrqs : List (BitVec 5) := [0x00, 0x04, 0x08, 0x0C]

theorem eventIrqs_or : ∀ m ∈ eventIrqs, m ||| irqCfgErr ∈ eventIrqs ∧ m ||| irqBadEvt ∈ eventIrqs := by decide

theorem applyEvents_irqPend (es : List EvtWord) (s : State) :
    ∃ m ∈ eventIrqs, (applyEvents es s).irqPend = s.irqPend ||| m := by
  refine applyEvents_ind (P := fun u => ∃ m ∈ eventIrqs, u.irqPend = s.irqPend ||| m) ?_ es s
    ⟨0, List.mem_cons_self, BitVec.or_zero.symm⟩
  rintro e u ⟨m, hm, hu⟩
  obtain ⟨hcfg, hbad⟩ := eventIrqs_or m hm
  rcases applyEvent_errors e with h | h | h
  · exact ⟨m, hm, (h u).trans hu⟩
  · exact ⟨_, hcfg, by rw [(h u).1, hu, BitVec.or_assoc]⟩
  · exact ⟨_, hbad, by rw [(h u).1, hu, BitVec.or_assoc]⟩

/-- Settles O40: the frame of the events and the reclaim, and the interrupts the events can raise. -/
theorem drainFrame : Obligations.DrainFrame := by
  unfold Obligations.DrainFrame
  intro s hd
  have hirq : ∃ m ∈ eventIrqs, (drainBlock s).irqPend = s.irqPend ||| m := applyEvents_irqPend s.fifo { s with fifo := [] }
  refine ⟨drainBlock s, exec_drainStep hd, (drainBlock_frame s).1, drainBlock_length s, ?_⟩
  simpa [eventIrqs] using hirq

end Sys2Proof.Machine
end

section
/-! The mixer (47_render_engine.md R273 to R275): a frame is the voices' sum in ascending order, scaled. -/

namespace Sys2Proof.Machine

variable {s : State} {len : Nat} {wt : List WtEntry} {p : ParamRegs} {v v' : Voice} {vs vs' : List Voice}
  {acc sum y : Word} {f : Fault}

/-! ### The sum of the voices -/

/-- A free voice adds nothing and stays (R274). -/
theorem mixVoices_free (h : v.active = false) (acc : Word) : mixVoices len wt p [v] acc = .ok (acc, [v]) := by
  simp [mixVoices, h]

/-- An active voice adds its sample and is ticked. -/
theorem mixVoices_active (h : v.active = true) (hy : voiceSample len wt p v = .ok (y, v')) (acc : Word) :
    mixVoices len wt p [v] acc = .ok (add32 acc y, [v']) := by
  simp [mixVoices, h, hy]

theorem mixVoices_fault (h : v.active = true) (hf : voiceSample len wt p v = .error f) (acc : Word) :
    mixVoices len wt p [v] acc = .error f := by
  simp [mixVoices, h, hf]

/-- Voices after a sum that is known go on from it. -/
theorem mixVoices_append_ok (h : mixVoices len wt p vs acc = .ok (sum, vs')) {ws ws' : List Voice} {sum' : Word}
    (hw : mixVoices len wt p ws sum = .ok (sum', ws')) :
    mixVoices len wt p (vs ++ ws) acc = .ok (sum', vs' ++ ws') := by
  rw [mixVoices_append, h]
  dsimp only
  rw [hw]

theorem mixVoices_append_fault (h : mixVoices len wt p vs acc = .ok (sum, vs')) {ws : List Voice}
    (hw : mixVoices len wt p ws sum = .error f) : mixVoices len wt p (vs ++ ws) acc = .error f := by
  rw [mixVoices_append, h]
  dsimp only
  rw [hw]

theorem mixVoices_append_of_fault (h : mixVoices len wt p vs acc = .error f) (ws : List Voice) :
    mixVoices len wt p (vs ++ ws) acc = .error f := by
  rw [mixVoices_append, h]

/-! ### The frame -/

theorem mixFrame_of_sum (h : mixVoices s.par.tableLen s.wt s.p s.voices zero32 = .ok (sum, vs)) :
    mixFrame s = .ok (scaleMix s.p sum, { s with voices := vs }) := by
  rw [mixFrame, h]

theorem mixFrame_of_fault (h : mixVoices s.par.tableLen s.wt s.p s.voices zero32 = .error f) : mixFrame s = .error f := by
  rw [mixFrame, h]

/-- Settles O44: a voice after the others is a list of one after them, and the frame scales the sum. -/
theorem mixInOrder : Obligations.MixInOrder := by
  unfold Obligations.MixInOrder
  refine ⟨fun s => ⟨fun _ _ => mixFrame_of_sum, fun _ => mixFrame_of_fault⟩, fun _ _ _ _ => rfl, ?_,
    fun _ _ _ _ ws _ _ h => mixVoices_append_of_fault h ws, fun p sum => ⟨fun h => ?_, fun h => ?_⟩⟩
  · intro len wt p vs vs' v acc sum h
    exact ⟨fun hv => mixVoices_append_ok h (mixVoices_free hv sum),
      fun y v' hv hy => mixVoices_append_ok h (mixVoices_active hv hy sum),
      fun f hv hf => mixVoices_append_fault h (mixVoices_fault hv hf sum)⟩
  · simp [scaleMix, h]
  · rw [scaleMix, if_pos h]
    unfold softClip one32 negOne32
    rfl

end Sys2Proof.Machine
end

section
/-! The end of a block (47_render_engine.md R272): a full table has no fault, and what the frames keep of every voice. -/

namespace Sys2Proof.Machine

variable {s t u : State} {len : Nat} {wt : List WtEntry} {p : ParamRegs} {n f : Nat}

theorem exec_renderStep_ok (h : s.engState = .render) (ha : admits s.par.memory s.blkBase.toNat (outputEnd s) = true)
    (hu : renderFrames s.blkFrames.toNat 0 s = .ok u) : exec .renderStep s = .next (finishBlock u) := by
  change execRenderStep s = _
  rw [execRenderStep, if_pos h, renderAdmitted, if_pos ha, hu]

/-- Where the output range is admitted a render step is a whole block. -/
theorem renderStep_admitted (ha : admits s.par.memory s.blkBase.toNat (outputEnd s) = true)
    (h : exec .renderStep s = .next t) : ∃ u, renderFrames s.blkFrames.toNat 0 s = .ok u ∧ t = finishBlock u := by
  rcases renderStep_cases h with ⟨_, hs, _⟩ | ⟨_, _, hu⟩
  · exact absurd (ha.symm.trans hs) (by decide)
  · exact hu

/-! ### A full table has no fault (70_reset_and_hazards.md R362) -/

theorem tableAt_full (hw : ∀ e ∈ wt, e.written = true) {k : Nat} (hk : k < wt.length) : ∃ v, tableAt wt k = some v := by
  refine ⟨wt[k].value, ?_⟩
  rw [tableAt, List.getElem?_eq_getElem hk]
  exact if_pos (hw _ (List.getElem_mem hk))

theorem voiceSample_full (hpos : 0 < len) (hlen : wt.length = len) (hw : ∀ e ∈ wt, e.written = true) (p : ParamRegs)
    (v : Voice) : ∃ y v', voiceSample len wt p v = .ok (y, v') := by
  subst hlen
  obtain ⟨t0, h0⟩ := tableAt_full hw (Nat.mod_lt (floor32 (wrapL wt.length v.phase)) hpos)
  obtain ⟨t1, h1⟩ := tableAt_full hw (Nat.mod_lt (floor32 (wrapL wt.length v.phase) % wt.length + 1) hpos)
  exact ⟨_, _, voiceSample_of_wtSample_ok (wtSample_of_written h0 h1)⟩

/-- Where every voice has a sample their sum is known. -/
theorem mixVoices_total (h : ∀ v, ∃ y v', voiceSample len wt p v = .ok (y, v')) :
    ∀ (vs : List Voice) (acc : Word), ∃ sum vs', mixVoices len wt p vs acc = .ok (sum, vs')
  | [], acc => ⟨acc, [], rfl⟩
  | v :: vs, acc => by
    unfold mixVoices
    split
    · obtain ⟨y, v', hy⟩ := h v
      obtain ⟨sum, vs', hs⟩ := mixVoices_total h vs (add32 acc y)
      exact ⟨sum, v' :: vs', by simp only [hy, hs]⟩
    · obtain ⟨sum, vs', hs⟩ := mixVoices_total h vs acc
      exact ⟨sum, v :: vs', by simp only [hs]⟩

theorem mixFrame_full (h : TableFull s) : ∃ m vs, mixFrame s = .ok (m, { s with voices := vs }) := by
  obtain ⟨hlen, hw⟩ := h
  obtain ⟨sum, vs, hs⟩ := mixVoices_total (voiceSample_full (tableLen_pos s.par) hlen hw s.p) s.voices zero32
  exact ⟨_, vs, mixFrame_of_sum hs⟩

theorem renderFrames_full (n : Nat) : ∀ (f : Nat) {s : State}, TableFull s → ∃ u, renderFrames n f s = .ok u := by
  induction n with
  | zero => exact fun f s _ => ⟨s, rfl⟩
  | succ n ih =>
    intro f s h
    obtain ⟨m, vs, hm⟩ := mixFrame_full h
    rw [renderFrames, hm]
    dsimp only
    obtain ⟨mem', d, hc⟩ := writeChannels_cases m f s.blkChannels.toNat 0 { s with voices := vs }
    rw [hc]
    exact ih (f + 1) h

/-! ### What the frames keep of every voice (R274) -/

/-- A block leaves a free voice as it is, and of every voice the fields that only the drain writes. -/
def KeptByBlock (v v' : Voice) : Prop :=
  (v.active = false → v' = v) ∧ v'.active = v.active ∧ v'.note = v.note ∧ v'.vel = v.vel ∧ v'.inc = v.inc ∧
    v'.seq = v.seq ∧ v'.relDec = v.relDec

theorem KeptByBlock.refl (v : Voice) : KeptByBlock v v := ⟨fun _ => rfl, rfl, rfl, rfl, rfl, rfl, rfl⟩

theorem KeptByBlock.trans {v v' w : Voice} (h : KeptByBlock v v') (h' : KeptByBlock v' w) : KeptByBlock v w := by
  obtain ⟨hf, ha, hn, hv, hi, hs, hr⟩ := h
  obtain ⟨hf', ha', hn', hv', hi', hs', hr'⟩ := h'
  exact ⟨fun h0 => (hf' (ha.trans h0)).trans (hf h0), ha'.trans ha, hn'.trans hn, hv'.trans hv, hi'.trans hi,
    hs'.trans hs, hr'.trans hr⟩

theorem Ticked.kept {v v' : Voice} (h : Ticked len wt p v v') : KeptByBlock v v' := by
  obtain ⟨_, rfl⟩ | ⟨ha, y, hy⟩ := h
  · exact KeptByBlock.refl _
  · rw [voiceSample_ok hy, envTick_eq]
    exact ⟨fun h0 => absurd (ha.symm.trans h0) (by decide), rfl, rfl, rfl, rfl, rfl, rfl⟩

theorem KeptByBlock.forall₂_trans : ∀ {l m k : List Voice}, List.Forall₂ KeptByBlock l m → List.Forall₂ KeptByBlock m k →
    List.Forall₂ KeptByBlock l k
  | _, _, _, .nil, .nil => .nil
  | _, _, _, .cons h hs, .cons h' hs' => .cons (h.trans h') (forall₂_trans hs hs')

theorem writeChannels_voices (m : Word) (f n c : Nat) (s : State) : (writeChannels m f n c s).voices = s.voices := by
  obtain ⟨_, _, h⟩ := writeChannels_cases m f n c s
  rw [h]

theorem renderFrames_kept (h : renderFrames n f s = .ok u) : List.Forall₂ KeptByBlock s.voices u.voices := by
  refine renderFrames_ind (P := fun u => List.Forall₂ KeptByBlock s.voices u.voices) ?_ h
    (List.forall₂_same.2 fun v _ => KeptByBlock.refl v)
  intro s1 t m f hs ht
  obtain ⟨vs, rfl, hvs⟩ := mixFrame_ok ht
  rw [writeChannels_voices]
  exact KeptByBlock.forall₂_trans hs (hvs.imp fun _ _ => Ticked.kept)

theorem activeCount_kept {vs vs' : List Voice} (h : List.Forall₂ KeptByBlock vs vs') : activeCount vs' = activeCount vs := by
  unfold activeCount
  induction h with
  | nil => rfl
  | cons hv _ ih =>
    obtain ⟨_, ha, _⟩ := hv
    rw [List.countP_cons, List.countP_cons, ih, ha]

/-- A block in whole: the voices ticked, host memory written, and the end-of-block registers (R272). -/
theorem finishBlock_of_renderFrames (h : renderFrames n f s = .ok u) :
    finishBlock u = { s with voices := u.voices, mem := u.mem, draws := u.draws,
                             activeSnap := BitVec.ofNat 16 (activeCount s.voices), blockCount := s.blockCount + 1,
                             irqPend := s.irqPend ||| irqDone, engState := .idle, raced := [] } := by
  have ha := activeCount_kept (renderFrames_kept h)
  obtain ⟨vs, m, d, rfl⟩ := renderFrames_cases h
  rw [finishBlock, ha]

/-- Settles O45: a full table renders every frame, and no frames are none. -/
theorem renderCompletes : Obligations.RenderCompletes := by
  unfold Obligations.RenderCompletes
  intro s hr ha
  refine ⟨fun hfull => ?_, fun hzero => ?_⟩
  · obtain ⟨u, hu⟩ := renderFrames_full s.blkFrames.toNat 0 hfull
    refine ⟨finishBlock u, exec_renderStep_ok hr ha hu, ?_⟩
    rw [finishBlock_of_renderFrames hu]
    exact ⟨rfl, rfl, rfl, rfl⟩
  · have hu : renderFrames s.blkFrames.toNat 0 s = .ok s := by rw [hzero]; rfl
    rw [exec_renderStep_ok hr ha hu]
    rfl

end Sys2Proof.Machine
end

section
/-! The output of a block (47_render_engine.md R276; 20_memory.md R84, R88): each sample's word where the layout puts it,
and every other byte as it was. -/

namespace Sys2Proof.Machine

variable {s t u : State} {m : Word} {n f c a k : Nat}

/-! ### The layout -/

theorem sampleAddr_succ_channel (s : State) (f c : Nat) : sampleAddr s f (c + 1) = sampleAddr s f c + 4 := by
  unfold sampleAddr; omega

/-- A frame ends where the next begins. -/
theorem sampleAddr_channels (s : State) (f : Nat) : sampleAddr s f s.blkChannels.toNat = sampleAddr s (f + 1) 0 := by
  rw [sampleAddr, sampleAddr, Nat.add_one_mul f, Nat.add_zero]

theorem sampleAddr_mono (s : State) {f' c' : Nat} (hf : f ≤ f') (hc : c ≤ c') : sampleAddr s f c ≤ sampleAddr s f' c' := by
  unfold sampleAddr
  have := Nat.mul_le_mul_right s.blkChannels.toNat hf
  omega

theorem sampleAddr_zero (s : State) : sampleAddr s 0 0 = s.blkBase.toNat := by
  rw [sampleAddr, Nat.zero_mul, Nat.mul_zero, Nat.add_zero]

theorem sampleAddr_outputEnd (s : State) : sampleAddr s s.blkFrames.toNat 0 = outputEnd s := by
  rw [sampleAddr, outputEnd, Nat.add_zero, Nat.mul_assoc]

@[simp] theorem sampleAddr_writeSample (s : State) (a : Nat) (m : Word) (f c : Nat) :
    sampleAddr (writeSample a m s) f c = sampleAddr s f c := by simp [sampleAddr]

/-! ### The channels of a frame -/

/-- Host memory holds the word at an address, little-endian (20_memory.md R84). -/
def HoldsWord (a : Nat) (m : Word) (mem : Memory) : Prop := ∀ k : Fin 4, readByte (a + k.val) mem = some (byteLane m k)

theorem HoldsWord.congr {mem mem' : Memory} (h : HoldsWord a m mem)
    (he : ∀ k, a ≤ k → k < a + 4 → readByte k mem' = readByte k mem) : HoldsWord a m mem' :=
  fun k => (he _ (Nat.le_add_right _ _) (Nat.add_lt_add_left k.isLt a)).trans (h k)

theorem readByte_writeSample_ne (hw : Memory.wf s.mem) (h : k < a ∨ a + 4 ≤ k) :
    readByte k (writeSample a m s).mem = readByte k s.mem := by
  unfold writeSample
  split
  · split
    · rfl
    · exact readByte_writeWord_ne m hw h
  · exact readByte_writeWord_ne m hw h

theorem holdsWord_writeSample (hw : Memory.wf s.mem) (h : a ∉ s.raced) : HoldsWord a m (writeSample a m s).mem := by
  rw [writeSample_plain h]
  exact readByte_writeWord_lane a m hw

/-- The channels from `c` on leave every byte outside their words. -/
theorem readByte_writeChannels_ne (m : Word) (f n : Nat) : ∀ (c : Nat) {s : State}, Memory.wf s.mem →
    k < sampleAddr s f c ∨ sampleAddr s f (c + n) ≤ k →
    readByte k (writeChannels m f n c s).mem = readByte k s.mem := by
  induction n with
  | zero => exact fun _ _ _ _ => rfl
  | succ n ih =>
    intro c s hw h
    have hstep := sampleAddr_succ_channel s f c
    have hle : sampleAddr s f (c + 1) ≤ sampleAddr s f (c + (n + 1)) := sampleAddr_mono s le_rfl (by omega)
    have hrest := ih (c + 1) (writeSample_wf (sampleAddr s f c) m hw)
      (by rw [sampleAddr_writeSample, sampleAddr_writeSample, Nat.add_assoc, Nat.add_comm 1]; omega)
    rw [writeChannels, hrest]
    exact readByte_writeSample_ne hw (by omega)

/-- Every channel of a frame holds the frame's value, where the host has not raced its word (R92). -/
theorem holdsWord_writeChannels (m : Word) (f n : Nat) : ∀ (c : Nat) {s : State}, Memory.wf s.mem →
    ∀ i, i < n → sampleAddr s f (c + i) ∉ s.raced → HoldsWord (sampleAddr s f (c + i)) m (writeChannels m f n c s).mem := by
  induction n with
  | zero => exact fun _ _ _ i hi => absurd hi (Nat.not_lt_zero i)
  | succ n ih =>
    intro c s hw i hi hr
    have hw' := writeSample_wf (sampleAddr s f c) m hw
    rw [writeChannels]
    cases i with
    | zero =>
      refine (holdsWord_writeSample hw hr).congr fun k _ hk => readByte_writeChannels_ne m f n (c + 1) hw' (.inl ?_)
      rw [sampleAddr_writeSample, sampleAddr_succ_channel]
      exact hk
    | succ i =>
      have := ih (c + 1) hw' i (by omega)
      simp only [sampleAddr_writeSample, writeSample_raced, Nat.add_right_comm c 1 i] at this
      exact this hr

/-! ### The frames of a block -/

theorem writeChannels_raced (m : Word) (f n c : Nat) (s : State) : (writeChannels m f n c s).raced = s.raced := by
  obtain ⟨_, _, h⟩ := writeChannels_cases m f n c s
  rw [h]

theorem writeChannels_blkChannels (m : Word) (f n c : Nat) (s : State) :
    (writeChannels m f n c s).blkChannels = s.blkChannels := by
  obtain ⟨_, _, h⟩ := writeChannels_cases m f n c s
  rw [h]

theorem sampleAddr_writeChannels (m : Word) (f n c : Nat) (s : State) (f' c' : Nat) :
    sampleAddr (writeChannels m f n c s) f' c' = sampleAddr s f' c' := by
  obtain ⟨_, _, h⟩ := writeChannels_cases m f n c s
  rw [h]
  rfl

/-- A block's frames are one mixed and written, then the rest (R272). -/
theorem renderFrames_succ_ok (h : renderFrames (n + 1) f s = .ok u) :
    ∃ m vs, mixFrame s = .ok (m, { s with voices := vs }) ∧
      renderFrames n (f + 1) (writeChannels m f s.blkChannels.toNat 0 { s with voices := vs }) = .ok u := by
  unfold renderFrames at h
  split at h
  · cases h
  · next m t hm =>
    obtain ⟨vs, rfl, _⟩ := mixFrame_ok hm
    exact ⟨m, vs, hm, h⟩

/-- The frames from `f` on leave every byte outside their words (20_memory.md R88). -/
theorem readByte_renderFrames_ne (n : Nat) : ∀ (f : Nat) {s : State}, renderFrames n f s = .ok u → Memory.wf s.mem →
    k < sampleAddr s f 0 ∨ sampleAddr s (f + n) 0 ≤ k → readByte k u.mem = readByte k s.mem := by
  induction n with
  | zero => intro f s h _ _; cases h; rfl
  | succ n ih =>
    intro f s h hw hk
    obtain ⟨m, vs, _, hrest⟩ := renderFrames_succ_ok h
    have hfirst : sampleAddr s f 0 ≤ sampleAddr s (f + 1) 0 := sampleAddr_mono s (Nat.le_succ f) le_rfl
    have hlast : sampleAddr s (f + 1) 0 ≤ sampleAddr s (f + (n + 1)) 0 := sampleAddr_mono s (by omega) le_rfl
    have hend := sampleAddr_channels s f
    rw [ih (f + 1) hrest (writeChannels_wf _ _ _ _ _ hw)]
    · refine readByte_writeChannels_ne m f s.blkChannels.toNat 0 (s := { s with voices := vs }) hw ?_
      change k < sampleAddr s f 0 ∨ sampleAddr s f (0 + s.blkChannels.toNat) ≤ k
      rw [Nat.zero_add]
      omega
    · rw [sampleAddr_writeChannels, sampleAddr_writeChannels, Nat.add_assoc, Nat.add_comm 1]
      change k < sampleAddr s (f + 1) 0 ∨ sampleAddr s (f + (n + 1)) 0 ≤ k
      omega

/-! ### The values of the frames -/

/-- A frame's value does not look at host memory. -/
theorem mixFrame_withMem (h : mixFrame s = .ok (m, t)) (mem : Memory) (d : Nat) :
    mixFrame { s with mem := mem, draws := d } = .ok (m, { t with mem := mem, draws := d }) := by
  unfold mixFrame at h ⊢
  split at h
  · next sum vs hs => cases h; dsimp only; rw [hs]
  · cases h

theorem mixFrames_withMem (mem : Memory) (d : Nat) (n : Nat) : ∀ {s t : State} {ms : List Word},
    mixFrames n s = .ok (ms, t) →
    mixFrames n { s with mem := mem, draws := d } = .ok (ms, { t with mem := mem, draws := d }) := by
  induction n with
  | zero => intro s t ms h; cases h; rfl
  | succ n ih =>
    intro s t ms h
    unfold mixFrames at h
    split at h
    · cases h
    · next m s1 hm =>
      split at h
      · cases h
      · next ms' s2 hms =>
        cases h
        rw [mixFrames, mixFrame_withMem hm]
        dsimp only
        rw [ih hms]

/-- The frames' values stand at their places from frame `f` on, but for the words the host raced (R276, R92). -/
def FramesAt (s : State) (f : Nat) (ms : List Word) (mem : Memory) : Prop :=
  ∀ i c m, ms[i]? = some m → c < s.blkChannels.toNat → sampleAddr s (f + i) c ∉ s.raced →
    HoldsWord (sampleAddr s (f + i) c) m mem

theorem framesAt_writeChannels (m : Word) (f n c : Nat) (s : State) {f' : Nat} {ms : List Word} {mem : Memory} :
    FramesAt (writeChannels m f n c s) f' ms mem ↔ FramesAt s f' ms mem := by
  simp only [FramesAt, sampleAddr_writeChannels, writeChannels_raced, writeChannels_blkChannels]

theorem FramesAt.cons {ms : List Word} {mem : Memory}
    (h0 : ∀ c, c < s.blkChannels.toNat → sampleAddr s f c ∉ s.raced → HoldsWord (sampleAddr s f c) m mem)
    (h : FramesAt s (f + 1) ms mem) : FramesAt s f (m :: ms) mem := by
  intro i c m' hm hc hr
  cases i with
  | zero => cases hm; exact h0 c hc hr
  | succ i =>
    rw [← Nat.add_assoc, Nat.add_right_comm] at hr ⊢
    exact h i c m' hm hc hr

/-- The frames rendered are the frames mixed one after another, each written where the layout puts it. -/
theorem renderFrames_mixFrames (n : Nat) : ∀ (f : Nat) {s : State}, renderFrames n f s = .ok u → Memory.wf s.mem →
    ∃ ms v, mixFrames n s = .ok (ms, v) ∧ ms.length = n ∧ u.voices = v.voices ∧ FramesAt s f ms u.mem := by
  induction n with
  | zero =>
    intro f s h _
    cases h
    exact ⟨[], _, rfl, rfl, rfl, fun i c m hm => by cases hm⟩
  | succ n ih =>
    intro f s h hw
    obtain ⟨m, vs, hm, hrest⟩ := renderFrames_succ_ok h
    have hw1 := writeChannels_wf m f s.blkChannels.toNat 0 { s with voices := vs } hw
    obtain ⟨ms, v, hms, hlen, hv, hat⟩ := ih (f + 1) hrest hw1
    have hmix : mixFrames (n + 1) s = .ok (m :: ms, { v with mem := s.mem, draws := s.draws }) := by
      obtain ⟨mem', d, hc⟩ := writeChannels_cases m f s.blkChannels.toNat 0 { s with voices := vs }
      have := mixFrames_withMem s.mem s.draws n (hc ▸ hms)
      rw [mixFrames, hm]
      dsimp only
      rw [this]
    refine ⟨_, _, hmix, congrArg Nat.succ hlen, hv, FramesAt.cons (fun c hc hr => ?_) ?_⟩
    · have hfirst := holdsWord_writeChannels m f s.blkChannels.toNat 0 (s := { s with voices := vs }) hw c hc
      rw [Nat.zero_add] at hfirst
      refine (hfirst hr).congr fun k _ hk => readByte_renderFrames_ne n (f + 1) hrest hw1 (.inl ?_)
      have hnext : sampleAddr s f (c + 1) ≤ sampleAddr s f s.blkChannels.toNat := sampleAddr_mono s le_rfl hc
      rw [sampleAddr_succ_channel, sampleAddr_channels] at hnext
      rw [sampleAddr_writeChannels]
      exact Nat.lt_of_lt_of_le hk hnext
    · exact (framesAt_writeChannels m f s.blkChannels.toNat 0 { s with voices := vs }).1 hat

/-- Settles O47: the frames of the block from frame 0 on, the first at `B`. -/
theorem renderWritesLayout : Obligations.RenderWritesLayout := by
  unfold Obligations.RenderWritesLayout
  intro s t ha h hw
  obtain ⟨u, hu, rfl⟩ := renderStep_admitted ha h
  obtain ⟨ms, v, hms, hlen, hv, hat⟩ := renderFrames_mixFrames s.blkFrames.toNat 0 hu hw
  refine ⟨ms, v, hms, hlen, hv, fun f c m hm hc hr => ?_⟩
  have hword := hat f c m hm hc
  rw [Nat.zero_add] at hword
  exact hword hr

/-- Settles O48: the block in whole, the bytes its frames leave, and what they keep of every voice. -/
theorem renderFrame : Obligations.RenderFrame := by
  unfold Obligations.RenderFrame
  intro s t ha h
  obtain ⟨u, hu, rfl⟩ := renderStep_admitted ha h
  have hkept := renderFrames_kept hu
  refine ⟨?_, fun hw a hout => ?_, hkept.length_eq.symm, fun i v v' hv hv' => ?_⟩
  · rw [finishBlock_of_renderFrames hu]
    rfl
  · rw [finishBlock_mem]
    refine readByte_renderFrames_ne s.blkFrames.toNat 0 hu hw ?_
    rw [Nat.zero_add, sampleAddr_zero, sampleAddr_outputEnd]
    exact hout
  · obtain ⟨hi, rfl⟩ := List.getElem?_eq_some_iff.1 hv
    obtain ⟨hi', rfl⟩ := List.getElem?_eq_some_iff.1 hv'
    exact hkept.get hi hi'

end Sys2Proof.Machine
end

section
/-! A block in flight is one that a render command started (48_host_interface.md R295, R300): every effect of an
instruction leaves its operands, starts a checked block, or leaves none outstanding. -/

namespace Sys2Proof.Machine

variable {s t : State}

/-- Two states with the same `RUN`, the same `BUSY` and the same latched operands (10_state.md R32). -/
structure SameBlock (s t : State) : Prop where
  run : t.run = s.run
  outstanding : busy t = busy s
  base : t.blkBase = s.blkBase
  frames : t.blkFrames = s.blkFrames
  channels : t.blkChannels = s.blkChannels

theorem SameBlock.raiseError (c : ErrCode) (x : Byte) (s : State) : SameBlock s (Machine.raiseError c x s) := by
  constructor <;> simp [busy]

theorem SameBlock.pushEvent (e : EvtWord) (s : State) : SameBlock s (Machine.pushEvent e s) := by
  constructor <;> simp [busy]

theorem SameBlock.vmNoteOn (n : BitVec 7) (vel : Word) (s : State) : SameBlock s (Machine.vmNoteOn n vel s) := by
  rw [vmNoteOn_eq]
  exact ⟨rfl, rfl, rfl, rfl, rfl⟩

theorem SameBlock.applyCC (id : Byte) (v : Word) (s : State) : SameBlock s (Machine.applyCC id v s) := by
  rcases applyCC_cases id v s with ⟨q, h⟩ | ⟨c, h⟩ <;> rw [h]
  · exact ⟨rfl, rfl, rfl, rfl, rfl⟩
  · exact SameBlock.raiseError c id s

/-- The drain goes on with the block it is part of (47_render_engine.md R271). -/
theorem SameBlock.drainBlock (hd : s.engState = .drain) : SameBlock s (Machine.drainBlock s) := by
  rw [(drainBlock_frame s).1]
  refine ⟨rfl, ?_, rfl, rfl, rfl⟩
  simp [busy, hd]

theorem BlockInv.congr (hs : BlockInv s) (h : SameBlock s t) : BlockInv t := by
  unfold BlockInv outputEnd at *
  rw [h.run, h.outstanding, h.base, h.frames, h.channels]
  exact hs

theorem BlockInv.of_idle (h : busy t = false) : BlockInv t := fun hb => absurd hb (Bool.eq_false_iff.1 h)

theorem BlockInv.effect (hs : BlockInv s) (h : Effect s t) : BlockInv t := by
  cases h with
  | accept _ hr ha hc ht => exact fun _ => ⟨hr, ha, hc, ht⟩
  | setRun hb => exact BlockInv.of_idle hb
  | reset | render => exact BlockInv.of_idle rfl
  | error c x r => exact BlockInv.congr (s := { s with rdata := r }) hs (SameBlock.raiseError c x _)
  | push e => exact hs.congr (SameBlock.pushEvent e s)
  | noteOn n vel => exact hs.congr (SameBlock.vmNoteOn n vel s)
  | cc id v => exact hs.congr (SameBlock.applyCC id v s)
  | drain hd => exact hs.congr (SameBlock.drainBlock hd)
  | read | store | operand | ack | nothing | rate | tableAddr | load | noteOff =>
    exact hs.congr ⟨rfl, rfl, rfl, rfl, rfl⟩

theorem BlockInv.step (hs : BlockInv s) (h : step s = .next t) : BlockInv t := by
  have hpop : BlockInv (popPort s) := hs
  cases step_cases h with
  | effect he => exact hpop.effect he
  | memWrite => exact hpop.congr ⟨rfl, rfl, rfl, rfl, rfl⟩

/-- Settles O54: a block starts only by a render command that passed the checks of R300, and while it is outstanding
nothing writes `RUN` or its operands. -/
theorem blockKept : Obligations.BlockKept := fun _ _ hs h => hs.step h

end Sys2Proof.Machine
end

section
/-! The errors an access records, in the form the statements give them (60_exceptions.md R330, R331), and the accesses
refused by their form or their offset (48_host_interface.md R291 to R293). -/

namespace Sys2Proof.Machine

variable {c : ErrCode} {s : State}

/-! ### One error recorded -/

theorem raiseError_csr (hc : errCategory c = .csrErr) (x : Byte) (s : State) :
    raiseError c x s = { s with lastErr := x ++ errNumber c, csrErrCount := s.csrErrCount + 1,
                                irqPend := s.irqPend ||| 0x10 } := by
  rw [raiseError_eq, hc]
  rfl

theorem raiseError_cfg (hc : errCategory c = .cfgErr) (x : Byte) (s : State) :
    raiseError c x s = { s with lastErr := x ++ errNumber c, cfgErrCount := s.cfgErrCount + 1,
                                irqPend := s.irqPend ||| 0x04 } := by
  rw [raiseError_eq, hc]
  rfl

/-- A refused access: a read returns 0, and the error is recorded with the word index (R290). -/
theorem refuseAccess_csr (hc : errCategory c = .csrErr) (w : Bool) (x : Byte) (s : State) :
    refuseAccess w c x s = { s with rdata := if w then s.rdata else 0, lastErr := x ++ errNumber c,
                                    csrErrCount := s.csrErrCount + 1, irqPend := s.irqPend ||| 0x10 } := by
  rw [refuseAccess_eq, raiseError_csr hc]

/-! ### Bad accesses -/

/-- The turn of an access that is no instruction records the refusal and leaves the port. -/
theorem step_badAccess {a : CsrAccess} {widx : BitVec 7} {rest : List Turn} (hp : s.port = .csr a :: rest)
    (hd : decode (.access a) = .reject (.badAccess widx)) :
    step s = .next (refuseBadAccess a.write widx { s with port := rest }) := by
  unfold step fetch
  rw [hp]
  dsimp only [fetchAccess]
  rw [hd]

/-- Settles O9: the access decodes to no instruction, and its refusal is recorded. -/
theorem badAccess : Obligations.BadAccess := by
  unfold Obligations.BadAccess
  intro s a rest hp hbad
  have hd : decode (.access a) = .reject (.badAccess (a.off.extractLsb' 2 7)) := (Laws.accessDecoding a).2 hbad
  rw [step_badAccess hp hd, refuseBadAccess, refuseAccess_csr rfl]
  rfl

/-! ### Refused offsets -/

theorem writeReadOnly_eq (x : Byte) (s : State) :
    writeReadOnly x s = .next { s with lastErr := x ++ (0x21 : Byte), csrErrCount := s.csrErrCount + 1,
                                       irqPend := s.irqPend ||| 0x10 } :=
  congrArg Host.Outcome.next (raiseError_csr rfl x s)

theorem accessReserved_eq (w : Bool) (x : Byte) (s : State) :
    accessReserved w x s = .next { s with rdata := if w then s.rdata else 0, lastErr := x ++ (0x22 : Byte),
                                          csrErrCount := s.csrErrCount + 1, irqPend := s.irqPend ||| 0x10 } :=
  congrArg Host.Outcome.next (refuseAccess_csr rfl w x s)

/-- Settles O17: each of the forty writes is `writeReadOnly` of its word index. -/
theorem readOnlyWritesRefused : Obligations.ReadOnlyWritesRefused := by
  unfold Obligations.ReadOnlyWritesRefused
  intro v s
  iterate 40 refine List.forall_mem_cons.2 ⟨writeReadOnly_eq _ s, ?_⟩
  exact List.forall_mem_nil _

/-- Settles O18: each of the twelve ranges is `accessReserved` of its word index. -/
theorem reservedRefused : Obligations.ReservedRefused := by
  unfold Obligations.ReservedRefused
  intro w v s k1 k2 k3 k4 k5
  iterate 12 refine List.forall_mem_cons.2 ⟨accessReserved_eq w _ s, ?_⟩
  exact List.forall_mem_nil _

end Sys2Proof.Machine
end

section
/-! The reads that may answer a free word (48_host_interface.md R297, R308). -/

namespace Sys2Proof.Machine

variable {s : State}

/-- A read of a register the engine's steps change answers the next free word while a block is outstanding. -/
theorem next_returnUnlessBusy_busy (hb : busy s = true) (v : Word) :
    (.next (returnUnlessBusy v s) : Host.Outcome State Fault Refusal) =
      .next { s with rdata := Config.freeWord s.draws, draws := s.draws + 1 } := by
  rw [returnUnlessBusy_busy hb]

/-- Settles O14: each of these reads is `returnUnlessBusy` of its word. -/
theorem busyReadsAreFree : Obligations.BusyReadsAreFree := by
  unfold Obligations.BusyReadsAreFree
  intro s hb
  iterate 29 refine List.forall_mem_cons.2 ⟨next_returnUnlessBusy_busy hb _, ?_⟩
  exact List.forall_mem_nil _

theorem tableAt_of_getElem? {wt : List WtEntry} {k : Nat} {e : WtEntry} (h : wt[k]? = some e) :
    tableAt wt k = if e.written then some e.value else none := by
  rw [tableAt, h]

/-- A read of `WT_DATA` answers the entry at `WT_ADDR`, and the next free word where that was never written. -/
theorem readTable_of_getElem? {e : WtEntry} (h : s.wt[s.wtAddr.toNat]? = some e) :
    readTable s = if e.written then returnWord e.value s else returnFree s := by
  rw [readTable, tableAt_of_getElem? h]
  cases e.written <;> rfl

/-- Settles O15, by whether the entry was written. -/
theorem tableRead : Obligations.TableRead := by
  unfold Obligations.TableRead
  exact ⟨Laws.decode_read (by decide) rfl 0, fun s =>
    ⟨fun _ h => congrArg Host.Outcome.next (readTable_of_getElem? h),
      fun _ h => congrArg Host.Outcome.next (readTable_of_getElem? h)⟩⟩

end Sys2Proof.Machine
end

section
/-! The CSR writes that take effect (48_host_interface.md R294 to R309): the two guards, then each register's write. -/

namespace Sys2Proof.Machine

variable {s : State} {v : Word}

/-! ### The guards -/

theorem whenStopped_busy (h : busy s = true) (x : Byte) (f : State → State) :
    whenStopped x f s = raiseError .csrBusy x s := if_pos h

theorem whenStopped_running (h : busy s = false) (hr : s.run = true) (x : Byte) (f : State → State) :
    whenStopped x f s = raiseError .csrRunning x s := by
  rw [whenStopped, h, hr]
  rfl

/-- A refused write records its error (R290). -/
theorem next_refused {c : ErrCode} (hc : errCategory c = .csrErr) {x : Byte} {t : State} (h : t = raiseError c x s) :
    (.next t : Host.Outcome State Fault Refusal) =
      .next { s with lastErr := x ++ errNumber c, csrErrCount := s.csrErrCount + 1, irqPend := s.irqPend ||| 0x10 } := by
  rw [h, raiseError_csr hc]

/-- Settles O19, by the two guards: four registers are guarded, three are stopped-only too. -/
theorem guardedWritesRefused : Obligations.GuardedWritesRefused := by
  unfold Obligations.GuardedWritesRefused
  intro v s
  refine ⟨fun hb => ?_, fun hb hr => ?_⟩
  · iterate 4 refine List.forall_mem_cons.2 ⟨next_refused (c := .csrBusy) rfl (unlessBusy_busy hb _ _), ?_⟩
    iterate 3 refine List.forall_mem_cons.2 ⟨next_refused (c := .csrBusy) rfl (whenStopped_busy hb _ _), ?_⟩
    exact List.forall_mem_nil _
  · iterate 3 refine List.forall_mem_cons.2 ⟨next_refused (c := .csrRunning) rfl (whenStopped_running hb hr _ _), ?_⟩
    exact List.forall_mem_nil _

/-- A guarded write while not BUSY is performed. -/
theorem next_unlessBusy_idle (h : busy s = false) (x : Byte) (f : State → State) :
    (.next (unlessBusy x f s) : Host.Outcome State Fault Refusal) = .next (f s) := by
  rw [unlessBusy_idle h]

/-! ### `CTRL` -/

theorem exec_wrCtrl_idle (hb : busy s = false) (v : Word) :
    exec (.wrCtrl v) s = .next (if v.getLsbD 1 then softReset s else { s with run := v.getLsbD 0 }) :=
  next_unlessBusy_idle hb _ _

/-- Settles O20, by bit 1 of the word; the soft reset is written out. -/
theorem ctrlWrite : Obligations.CtrlWrite := by
  unfold Obligations.CtrlWrite
  intro v s hb
  refine ⟨fun h => ?_, fun h => ?_⟩
  · rw [exec_wrCtrl_idle hb, h]
    rfl
  · rw [exec_wrCtrl_idle hb, if_pos h]
    rfl

/-! ### The plain registers -/

/-- The low bits of a word as a word: the others read as 0 (R305). -/
theorem setWidth_extractLsb'_eq_and (v : Word) (n : Nat) :
    (v.extractLsb' 0 n).setWidth 32 = v &&& BitVec.ofNat 32 (2 ^ n - 1) := by
  refine BitVec.eq_of_getLsbD_eq fun i hi => ?_
  rw [BitVec.getLsbD_setWidth, BitVec.getLsbD_extractLsb', BitVec.getLsbD_and, BitVec.getLsbD_ofNat,
    Nat.testBit_two_pow_sub_one, Nat.zero_add]
  simp [hi, Bool.and_comm]

/-- A register's masked word, read back. -/
theorem next_returnWord_masked (n : Nat) (v : Word) (s : State) :
    (.next (returnWord ((v.extractLsb' 0 n).setWidth 32) s) : Host.Outcome State Fault Refusal) =
      .next { s with rdata := v &&& BitVec.ofNat 32 (2 ^ n - 1) } := by
  rw [setWidth_extractLsb'_eq_and]
  rfl

/-- Settles O22: each write stores its word or the bits the register has, and the read answers them. -/
theorem plainWrites : Obligations.PlainWrites := by
  unfold Obligations.PlainWrites
  intro v s
  refine ⟨?_, fun hb => ?_⟩
  · iterate 3 refine List.forall_mem_cons.2 ⟨⟨rfl, rfl⟩, ?_⟩
    refine List.forall_mem_cons.2 ⟨⟨rfl, next_returnWord_masked 5 v _⟩, ?_⟩
    exact List.forall_mem_singleton.2 ⟨rfl, next_returnWord_masked 16 v _⟩
  · iterate 3 refine List.forall_mem_cons.2 ⟨⟨next_unlessBusy_idle hb _ _, rfl⟩, ?_⟩
    exact List.forall_mem_nil _

/-! ### `IRQ_STATUS` -/

/-- Settles O24, bit by bit. -/
theorem irqAcknowledge : Obligations.IrqAcknowledge := by
  unfold Obligations.IrqAcknowledge
  intro v s
  refine ⟨Laws.decode_write (by decide) rfl v, ackIrq (v.extractLsb' 0 5) s, rfl, rfl, fun b hb => ?_⟩
  simp [hb]

/-! ### `CFG_FS` -/

/-- A stopped-only write while stopped and idle is performed. -/
theorem next_whenStopped_stopped (hb : busy s = false) (hr : s.run = false) (x : Byte) (f : State → State) :
    (.next (whenStopped x f s) : Host.Outcome State Fault Refusal) = .next (f s) := by
  rw [whenStopped_stopped hb hr]

theorem exec_wrCfgFs_stopped (hb : busy s = false) (hr : s.run = false) (v : Word) :
    exec (.wrCfgFs v) s = .next (setSampleRate v s) := next_whenStopped_stopped hb hr _ _

/-- Settles O25, by whether the rate is legal. -/
theorem sampleRateWrite : Obligations.SampleRateWrite := by
  unfold Obligations.SampleRateWrite
  intro v s hb hr
  refine ⟨fun hv => ?_, fun hv => ?_⟩
  · rw [exec_wrCfgFs_stopped hb hr, setSampleRate, if_pos hv]
    rfl
  · rw [exec_wrCfgFs_stopped hb hr, setSampleRate, hv]
    rfl

/-! ### The table port -/

theorem exec_wrWtAddr_stopped (hb : busy s = false) (hr : s.run = false) (v : Word) :
    exec (.wrWtAddr v) s = .next (setTableAddr v s) := next_whenStopped_stopped hb hr _ _

/-- A legal value fills the entry and advances the index (R309). -/
theorem exec_wrWtData_legal (hb : busy s = false) (hr : s.run = false) (hv : isTableValue v = true) :
    exec (.wrWtData v) s = .next { s with wt := s.wt.set s.wtAddr.toNat ⟨v, true⟩,
                                          wtAddr := BitVec.ofNat 16 ((s.wtAddr.toNat + 1) % s.par.tableLen) } := by
  change Host.Outcome.next (whenStopped 0x1E (loadTable v) s) = _
  rw [whenStopped_stopped hb hr, loadTable, if_pos hv]

theorem exec_wrWtData_illegal (hb : busy s = false) (hr : s.run = false) (hv : isTableValue v = false) :
    exec (.wrWtData v) s = .next (raiseError .wtBadValue (s.wtAddr.extractLsb' 0 8) s) := by
  change Host.Outcome.next (whenStopped 0x1E (loadTable v) s) = _
  rw [whenStopped_stopped hb hr, loadTable, hv]
  rfl

/-- An index modulo the table length fits `WT_ADDR` on a legal configuration (00_scope.md R6). -/
theorem wrapped_addr_toNat {par : Params} (hl : par.legal = true) (n : Nat) :
    (BitVec.ofNat 16 (n % par.tableLen)).toNat = n % par.tableLen := by
  have hlen : par.tableLen ≤ 2 ^ 16 := Nat.pow_le_pow_right (by decide) (wtLog2Len_le hl)
  rw [BitVec.toNat_ofNat]
  exact Nat.mod_eq_of_lt ((Nat.mod_lt _ (tableLen_pos par)).trans_le hlen)

/-- Settles O26: the address by its modulus, the entry by whether the value is legal. -/
theorem tableWrites : Obligations.TableWrites := by
  unfold Obligations.TableWrites
  intro v s hb hr hl
  refine ⟨⟨_, exec_wrWtAddr_stopped hb hr v, rfl, wrapped_addr_toNat hl _⟩, fun hv => ?_, fun hv => ?_⟩
  · exact ⟨_, exec_wrWtData_legal hb hr hv, rfl, wrapped_addr_toNat hl _⟩
  · rw [exec_wrWtData_illegal hb hr hv, raiseError_cfg rfl]
    rfl

end Sys2Proof.Machine
end

section
/-! The render command (48_host_interface.md R300). Its statement has the name of the model's `renderCommand`, so the proof
stands under `Laws`. -/

namespace Sys2Proof.Laws

open Sys2Proof.Machine (State busy)

theorem busy_iff (s : State) : busy s = true ↔ s.engState ≠ .idle := by rw [busy, decide_eq_true_eq]

/-- Settles O23: the statement's checks are those of the model's `renderCommand`, in the same order; the first of them is
`BUSY`. -/
theorem renderCommand : Obligations.RenderCommand := by
  unfold Obligations.RenderCommand
  intro v s
  refine ⟨decode_write (by decide) rfl v, ?_⟩
  change Host.Outcome.next (Machine.renderCommand v s) = _
  simp only [Machine.renderCommand, busy_iff]
  rfl

end Sys2Proof.Laws
end

section
/-! The boot load of the table (48_host_interface.md R309; 70_reset_and_hazards.md R362): the writes from index 0 fill it
from the front. -/

namespace Sys2Proof.Machine

variable {s : State} {v : Word} {vs : List Word} {rest : List Turn}

/-- Two runs in a row are one. -/
theorem run_add {M : Host.Core} (n : Nat) :
    ∀ (m : Nat) {s t : M.State}, M.run m s = .next t → M.run (m + n) s = M.run n t
  | 0, s, t, h => by
    cases h
    rw [Nat.zero_add]
  | m + 1, s, t, h => by
    rw [Nat.succ_add]
    cases hstep : M.step s with
    | next u =>
      rw [run_succ m hstep] at h
      rw [run_succ (m + n) hstep]
      exact run_add n m h
    | fault r => rw [Host.Core.run, hstep] at h; cases h
    | refused r => rw [Host.Core.run, hstep] at h; cases h

/-- The host's turn that writes `v` to `WT_DATA`. -/
def loadTurn (v : Word) : Turn := .csr { write := true, off := 0x078, width := 4, data := v }

theorem decode_wrWtData (v : Word) :
    decode (.access { write := true, off := 0x078, width := 4, data := v }) = .instr (.wrWtData v) :=
  Laws.decode_write (by decide) rfl v

/-- `s` with the entries `vs` loaded from index 0 and the turns `rest` still to come. -/
def afterLoads (s : State) (vs : List Word) (rest : List Turn) : State :=
  { s with port := rest, wtAddr := BitVec.ofNat 16 (vs.length % s.par.tableLen),
           wt := vs.map (fun v => { value := v, written := true }) ++ s.wt.drop vs.length }

theorem afterLoads_nil (ha : s.wtAddr = 0) (hp : s.port = rest) : afterLoads s [] rest = s := by
  have h0 : BitVec.ofNat 16 (0 % s.par.tableLen) = s.wtAddr := by rw [Nat.zero_mod, ha]; rfl
  rw [afterLoads, ← hp, List.length_nil, h0]
  rfl

/-- Replacing the entry behind those that are already replaced. -/
theorem set_append_drop {α : Type} (l m : List α) (x : α) (h : l.length < m.length) :
    (l ++ m.drop l.length).set l.length x = l ++ [x] ++ m.drop (l.length + 1) := by
  rw [List.set_append_right _ _ (Nat.le_refl _), Nat.sub_self, List.drop_eq_getElem_cons h, List.set_cons_zero,
    List.append_assoc, List.singleton_append]

/-- The next legal entry is written behind those loaded, while the table has room for it. -/
theorem step_load (hb : busy s = false) (hr : s.run = false) (hs : ShapeInv s) (hv : isTableValue v = true)
    (hroom : vs.length < s.par.tableLen) :
    step (afterLoads s vs (loadTurn v :: rest)) = .next (afterLoads s (vs ++ [v]) rest) := by
  obtain ⟨hl, _, hwt, _⟩ := hs
  have haddr : (BitVec.ofNat 16 (vs.length % s.par.tableLen)).toNat = vs.length :=
    (wrapped_addr_toNat hl _).trans (Nat.mod_eq_of_lt hroom)
  have hset := set_append_drop (vs.map fun v => (⟨v, true⟩ : WtEntry)) s.wt ⟨v, true⟩ (by simpa [hwt] using hroom)
  rw [List.length_map] at hset
  refine (step_csr (s := afterLoads s vs (loadTurn v :: rest)) rfl (decode_wrWtData v)).trans
    ((exec_wrWtData_legal (s := afterLoads s vs rest) hb hr hv).trans ?_)
  simp [afterLoads, haddr, hset]

/-- A host that writes legal entries from index 0 on loads them in order. -/
theorem run_loads (hb : busy s = false) (hr : s.run = false) (hs : ShapeInv s) (ha : s.wtAddr = 0) :
    ∀ {rest : List Turn}, vs.length ≤ s.par.tableLen → (∀ v ∈ vs, isTableValue v = true) →
      s.port = vs.map loadTurn ++ rest → Host.Core.run core vs.length s = .next (afterLoads s vs rest) := by
  induction vs using List.reverseRecOn with
  | nil =>
    intro rest _ _ hp
    exact congrArg Host.Outcome.next (afterLoads_nil ha hp).symm
  | append_singleton vs v ih =>
    intro rest hlen hlegal hp
    rw [List.length_append, List.length_singleton] at hlen ⊢
    rw [List.map_append, List.append_assoc] at hp
    have hrun := ih (by omega) (fun x hx => hlegal x (List.mem_append_left _ hx)) hp
    exact (run_add (M := core) 1 vs.length hrun).trans
      ((run_one core _).trans (step_load hb hr hs (hlegal v (by simp)) hlen))

/-- Settles O27, by induction over the writes; after L of them none of the old table is left and the index is back at 0. -/
theorem tableLoad : Obligations.TableLoad := by
  unfold Obligations.TableLoad
  intro s vs rest hb hr hs ha hlen hlegal hp
  have hwt : s.wt.drop vs.length = [] := by
    obtain ⟨_, _, hwt, _⟩ := hs
    rw [hlen, ← hwt, List.drop_length]
  rw [run_loads hb hr hs ha hlen.le hlegal hp, afterLoads, hwt, hlen, Nat.mod_self, List.append_nil]
  rfl

end Sys2Proof.Machine
end

section
/-! The step and its turn (60_exceptions.md R341; 47_render_engine.md R270): which turn `fetch` takes, and what `step` makes
of it. -/

namespace Sys2Proof.Machine

variable {s u : State} {i : Instr} {rest : List Turn}

theorem step_of_run (h : fetch s = .run i u) : step s = exec i u := by rw [step, h]

theorem step_of_done (h : fetch s = .done u) : step s = .next u := by rw [step, h]

theorem fetch_nil (hp : s.port = []) : fetch s = fetchEngine s := by rw [fetch, hp]

theorem fetch_engine (hp : s.port = .engine :: rest) : fetch s = fetchEngine { s with port := rest } := by rw [fetch, hp]

theorem fetchEngine_instr (h : decode (.engine (engCode s.engState)) = .instr i) : fetchEngine s = .run i s := by
  rw [fetchEngine, h]

theorem fetchEngine_idle (h : s.engState = .idle) : fetchEngine s = .done s := by
  rw [fetchEngine, h]
  rfl

/-- Settles O6: the turn is the host's, the engine's, or the engine's for want of another, and an idle engine has no
step. -/
theorem stepRunsDecoded : Obligations.StepRunsDecoded := by
  unfold Obligations.StepRunsDecoded
  intro s rest
  refine ⟨fun a i hp hd => step_csr hp hd, fun i hp hd => ?_, fun i hp hd => ?_, fun hp hi => ?_, fun hp hi => ?_⟩
  · exact step_of_run ((fetch_engine hp).trans (fetchEngine_instr hd))
  · exact step_of_run ((fetch_nil hp).trans (fetchEngine_instr hd))
  · exact step_of_done ((fetch_engine hp).trans (fetchEngine_idle hi))
  · exact step_of_done ((fetch_nil hp).trans (fetchEngine_idle hi))

end Sys2Proof.Machine
end

section
/-! The pending interrupts over a step (60_exceptions.md R334, R336): `IrqStep` says of one step what may clear a bit and
what has set one; it is shown for the write of a register, for the drain, and with them for every step. -/

namespace Sys2Proof.Machine

variable {s t u : State}

/-- What may clear pending bit `b` (R336): a soft reset, or a 1 written to the bit of `IRQ_STATUS`. -/
def IrqClearedBy (s : State) (b : Nat) : Prop :=
  SoftResetNext s ∨ ∃ v, CsrWriteNext s 0x060 v ∧ v.getLsbD b = true

/-- What has set the pending bit of this number (R334): DONE, OVF, CFG_ERR, BAD_EVT, CSR_ERR. -/
def IrqSetBy (s t : State) : Nat → Prop
  | 0 => s.engState = .render ∧ t.engState = .idle ∧ t.blockCount = s.blockCount + 1
  | 1 => s.fifo.length = s.par.fifoDepth ∧ (∃ v, CsrWriteNext s 0x040 v) ∧ t.ovfCount = s.ovfCount + 1
  | 2 =>
    (s.engState = .drain ∧ ∃ e ∈ s.fifo, (applyEvent e s).cfgErrCount = s.cfgErrCount + 1) ∨
      (t.cfgErrCount = s.cfgErrCount + 1 ∧
        ∃ v, (CsrWriteNext s 0x070 v ∧ isSampleRate v = false) ∨ (CsrWriteNext s 0x078 v ∧ isTableValue v = false))
  | 3 => s.engState = .drain ∧ ∃ e ∈ s.fifo, (applyEvent e s).badEvtCount = s.badEvtCount + 1
  | 4 => (∃ a rest, s.port = .csr a :: rest) ∧ t.csrErrCount = s.csrErrCount + 1
  | _ => False

/-- From `s` to `t` every pending bit that is cleared or set has its reason. -/
structure IrqStep (s t : State) : Prop where
  cleared : ∀ b, s.irqPend.getLsbD b = true → t.irqPend.getLsbD b = false → IrqClearedBy s b
  set : ∀ b, s.irqPend.getLsbD b = false → t.irqPend.getLsbD b = true → IrqSetBy s t b

/-! ### The four ways the pending bits move -/

theorem IrqStep.kept (h : t.irqPend = s.irqPend) : IrqStep s t := by
  constructor <;> intro b hs ht <;> rw [h, hs] at ht <;> cases ht

/-- One bit raised, for its reason. -/
theorem IrqStep.raised (k : Nat) (h : t.irqPend = s.irqPend ||| BitVec.twoPow 5 k) (hk : IrqSetBy s t k) :
    IrqStep s t where
  cleared b hs ht := by simp [h, hs] at ht
  set b hs ht := by
    have hb : k < 5 ∧ k = b := by simpa [h, hs] using ht
    exact hb.2 ▸ hk

theorem IrqStep.reset (hr : SoftResetNext s) (h : t.irqPend = 0) : IrqStep s t where
  cleared _ _ _ := .inl hr
  set b _ ht := by simp [h] at ht

theorem IrqStep.acked {v : Word} (hc : CsrWriteNext s 0x060 v)
    (h : t.irqPend = s.irqPend &&& ~~~v.extractLsb' 0 5) : IrqStep s t where
  cleared b hs ht := by
    have hb : b < 5 := BitVec.lt_of_getLsbD hs
    exact .inr ⟨v, hc, by simpa [h, hs, hb] using ht⟩
  set b hs ht := by simp [h, hs] at ht

/-! ### The host's accesses -/

/-- An access whose error counts as one of the CSR window (R330). -/
theorem IrqStep.csrError {c : ErrCode} (hc : errCategory c = .csrErr) (hp : ∃ a rest, s.port = .csr a :: rest) (x : Byte)
    (hirq : u.irqPend = s.irqPend) (hcount : u.csrErrCount = s.csrErrCount) : IrqStep s (raiseError c x u) := by
  rw [raiseError_csr hc]
  exact .raised 4 (congrArg (· ||| irqCsrErr) hirq) ⟨hp, congrArg (· + 1) hcount⟩

/-- An illegal value written to `CFG_FS` or `WT_DATA` (48_host_interface.md R306, R309). -/
theorem IrqStep.cfgError {c : ErrCode} (hc : errCategory c = .cfgErr) (x : Byte)
    (hw : ∃ v, (CsrWriteNext s 0x070 v ∧ isSampleRate v = false) ∨ (CsrWriteNext s 0x078 v ∧ isTableValue v = false)) :
    IrqStep s (raiseError c x (popPort s)) := by
  rw [raiseError_cfg hc]
  exact .raised 2 rfl (.inr ⟨rfl, hw⟩)

/-- A push raises OVF when the FIFO is full (46_event_intake.md R230, R231). -/
theorem IrqStep.push (e : EvtWord) (hc : ∃ v, CsrWriteNext s 0x040 v) : IrqStep s (pushEvent e (popPort s)) := by
  by_cases hf : s.fifo.length = s.par.fifoDepth
  · rw [pushEvent_full (s := popPort s) e hf]
    exact .raised 1 rfl ⟨hf, hc, rfl⟩
  · rw [pushEvent_room (s := popPort s) e hf]
    exact .kept rfl

theorem WriteEffect.irqStep {o : Nat} {v : Word} (hp : ∃ a rest, s.port = .csr a :: rest)
    (hc : ∀ off : BitVec 9, o = off.toNat → CsrWriteNext s off v) (h : WriteEffect o v (popPort s) t) : IrqStep s t := by
  cases h with
  | refused c x hcat => exact .csrError hcat hp x rfl rfl
  | reset ho hb hv => exact .reset ⟨hb, v, hc 0x010 ho, hv⟩ rfl
  | push ho => exact .push _ ⟨v, hc 0x040 ho⟩
  | ack ho => exact .acked (hc 0x060 ho) rfl
  | badRate ho _ _ hv => exact .cfgError rfl _ ⟨v, .inl ⟨hc 0x070 ho, hv⟩⟩
  | badEntry ho _ _ hv => exact .cfgError rfl _ ⟨v, .inr ⟨hc 0x078 ho, hv⟩⟩
  | setRun | store | accept | rate | tableAddr | load => exact .kept rfl

/-! ### The events of a drain -/

/-- A pending bit that an event sets is that of the event's own error, in whatever state it is applied. -/
theorem applyEvent_sets {e : EvtWord} {b : Nat} (h0 : u.irqPend.getLsbD b = false)
    (h1 : (applyEvent e u).irqPend.getLsbD b = true) :
    (b = 2 ∧ ∀ s, (applyEvent e s).cfgErrCount = s.cfgErrCount + 1) ∨
      (b = 3 ∧ ∀ s, (applyEvent e s).badEvtCount = s.badEvtCount + 1) := by
  have hbit : ∀ k, (applyEvent e u).irqPend = u.irqPend ||| BitVec.twoPow 5 k → b = k := by
    intro k hk
    have hkb : k < 5 ∧ k = b := by simpa [hk, h0] using h1
    exact hkb.2.symm
  rcases applyEvent_errors e with h | h | h
  · rw [h u, h0] at h1; cases h1
  · exact .inl ⟨hbit 2 (h u).1, fun s => (h s).2⟩
  · exact .inr ⟨hbit 3 (h u).1, fun s => (h s).2⟩

/-- A pending bit that the events set together is set by one of them. -/
theorem applyEvents_sets {b : Nat} : ∀ {es : List EvtWord} {u : State}, u.irqPend.getLsbD b = false →
    (applyEvents es u).irqPend.getLsbD b = true →
    ∃ e ∈ es, ∃ w : State, w.irqPend.getLsbD b = false ∧ (applyEvent e w).irqPend.getLsbD b = true
  | [], u, h0, h1 => by rw [applyEvents, h0] at h1; cases h1
  | e :: es, u, h0, h1 => by
    cases he : (applyEvent e u).irqPend.getLsbD b
    · obtain ⟨e', hm, h'⟩ := applyEvents_sets he h1
      exact ⟨e', List.mem_cons_of_mem _ hm, h'⟩
    · exact ⟨e, List.mem_cons_self, u, h0, he⟩

theorem IrqStep.drain (hd : s.engState = .drain) : IrqStep s (drainBlock (popPort s)) where
  cleared b hs ht := by
    have hkept := (drainBlock_frame (popPort s)).2 b hs
    rw [ht] at hkept
    cases hkept
  set b hs ht := by
    obtain ⟨e, hm, u, h0, h1⟩ := applyEvents_sets (es := s.fifo) (u := { popPort s with fifo := [] }) hs ht
    rcases applyEvent_sets h0 h1 with ⟨rfl, hn⟩ | ⟨rfl, hn⟩
    · exact .inl ⟨hd, e, hm, hn s⟩
    · exact ⟨hd, e, hm, hn s⟩

/-! ### The whole step -/

/-- The end of a block raises DONE (47_render_engine.md R272); its frames leave the pending bits. -/
theorem IrqStep.finish (hr : s.engState = .render) {n f : Nat} (hu : renderFrames n f (popPort s) = .ok u) :
    IrqStep s (finishBlock u) := by
  obtain ⟨_, _, _, rfl⟩ := renderFrames_cases hu
  exact .raised 0 rfl ⟨hr, rfl, rfl⟩

theorem step_irq (h : step s = .next t) : IrqStep s t := by
  cases step_effect h with
  | access a rest hp ha =>
    cases ha with
    | read => exact .kept rfl
    | refused c x r hc => exact .csrError hc ⟨a, rest, hp⟩ x rfl rfl
    | write f hw h4 hf he =>
      exact (rwWrite_effect hf he).irqStep ⟨a, rest, hp⟩ fun off ho => csrWriteNext_of hp hw h4 ho
  | memRead | memWrite | idle => exact .kept rfl
  | drain hd => exact .drain hd
  | render hr he =>
    rcases renderStep_cases he with ⟨_, _, rfl⟩ | ⟨_, _, u, hu, rfl⟩
    · exact .kept rfl
    · exact .finish hr hu

/-- Settles O59: `step_irq`, its reasons read off bit by bit. -/
theorem irqPendingPersists : Obligations.IrqPendingPersists := by
  unfold Obligations.IrqPendingPersists
  intro s t h
  obtain ⟨hcleared, hset⟩ := step_irq h
  exact ⟨hcleared, hset 0, hset 1, hset 2, hset 3, hset 4⟩

end Sys2Proof.Machine
end

section
/-! Power-on reset (70_reset_and_hazards.md R360): each register has the value the table gives it, and the state meets every
invariant. The pool and the table are uniform, so each claim about a voice or an entry is one about the reset one. -/

namespace Sys2Proof.Machine

variable {par : Params}

/-! ### The pool and the table -/

theorem forall_mem_resetOf_voices {P : Voice → Prop} (h : P Voice.reset) : ∀ v ∈ (State.resetOf par).voices, P v :=
  fun _ hv => List.eq_of_mem_replicate hv ▸ h

theorem forall_mem_resetOf_wt {P : WtEntry → Prop} (h : P WtEntry.reset) : ∀ e ∈ (State.resetOf par).wt, P e :=
  fun _ he => List.eq_of_mem_replicate he ▸ h

theorem length_resetOf_wt : (State.resetOf par).wt.length = par.tableLen := List.length_replicate

/-! ### The `irq` line and `STATUS` -/

/-- The empty FIFO of reset is not full where it has room for an event (10_state.md R33). -/
theorem fifoFull_resetOf (h : par.fifoDepth ≠ 0) : fifoFull (State.resetOf par) = false := decide_eq_false h.symm

/-- No interrupt is pending (60_exceptions.md R335). -/
theorem irqLine_resetOf (par : Params) : irqLine (State.resetOf par) = false :=
  decide_eq_false (not_not_intro BitVec.zero_and)

/-- Of the bits of `STATUS` (10_state.md R45) FIFO_EMPTY alone is set. -/
theorem statusWord_resetOf (h : par.fifoDepth ≠ 0) : statusWord (State.resetOf par) = 0x00000004 := by
  have hrun : (State.resetOf par).run = false := rfl
  have hbusy : busy (State.resetOf par) = false := rfl
  have hempty : fifoEmpty (State.resetOf par) = true := rfl
  unfold statusWord
  rw [hrun, hbusy, hempty, fifoFull_resetOf h, irqLine_resetOf]
  decide

/-- RD STATUS answers `STATUS` and writes nothing else (10_state.md R45). -/
theorem exec_rdStatus {s : State} {w : Word} (h : statusWord s = w) : exec .rdStatus s = .next { s with rdata := w } := by
  rw [← h]; rfl

/-- Settles O60: the registers are read off the reset state, `STATUS` by its flags. -/
theorem resetState : Obligations.ResetState := by
  unfold Obligations.ResetState
  intro par
  -- from `voices` to `fifo`, then the table, then from `wtAddr` to `irqEn`
  iterate 10 refine ⟨rfl, ?_⟩
  refine ⟨length_resetOf_wt, forall_mem_resetOf_wt rfl, ?_⟩
  iterate 19 refine ⟨rfl, ?_⟩
  exact ⟨irqLine_resetOf par, fun h => exec_rdStatus (statusWord_resetOf h)⟩

/-! ### The invariants -/

theorem PoolInv.resetOf (par : Params) : PoolInv (State.resetOf par) :=
  ⟨List.length_replicate, forall_mem_resetOf_voices VoiceOk.reset⟩

/-- No voice is active, so none has a stamp to bound. -/
theorem SeqInv.resetOf (par : Params) : SeqInv (State.resetOf par) := forall_mem_resetOf_voices nofun

/-- No voice sounds, so none has an increment to match. -/
theorem IncInv.resetOf (par : Params) : IncInv (State.resetOf par) := forall_mem_resetOf_voices nofun

theorem ShapeInv.resetOf (h : par.legal = true) : ShapeInv (State.resetOf par) :=
  ⟨h, Nat.zero_le _, length_resetOf_wt, Nat.two_pow_pos par.wtLog2Len⟩

/-- No entry is written, so none has a value to bound. -/
theorem TableInv.resetOf (par : Params) : TableInv (State.resetOf par) := forall_mem_resetOf_wt nofun

theorem LevelInv.resetOf (par : Params) : LevelInv (State.resetOf par) :=
  (levelInv_iff _).2 ⟨ParamLevelOk.reset par.nVoices, forall_mem_resetOf_voices LevelOk.reset⟩

theorem PhaseInv.resetOf (h : par.legal = true) : PhaseInv (State.resetOf par) :=
  (phaseInv_iff _).2
    ⟨h, (by decide : isSampleRate 0x473B8000 = true), forall_mem_resetOf_voices (PhaseOk.reset par)⟩

/-- Settles O50: each invariant by the value of a reset voice, entry or parameter file; no block is outstanding. -/
theorem resetMeetsInvariants : Obligations.ResetMeetsInvariants := by
  unfold Obligations.ResetMeetsInvariants
  intro par h
  exact ⟨PoolInv.resetOf par, SeqInv.resetOf par, FilterInv.resetOf h, DerivedOk.reset par.nVoices, IncInv.resetOf par,
    reset_mem_wf par, BlockInv.of_idle rfl, ShapeInv.resetOf h, TableInv.resetOf par, LevelInv.resetOf par,
    PhaseInv.resetOf h⟩

end Sys2Proof.Machine
end
